-- ==== Sys2Proof/Word.lean ====
section
/-! DEFINITION. The word types of the unit (00_scope.md R6, R7). -/

namespace Sys2Proof

/-- A general register, cmd_data, rsp_data and a control register as read: 128 bits, bit 0 least significant
(00_scope.md R6, R7). -/
abbrev Word := BitVec 128

/-- The command word: 32 bits (30_encoding.md R70). -/
abbrev CommandWord := BitVec 32

/-- A register number, R0 to R7 (10_state.md R21). -/
abbrev Reg := Fin 8

end Sys2Proof
end

