-- ==== Sys2Proof/Config.lean ====
section
/-! DEFINITION. What this implementation fixes (00_scope.md R2, R6).

The one OPEN parameter of the spec is LATENCY(op) (70_reset_and_hazards.md R277). It is not a number here: every port
sample of the host's input list carries its own count of extra cycles (`Machine.PortSample.wait`), so that a statement
about the machine holds for every latency (log entry 1). The spec leaves no result undefined, so there is no opaque
free value. -/

namespace Sys2Proof

/-- The two address families; one is active at a time, selected by CFG.FAM (00_scope.md R2, 10_state.md R31). -/
inductive Family where
  /-- FAM = 0: 32 bits, 4 blocks of 8 bits, decimal codec. -/
  | family1
  /-- FAM = 1: 128 bits, 8 blocks of 16 bits, hexadecimal codec. -/
  | family2
deriving DecidableEq, Repr

end Sys2Proof
end

