-- ==== Sys2Proof/Syntax.lean ====
section
/-! DEFINITION. The commands of the unit: one constructor for each row of spec/opcode_table.json (30_encoding.md R75).
Operands are the used fields of R72 and R73; field widths are the encoding's own. -/

namespace Sys2Proof

/-- The 32 commands of 30_encoding.md R75, operands in the assembler's order (R80). -/
inductive Instr where
  /-- NOP (40_control.md R100). -/
  | nop
  /-- LDI rd, imm23 (R101). -/
  | ldi (rd : Reg) (imm23 : BitVec 23)
  /-- WR rd, data on cmd_data (R102). -/
  | wr (rd : Reg)
  /-- RD rs1 (R103). -/
  | rd (rs1 : Reg)
  /-- MOV rd, rs1 (R104). -/
  | mov (rd rs1 : Reg)
  /-- CSRR rd, csr (R105). -/
  | csrr (rd : Reg) (csr : BitVec 3)
  /-- CSRW csr, rs1 (R106). -/
  | csrw (csr : BitVec 3) (rs1 : Reg)
  /-- CSRWI csr, imm11 (R107). -/
  | csrwi (csr : BitVec 3) (imm11 : BitVec 11)
  /-- MASK rd, rs1 (41_mask.md R120). -/
  | mask (rd rs1 : Reg)
  /-- WILD rd, rs1 (R121). -/
  | wild (rd rs1 : Reg)
  /-- M2P rd, rs1 (R122). -/
  | m2p (rd rs1 : Reg)
  /-- B2V rd, rs1, nb (42_codec.md R143). -/
  | b2v (rd rs1 : Reg) (nb : BitVec 4)
  /-- V2B rd, rs1 (R144). -/
  | v2b (rd rs1 : Reg)
  /-- BSHL rd, rs1, k (R145). -/
  | bshl (rd rs1 : Reg) (k : BitVec 4)
  /-- BSHR rd, rs1, k (R146). -/
  | bshr (rd rs1 : Reg) (k : BitVec 4)
  /-- BROL rd, rs1, k (R147). -/
  | brol (rd rs1 : Reg) (k : BitVec 4)
  /-- BROR rd, rs1, k (R148). -/
  | bror (rd rs1 : Reg) (k : BitVec 4)
  /-- CLZ rd, rs1 (43_scan.md R160). -/
  | clz (rd rs1 : Reg)
  /-- CLO rd, rs1 (R161). -/
  | clo (rd rs1 : Reg)
  /-- LCP rd, rs1, rs2 (R162). -/
  | lcp (rd rs1 rs2 : Reg)
  /-- NET rd, rs1, rs2 (44_network.md R180). -/
  | net (rd rs1 rs2 : Reg)
  /-- BCAST rd, rs1, rs2 (R181). -/
  | bcast (rd rs1 rs2 : Reg)
  /-- FIRST rd, rs1, rs2 (R182). -/
  | first (rd rs1 rs2 : Reg)
  /-- LAST rd, rs1, rs2 (R183). -/
  | last (rd rs1 rs2 : Reg)
  /-- HCNT rd, rs2 (R184). -/
  | hcnt (rd rs2 : Reg)
  /-- ISNET rd, rs1, rs2 (R185). -/
  | isnet (rd rs1 rs2 : Reg)
  /-- ISBC rd, rs1, rs2 (R186). -/
  | isbc (rd rs1 rs2 : Reg)
  /-- CONT rd, rs1, rs2, rs3 (R187). -/
  | cont (rd rs1 rs2 rs3 : Reg)
  /-- SCN rd, rs1, rs2, h, with h = hostsOnly (R188). -/
  | scn (rd rs1 rs2 : Reg) (h : Bool)
  /-- SUBCFG rd, rs1, rs2, rs3 (45_subnet.md R210). -/
  | subcfg (rd rs1 rs2 rs3 : Reg)
  /-- SUBN rd, rs1 (R213). -/
  | subn (rd rs1 : Reg)
  /-- BUDG rd, rs1, rs2, rs3, S, H, PREF (R216); PREF is the field's two bits, and PREF = 3 is not well formed. -/
  | budg (rd rs1 rs2 rs3 : Reg) (subnets hosts : Bool) (pref : BitVec 2)
deriving DecidableEq, Repr

end Sys2Proof
end

