-- ==== Sys2Proof/WellFormed.lean ====
section
/-! DEFINITION. Which terms of Instr are commands of the unit. Register numbers, immediates and small fields are bounded
by their types; the one value check inside a field is BUDG's PREF (30_encoding.md R76). -/

namespace Sys2Proof

/-- BUDG with PREF = 3 is illegal (30_encoding.md R72, R76); every other term is a command. -/
def Instr.wellFormed : Instr → Bool
  | .budg _ _ _ _ _ _ pref => pref != 3#2
  | _ => true

end Sys2Proof
end

