-- ==== Sys2Proof/Decode.lean ====
section
/-! DEFINITION. The command encoding (30_encoding.md R70 to R77): the decoder, total on every 32-bit word, and after it
the encoder, written from the same field tables. -/

namespace Sys2Proof

/-! ## Fields of a command word (R70, R72) -/

/-- The opcode, bits 31:26. -/
def opField (w : CommandWord) : BitVec 6 := w.extractLsb' 26 6
/-- rd, bits 25:23. -/
def rdField (w : CommandWord) : Reg := (w.extractLsb' 23 3).toFin
/-- rs1, bits 22:20. -/
def rs1Field (w : CommandWord) : Reg := (w.extractLsb' 20 3).toFin
/-- rs2, bits 19:17. -/
def rs2Field (w : CommandWord) : Reg := (w.extractLsb' 17 3).toFin
/-- rs3, bits 16:14. -/
def rs3Field (w : CommandWord) : Reg := (w.extractLsb' 14 3).toFin
/-- LDI's imm23, bits 22:0. -/
def imm23Field (w : CommandWord) : BitVec 23 := w.extractLsb' 0 23
/-- CSRWI's imm11, bits 13:3. -/
def imm11Field (w : CommandWord) : BitVec 11 := w.extractLsb' 3 11
/-- The control register number, bits 2:0. -/
def csrField (w : CommandWord) : BitVec 3 := w.extractLsb' 0 3
/-- B2V's nb and the k of the block shifts and rotates, bits 3:0. -/
def countField (w : CommandWord) : BitVec 4 := w.extractLsb' 0 4
/-- SCN's h and BUDG's S, bit 0. -/
def bit0Field (w : CommandWord) : Bool := w.getLsbD 0
/-- BUDG's H, bit 1. -/
def bit1Field (w : CommandWord) : Bool := w.getLsbD 1
/-- BUDG's PREF, bits 3:2. -/
def prefField (w : CommandWord) : BitVec 2 := w.extractLsb' 2 2

/-! ## The decoder -/

/-- Why a word is no command (30_encoding.md R77, the first three rows). -/
inductive DecodeError where
  /-- The opcode has no row in R75. -/
  | reservedOpcode
  /-- A field the command does not use is not zero (R71). -/
  | requiredZero
  /-- BUDG with PREF = 3 (R76). -/
  | reservedPref
deriving DecidableEq, Repr

/-- One row of the opcode map: the word is the command exactly when `word AND mask = match` (R71, R76). -/
def decodeRow (w mask value : CommandWord) (i : Instr) : Except DecodeError Instr :=
  if w &&& mask = value then .ok i else .error .requiredZero

/-- BUDG's value check inside a legal-looking field (R76). -/
def checkPref (w : CommandWord) (row : Except DecodeError Instr) : Except DecodeError Instr :=
  if prefField w = 3#2 then row.bind fun _ => .error .reservedPref else row

/-- Decoding, a total function of the 32-bit word (R75, R76). Mask and match stand as in R75's table. -/
def decode (w : CommandWord) : Except DecodeError Instr :=
  match (opField w).toNat with
  | 0x00 => decodeRow w 0xFFFFFFFF#32 0x00000000#32 .nop
  | 0x01 => decodeRow w 0xFC000000#32 0x04000000#32 (.ldi (rdField w) (imm23Field w))
  | 0x02 => decodeRow w 0xFC7FFFFF#32 0x08000000#32 (.wr (rdField w))
  | 0x03 => decodeRow w 0xFF8FFFFF#32 0x0C000000#32 (.rd (rs1Field w))
  | 0x04 => decodeRow w 0xFC0FFFFF#32 0x10000000#32 (.mov (rdField w) (rs1Field w))
  | 0x05 => decodeRow w 0xFC7FFFF8#32 0x14000000#32 (.csrr (rdField w) (csrField w))
  | 0x06 => decodeRow w 0xFF8FFFF8#32 0x18000000#32 (.csrw (csrField w) (rs1Field w))
  | 0x07 => decodeRow w 0xFFFFC000#32 0x1C000000#32 (.csrwi (csrField w) (imm11Field w))
  | 0x08 => decodeRow w 0xFC0FFFFF#32 0x20000000#32 (.mask (rdField w) (rs1Field w))
  | 0x09 => decodeRow w 0xFC0FFFFF#32 0x24000000#32 (.wild (rdField w) (rs1Field w))
  | 0x0A => decodeRow w 0xFC0FFFFF#32 0x28000000#32 (.m2p (rdField w) (rs1Field w))
  | 0x10 => decodeRow w 0xFC0FFFF0#32 0x40000000#32 (.b2v (rdField w) (rs1Field w) (countField w))
  | 0x11 => decodeRow w 0xFC0FFFFF#32 0x44000000#32 (.v2b (rdField w) (rs1Field w))
  | 0x12 => decodeRow w 0xFC0FFFF0#32 0x48000000#32 (.bshl (rdField w) (rs1Field w) (countField w))
  | 0x13 => decodeRow w 0xFC0FFFF0#32 0x4C000000#32 (.bshr (rdField w) (rs1Field w) (countField w))
  | 0x14 => decodeRow w 0xFC0FFFF0#32 0x50000000#32 (.brol (rdField w) (rs1Field w) (countField w))
  | 0x15 => decodeRow w 0xFC0FFFF0#32 0x54000000#32 (.bror (rdField w) (rs1Field w) (countField w))
  | 0x18 => decodeRow w 0xFC0FFFFF#32 0x60000000#32 (.clz (rdField w) (rs1Field w))
  | 0x19 => decodeRow w 0xFC0FFFFF#32 0x64000000#32 (.clo (rdField w) (rs1Field w))
  | 0x1A => decodeRow w 0xFC01FFFF#32 0x68000000#32 (.lcp (rdField w) (rs1Field w) (rs2Field w))
  | 0x20 => decodeRow w 0xFC01FFFF#32 0x80000000#32 (.net (rdField w) (rs1Field w) (rs2Field w))
  | 0x21 => decodeRow w 0xFC01FFFF#32 0x84000000#32 (.bcast (rdField w) (rs1Field w) (rs2Field w))
  | 0x22 => decodeRow w 0xFC01FFFF#32 0x88000000#32 (.first (rdField w) (rs1Field w) (rs2Field w))
  | 0x23 => decodeRow w 0xFC01FFFF#32 0x8C000000#32 (.last (rdField w) (rs1Field w) (rs2Field w))
  | 0x24 => decodeRow w 0xFC71FFFF#32 0x90000000#32 (.hcnt (rdField w) (rs2Field w))
  | 0x25 => decodeRow w 0xFC01FFFF#32 0x94000000#32 (.isnet (rdField w) (rs1Field w) (rs2Field w))
  | 0x26 => decodeRow w 0xFC01FFFF#32 0x98000000#32 (.isbc (rdField w) (rs1Field w) (rs2Field w))
  | 0x27 => decodeRow w 0xFC003FFF#32 0x9C000000#32 (.cont (rdField w) (rs1Field w) (rs2Field w) (rs3Field w))
  | 0x28 => decodeRow w 0xFC01FFFE#32 0xA0000000#32 (.scn (rdField w) (rs1Field w) (rs2Field w) (bit0Field w))
  | 0x30 => decodeRow w 0xFC003FFF#32 0xC0000000#32 (.subcfg (rdField w) (rs1Field w) (rs2Field w) (rs3Field w))
  | 0x31 => decodeRow w 0xFC0FFFFF#32 0xC4000000#32 (.subn (rdField w) (rs1Field w))
  | 0x32 => checkPref w (decodeRow w 0xFC003FF0#32 0xC8000000#32
      (.budg (rdField w) (rs1Field w) (rs2Field w) (rs3Field w) (bit0Field w) (bit1Field w) (prefField w)))
  | _ => .error .reservedOpcode

/-- The command the decoder reads from an instruction of `nbits` bits numbered as spec/opcode_table.json numbers them,
which is as cmd_word's own bits are numbered (30_encoding.md R70). None where the decoder refuses, or where a bit above
31 is set: a command is one 32-bit word. -/
def decodeTableWord (nbits w : Nat) : Option Instr :=
  if w % 2 ^ nbits < 2 ^ 32 then (decode (BitVec.ofNat 32 (w % 2 ^ nbits))).toOption else none

/-! ## The encoder -/

/-- The three bits of a register number. -/
def regBits (r : Reg) : BitVec 3 := BitVec.ofFin r

/-- Format R: op, rd, rs1, rs2, rs3, f (R70). -/
def packR (op : BitVec 6) (rd rs1 rs2 rs3 : Reg) (f : BitVec 14) : CommandWord :=
  op ++ regBits rd ++ regBits rs1 ++ regBits rs2 ++ regBits rs3 ++ f

/-- Format I: op, rd, imm23 (R70). -/
def packI (op : BitVec 6) (rd : Reg) (imm23 : BitVec 23) : CommandWord :=
  op ++ regBits rd ++ imm23

/-- Format C: op, rd, rs1, six zero bits, imm11, csr (R70). -/
def packC (op : BitVec 6) (rd rs1 : Reg) (imm11 : BitVec 11) (csr : BitVec 3) : CommandWord :=
  op ++ regBits rd ++ regBits rs1 ++ 0#6 ++ imm11 ++ csr

/-- The opcode of each command (R75). -/
def Instr.opcode : Instr → BitVec 6
  | .nop => 0x00#6
  | .ldi _ _ => 0x01#6
  | .wr _ => 0x02#6
  | .rd _ => 0x03#6
  | .mov _ _ => 0x04#6
  | .csrr _ _ => 0x05#6
  | .csrw _ _ => 0x06#6
  | .csrwi _ _ => 0x07#6
  | .mask _ _ => 0x08#6
  | .wild _ _ => 0x09#6
  | .m2p _ _ => 0x0A#6
  | .b2v _ _ _ => 0x10#6
  | .v2b _ _ => 0x11#6
  | .bshl _ _ _ => 0x12#6
  | .bshr _ _ _ => 0x13#6
  | .brol _ _ _ => 0x14#6
  | .bror _ _ _ => 0x15#6
  | .clz _ _ => 0x18#6
  | .clo _ _ => 0x19#6
  | .lcp _ _ _ => 0x1A#6
  | .net _ _ _ => 0x20#6
  | .bcast _ _ _ => 0x21#6
  | .first _ _ _ => 0x22#6
  | .last _ _ _ => 0x23#6
  | .hcnt _ _ => 0x24#6
  | .isnet _ _ _ => 0x25#6
  | .isbc _ _ _ => 0x26#6
  | .cont _ _ _ _ => 0x27#6
  | .scn _ _ _ _ => 0x28#6
  | .subcfg _ _ _ _ => 0x30#6
  | .subn _ _ => 0x31#6
  | .budg _ _ _ _ _ _ _ => 0x32#6

/-- The f field that holds a block count or amount: f[3:0] (R72). -/
def countBits (n : BitVec 4) : BitVec 14 := 0#10 ++ n

/-- The command word of a command (R70 to R75); unused fields are zero (R71). -/
def encode (i : Instr) : CommandWord :=
  match i with
  | .nop => packR i.opcode 0 0 0 0 0
  | .ldi rd imm23 => packI i.opcode rd imm23
  | .wr rd => packR i.opcode rd 0 0 0 0
  | .rd rs1 => packR i.opcode 0 rs1 0 0 0
  | .mov rd rs1 => packR i.opcode rd rs1 0 0 0
  | .csrr rd csr => packC i.opcode rd 0 0 csr
  | .csrw csr rs1 => packC i.opcode 0 rs1 0 csr
  | .csrwi csr imm11 => packC i.opcode 0 0 imm11 csr
  | .mask rd rs1 => packR i.opcode rd rs1 0 0 0
  | .wild rd rs1 => packR i.opcode rd rs1 0 0 0
  | .m2p rd rs1 => packR i.opcode rd rs1 0 0 0
  | .b2v rd rs1 nb => packR i.opcode rd rs1 0 0 (countBits nb)
  | .v2b rd rs1 => packR i.opcode rd rs1 0 0 0
  | .bshl rd rs1 k => packR i.opcode rd rs1 0 0 (countBits k)
  | .bshr rd rs1 k => packR i.opcode rd rs1 0 0 (countBits k)
  | .brol rd rs1 k => packR i.opcode rd rs1 0 0 (countBits k)
  | .bror rd rs1 k => packR i.opcode rd rs1 0 0 (countBits k)
  | .clz rd rs1 => packR i.opcode rd rs1 0 0 0
  | .clo rd rs1 => packR i.opcode rd rs1 0 0 0
  | .lcp rd rs1 rs2 => packR i.opcode rd rs1 rs2 0 0
  | .net rd rs1 rs2 => packR i.opcode rd rs1 rs2 0 0
  | .bcast rd rs1 rs2 => packR i.opcode rd rs1 rs2 0 0
  | .first rd rs1 rs2 => packR i.opcode rd rs1 rs2 0 0
  | .last rd rs1 rs2 => packR i.opcode rd rs1 rs2 0 0
  | .hcnt rd rs2 => packR i.opcode rd 0 rs2 0 0
  | .isnet rd rs1 rs2 => packR i.opcode rd rs1 rs2 0 0
  | .isbc rd rs1 rs2 => packR i.opcode rd rs1 rs2 0 0
  | .cont rd rs1 rs2 rs3 => packR i.opcode rd rs1 rs2 rs3 0
  | .scn rd rs1 rs2 h => packR i.opcode rd rs1 rs2 0 (0#13 ++ BitVec.ofBool h)
  | .subcfg rd rs1 rs2 rs3 => packR i.opcode rd rs1 rs2 rs3 0
  | .subn rd rs1 => packR i.opcode rd rs1 0 0 0
  | .budg rd rs1 rs2 rs3 subnets hosts pref =>
    packR i.opcode rd rs1 rs2 rs3 (0#10 ++ pref ++ BitVec.ofBool hosts ++ BitVec.ofBool subnets)

end Sys2Proof
end

