-- ==== Sys2Proof/Machine/State.lean ====
section
/-! DEFINITION. The state of the unit and of its interface (10_state.md), as plain data, and its reset value (R41). -/

namespace Sys2Proof.Machine

/-- The errors of 60_exceptions.md R240. -/
inductive ErrorCode where
  /-- A prefix outside [0, M], target <= base, an infeasible budget, an index or result out of range. -/
  | range
  /-- A vector with bits above M-1, a netmask not 1..10..0, a wrong block count or lane. -/
  | format
  /-- Reserved: the unit never raises it. -/
  | usage
  /-- An illegal word, or a reserved or read-only control register. -/
  | illegal
  /-- A family-1-only command while FAM = 1. -/
  | unsupported
  /-- SUBN with no valid enumeration configured. -/
  | sequence
deriving DecidableEq, Repr

/-- A response: rsp_status and rsp_data (10_state.md R37, R40). -/
structure Response where
  /-- 0 on success, else the error code (60_exceptions.md R240). -/
  status : BitVec 4
  /-- The response data (20_memory.md R55). -/
  data : Word
deriving DecidableEq, Repr

/-- The input ports as sampled at one rising edge of clk (10_state.md R40). -/
structure PortSample where
  /-- rst_n: false is reset (70_reset_and_hazards.md R270). -/
  rstN : Bool
  /-- cmd_valid: the host offers a command. -/
  cmdValid : Bool
  /-- cmd_word. -/
  cmdWord : CommandWord
  /-- cmd_data. -/
  cmdData : Word
  /-- rsp_ready: the host takes the response. -/
  rspReady : Bool
  /-- No port: LATENCY - 1 of the command accepted at this edge, if one is. The spec leaves LATENCY open
  (70_reset_and_hazards.md R277), so nothing constrains this count (DESIGN CHOICE, safe; log entry 1). -/
  wait : Nat
deriving DecidableEq, Repr

/-- The output ports in one cycle (10_state.md R40). -/
structure PortOutputs where
  /-- cmd_ready. -/
  cmdReady : Bool
  /-- rsp_valid. -/
  rspValid : Bool
  /-- rsp_status and rsp_data. None while rsp_valid = 0: the spec states no values then (log entry 10). -/
  rsp : Option Response
deriving DecidableEq, Repr

/-- No fault stops the unit: every error is the outcome of one command, reported in its response, and the unit accepts
the next command (60_exceptions.md R245, 70_reset_and_hazards.md R276). So there is no constructor. -/
inductive Fault where
deriving DecidableEq, Repr

/-- Why the model would decline to go on. -/
inductive Refusal where
  /-- Raised by an arm of exec whose instruction has no meaning yet; no arm raises it now. Safe: the model stops. -/
  | notModelled (mnemonic : String)
deriving DecidableEq, Repr

/-- Everything the spec gives the unit and its interface, and the host's side of the ports. -/
structure State where
  /-- R0 to R7 (10_state.md R21). -/
  regs : Vector Word 8
  /-- CFG.FAM (10_state.md R31). -/
  fam : Family
  /-- STATUS.ERR (10_state.md R32). -/
  err : Bool
  /-- STATUS.CODE (10_state.md R32). -/
  code : BitVec 4
  /-- STATUS.EOP (10_state.md R32). -/
  eop : BitVec 6
  /-- ENUM_VALID (10_state.md R35). -/
  enumValid : Bool
  /-- ENUM_P (10_state.md R35). -/
  enumP : BitVec 8
  /-- ENUM_T (10_state.md R35). -/
  enumT : BitVec 8
  /-- ENUM_BASE (10_state.md R35). -/
  enumBase : Word
  /-- BUSY: a command accepted and not yet answered (10_state.md R37). -/
  busy : Bool
  /-- The pending response, held until the host takes it; none is rsp_valid = 0 (10_state.md R37). -/
  rsp : Option Response
  /-- cmd_word as sampled when the last command was accepted (10_state.md R40). -/
  cmdWord : CommandWord
  /-- cmd_data as sampled at the same edge (10_state.md R40). -/
  cmdData : Word
  /-- The model's own: edges that still pass before the accepted command executes (log entry 1). -/
  wait : Nat
  /-- The model's own: the host's port samples to come, one for each rising edge (log entry 2). -/
  inputs : List PortSample
  /-- The model's own: the responses the host has taken, oldest first (70_reset_and_hazards.md R278; log entry 7). -/
  taken : List Response
deriving DecidableEq, Repr

/-- The machine right after reset (10_state.md R41). The two sampled-command fields and the model's own three fields
have no reset value in the spec (log entries 1, 2, 4, 7). -/
def State.reset : State where
  regs := Vector.replicate 8 0
  fam := .family1
  err := false
  code := 0
  eop := 0
  enumValid := false
  enumP := 0
  enumT := 0
  enumBase := 0
  busy := false
  rsp := none
  cmdWord := 0
  cmdData := 0
  wait := 0
  inputs := []
  taken := []

end Sys2Proof.Machine
end

