-- ==== Sys2Proof/Machine/Bits.lean ====
section
/-! DEFINITION. Family parameters (00_scope.md R2) and the derived functions of R10: well-formedness, masks, leading-bit
counts, clog2; and the view of a register as the source's bit string (R8). -/

namespace Sys2Proof.Machine

/-- CFG bit 0 as a family (10_state.md R31). -/
def familyOfBit (fam : Bool) : Family := if fam then .family2 else .family1

/-- FAM of a family (10_state.md R31). -/
def familyBit : Family → Bool
  | .family1 => false
  | .family2 => true

/-- MAXBITS, written M (00_scope.md R2). -/
def maxBits : Family → Nat
  | .family1 => 32
  | .family2 => 128

/-- The block bit-width BB (R2). -/
def blockBits : Family → Nat
  | .family1 => 8
  | .family2 => 16

/-- The block count NB (R2). -/
def blockCount : Family → Nat
  | .family1 => 4
  | .family2 => 8

/-- wf(v): bits 127 to M are zero (R10). -/
def wf (f : Family) (v : Word) : Bool := v >>> maxBits f == 0#128

/-- ones(n): n low bits set (R10). -/
def ones (n : Nat) : Word := BitVec.ofNat 128 (2 ^ n - 1)

/-- mask(p): p ones, then M-p zeros (R10). -/
def netmask (f : Family) (p : Nat) : Word := BitVec.ofNat 128 ((2 ^ p - 1) <<< (maxBits f - p))

/-- wild(p): p zeros, then M-p ones (R10). -/
def wildcard (f : Family) (p : Nat) : Word := ones (maxBits f - p)

/-- Zeros from bit m-1 downward before the first 1, m if there is none. -/
def leadingZeros : Nat → Word → Nat
  | 0, _ => 0
  | m + 1, v => if v.getLsbD m then 0 else leadingZeros m v + 1

/-- Ones from bit m-1 downward before the first 0, m if there is none. -/
def leadingOnes : Nat → Word → Nat
  | 0, _ => 0
  | m + 1, v => if v.getLsbD m then leadingOnes m v + 1 else 0

/-- clz(v), over the M bits of the family (R10, 43_scan.md R160). -/
def clz (f : Family) (v : Word) : Nat := leadingZeros (maxBits f) v

/-- clo(v), over the M bits of the family (R10, 43_scan.md R161). -/
def clo (f : Family) (v : Word) : Nat := leadingOnes (maxBits f) v

/-- Halve, rounding up, until 1 is left, and count the halvings. The fuel is never short: each halving makes n smaller. -/
def clog2From : Nat → Nat → Nat
  | 0, _ => 0
  | fuel + 1, n => if n ≤ 1 then 0 else clog2From fuel ((n + 1) / 2) + 1

/-- clog2(n): the least k with 2^k >= n, exact on naturals (R10, 45_subnet.md R214). -/
def clog2 (n : Nat) : Nat := clog2From n n

/-- The source's bit string of a vector: M characters, c_i = v[M-1-i], leftmost first (R8). -/
def bitString (f : Family) (v : Word) : List Bool :=
  (List.range (maxBits f)).map fun i => v.getLsbD (maxBits f - 1 - i)

/-- A predicate result, 0 or 1 (10_state.md R25). -/
def boolWord (b : Bool) : Word := if b then 1#128 else 0#128

end Sys2Proof.Machine
end

