-- ==== Sys2Proof/Machine/Flags.lean ====
section
/-! DEFINITION. The one flag of the unit and the record beside it: STATUS as read, its write-1-to-clear, and what an
error records (10_state.md R25, R32 to R34; error numbers 60_exceptions.md R240). -/

namespace Sys2Proof.Machine

/-- The number of an error on rsp_status and in STATUS.CODE (60_exceptions.md R240). -/
def ErrorCode.number : ErrorCode → BitVec 4
  | .range => 1
  | .format => 2
  | .usage => 3
  | .illegal => 4
  | .unsupported => 5
  | .sequence => 6

/-- STATUS as read: ERR bit 0, ENUMV bit 1, CODE bits 7:4, EOP bits 13:8, the rest 0 (10_state.md R32). -/
def State.statusWord (s : State) : Word :=
  0#114 ++ s.eop ++ s.code ++ 0#2 ++ BitVec.ofBool s.enumValid ++ BitVec.ofBool s.err

/-- The clear of a STATUS write with bit 0 set (10_state.md R33). -/
def State.clearError (s : State) : State := { s with err := false, code := 0, eop := 0 }

/-- A STATUS write of v: bit 0 set clears ERR, CODE and EOP; everything else is ignored (10_state.md R33). -/
def State.writeStatus (v : Word) (s : State) : State := if v.getLsbD 0 then s.clearError else s

/-- The STATUS update of a command that raises e: the first error since the last clear is kept (10_state.md R34). -/
def State.recordError (e : ErrorCode) (s : State) : State :=
  { s with
    err := true
    code := if s.err then s.code else e.number
    eop := if s.err then s.eop else opField s.cmdWord }

end Sys2Proof.Machine
end

