-- ==== Sys2Proof/Machine/Operands.lean ====
section
/-! DEFINITION. How a command reads an operand (10_state.md R22, 30_encoding.md R72, R73): a register as an M-bit vector,
as a prefix, as block lanes, as an unsigned integer; and the family check that comes before them (60_exceptions.md
R242). -/

namespace Sys2Proof.Machine

/-- One check of a command: go on when it holds, else raise e (00_scope.md R9). -/
def check (holds : Bool) (e : ErrorCode) : Except ErrorCode Unit := if holds then .ok () else .error e

/-- vecOf(v): the only way a command reads an address, netmask or bit vector (00_scope.md R10, R12). -/
def vecOf (f : Family) (v : Word) : Except ErrorCode Word := if wf f v then .ok v else .error .format

/-- prefixOf(v): the only way a command reads a prefix length; signed, never clamped (00_scope.md R10, R11). -/
def prefixOf (f : Family) (v : Word) : Except ErrorCode Nat :=
  if v.toInt < 0 ∨ v.toInt > maxBits f then .error .range else .ok (v.extractLsb' 0 8).toNat

/-- x[i]: read general register Ri (00_scope.md R9). -/
def State.reg (s : State) (r : Reg) : Word := s.regs[r]

/-- Register r read as an M-bit vector of the active family. -/
def State.vec (s : State) (r : Reg) : Except ErrorCode Word := vecOf s.fam (s.reg r)

/-- Register r read as a prefix length of the active family. -/
def State.pfx (s : State) (r : Reg) : Except ErrorCode Nat := prefixOf s.fam (s.reg r)

/-- The family check of a command that is family 1 only (30_encoding.md R88). -/
def State.familyOneOnly (s : State) : Except ErrorCode Unit :=
  match s.fam with
  | .family1 => .ok ()
  | .family2 => .error .unsupported

/-- lane_j(L): bits 16*(NB-1-j)+15 to 16*(NB-1-j) (42_codec.md R140). -/
def lane (f : Family) (j : Nat) (lanes : Word) : BitVec 16 := lanes.extractLsb' (16 * (blockCount f - 1 - j)) 16

/-- Block j of a vector: bits M-1-j*BB to M-(j+1)*BB (20_memory.md R50). -/
def block (f : Family) (j : Nat) (v : Word) : Nat :=
  (v.extractLsb' (maxBits f - (j + 1) * blockBits f) (blockBits f)).toNat

/-- BUDG's preference (45_subnet.md R215). -/
inductive Preference where
  /-- No preference given. -/
  | unset
  /-- preferHosts = false: subnets get the surplus and are protected in a deficit. -/
  | subnets
  /-- preferHosts = true: hosts get the surplus and are protected in a deficit. -/
  | hosts
deriving DecidableEq, Repr

/-- The PREF field: 0 unset, 1 subnets, 2 hosts, 3 illegal (30_encoding.md R72). -/
def preferenceOf (pref : BitVec 2) : Except ErrorCode Preference :=
  match pref.toNat with
  | 0 => .ok .unset
  | 1 => .ok .subnets
  | 2 => .ok .hosts
  | _ => .error .illegal

/-- CFG, STATUS, PARAMS, ENUMCFG and ENUMBASE as read; 5 to 7 raise IllegalError (10_state.md R26, R27, R31, R32, R35,
R36). -/
def State.readCsr (n : BitVec 3) (s : State) : Except ErrorCode Word :=
  match n.toNat with
  | 0 => .ok (0#127 ++ BitVec.ofBool (familyBit s.fam))
  | 1 => .ok s.statusWord
  | 2 => .ok (0#108 ++ BitVec.ofNat 4 (blockCount s.fam) ++ BitVec.ofNat 8 (blockBits s.fam)
      ++ BitVec.ofNat 8 (maxBits s.fam))
  | 3 => .ok (0#111 ++ BitVec.ofBool s.enumValid ++ s.enumT ++ s.enumP)
  | 4 => .ok s.enumBase
  | _ => .error .illegal

end Sys2Proof.Machine
end

