-- ==== Sys2Proof/Machine/Ops.lean ====
section
/-! DEFINITION. The shared operations on the state: how a command ends (success or error), the writes to the control
registers and the enumerator, and what happens at the ports (accept, take, reset). -/

namespace Sys2Proof.Machine

/-- The outcome type of a step of the unit. -/
abbrev Outcome := Host.Outcome State Fault Refusal

/-! ## How a command ends -/

/-- The response of a command that succeeds: status 0 and its data; BUSY ends (20_memory.md R55, 10_state.md R37). -/
def State.respond (v : Word) (s : State) : State := { s with busy := false, rsp := some ⟨0, v⟩ }

/-- x[rd] <- v; rsp <- v (00_scope.md R9, 20_memory.md R55). -/
def State.succeed (rd : Reg) (v : Word) (s : State) : State := { s with regs := s.regs.set rd v }.respond v

/-- TAKING AN ERROR, the one exception of the unit: STATUS keeps the first error, the response carries the code and data
0, BUSY ends, and nothing else changes. No vector, handler or mode (60_exceptions.md R244, R245; 10_state.md R34). There is
no return beside it, since no error changes control flow: the host acknowledges errors by a STATUS write with bit 0 set
(R246), which is `State.clearError` through `State.writeStatus`. -/
def State.raise (e : ErrorCode) (s : State) : State :=
  { s.recordError e with busy := false, rsp := some ⟨e.number, 0⟩ }

/-- The end of a command that computes a value for rd or raises an error. -/
def State.finish (rd : Reg) (result : Except ErrorCode Word) (s : State) : Outcome :=
  match result with
  | .ok v => .next (s.succeed rd v)
  | .error e => .next (s.raise e)

/-! ## Control registers and the enumerator -/

/-- A CFG write: FAM <- v[0], ENUM_VALID <- 0, whether or not FAM changed (10_state.md R31). -/
def State.writeCfg (v : Word) (s : State) : State :=
  { s with fam := familyOfBit (v.getLsbD 0), enumValid := false }

/-- A control register write; 2 to 7 raise IllegalError (10_state.md R27, R31, R33). -/
def State.writeCsr (n : BitVec 3) (v : Word) (s : State) : Except ErrorCode State :=
  match n.toNat with
  | 0 => .ok (s.writeCfg v)
  | 1 => .ok (s.writeStatus v)
  | _ => .error .illegal

/-- The end of CSRW and CSRWI: on success the response data is 0 (20_memory.md R55). -/
def State.finishCsrWrite (n : BitVec 3) (v : Word) (s : State) : Outcome :=
  match s.writeCsr n v with
  | .ok t => .next (t.respond 0)
  | .error e => .next (s.raise e)

/-- What SUBCFG stores (45_subnet.md R210). -/
structure Enumeration where
  /-- ENUM_P. -/
  p : Nat
  /-- ENUM_T. -/
  t : Nat
  /-- ENUM_BASE. -/
  base : Word
deriving DecidableEq, Repr

/-- ENUM_BASE, ENUM_P and ENUM_T written, ENUM_VALID <- 1 (45_subnet.md R210). -/
def State.setEnumeration (e : Enumeration) (s : State) : State :=
  { s with enumValid := true, enumP := BitVec.ofNat 8 e.p, enumT := BitVec.ofNat 8 e.t, enumBase := e.base }

/-! ## The ports (10_state.md R40) -/

/-- cmd_ready: 1 exactly when not BUSY and no response is pending, and 0 while rst_n = 0 (10_state.md R40,
70_reset_and_hazards.md R270). -/
def State.cmdReady (rstN : Bool) (s : State) : Bool := rstN && !s.busy && s.rsp.isNone

/-- The output ports in a cycle with the given rst_n: while rst_n = 0, cmd_ready = 0 and rsp_valid = 0
(70_reset_and_hazards.md R270). -/
def State.outputs (rstN : Bool) (s : State) : PortOutputs where
  cmdReady := s.cmdReady rstN
  rspValid := rstN && s.rsp.isSome
  rsp := if rstN then s.rsp else none

/-- An edge at which the host does nothing: no reset, no command, no response taken (60_exceptions.md R253). -/
def PortSample.idle : PortSample where
  rstN := true
  cmdValid := false
  cmdWord := 0
  cmdData := 0
  rspReady := false
  wait := 0

/-- A command is accepted: cmd_word and cmd_data are sampled, BUSY <- 1 (10_state.md R37, R40). -/
def State.accept (p : PortSample) (s : State) : State :=
  { s with busy := true, cmdWord := p.cmdWord, cmdData := p.cmdData, wait := p.wait }

/-- The host takes the pending response, which it sees exactly once (10_state.md R37, R40). -/
def State.takeResponse (r : Response) (s : State) : State := { s with rsp := none, taken := s.taken ++ [r] }

/-- A reset edge: every element of the unit takes its reset value; a command in flight and a pending response are
discarded (70_reset_and_hazards.md R270). The host's own list and record are not the unit's (log entry 7). -/
def State.resetEdge (s : State) : State := { State.reset with inputs := s.inputs, taken := s.taken }

/-- The edge at which the host offers the command `w`: the unit is idle with no response pending, the next port sample
is the offer with the least latency, and cmd_data is the last sampled one (log entries 3, 15). -/
def State.offerNext (w : CommandWord) (s : State) : State :=
  { s with
    busy := false
    rsp := none
    inputs := { PortSample.idle with cmdValid := true, cmdWord := w, cmdData := s.cmdData } :: s.inputs }

end Sys2Proof.Machine
end

