-- ==== Sys2Proof/Machine/Codec.lean ====
section
/-! DEFINITION. Multi-block codec and block shift and rotate (42_codec.md R140 to R149). -/

namespace Sys2Proof.Machine

/-! ## Block codec (R141, R142) -/

/-- decodeBlock1: three packed decimal digits to a block in 0..255 (R141). -/
def decodeBlock1 (lane : BitVec 16) : Except ErrorCode Nat :=
  let d3 := (lane.extractLsb' 12 4).toNat
  let d2 := (lane.extractLsb' 8 4).toNat
  let d1 := (lane.extractLsb' 4 4).toNat
  let d0 := (lane.extractLsb' 0 4).toNat
  let b := 100 * d2 + 10 * d1 + d0
  if d3 ≠ 0 then .error .format
  else if d2 > 9 ∨ d1 > 9 ∨ d0 > 9 then .error .format
  else if b > 255 then .error .format
  else .ok b

/-- encodeBlock1: a block in 0..255 to three packed decimal digits (R141). -/
def encodeBlock1 (b : Nat) : BitVec 16 :=
  0#4 ++ BitVec.ofNat 4 (b / 100) ++ BitVec.ofNat 4 (b / 10 % 10) ++ BitVec.ofNat 4 (b % 10)

/-- decodeBlock2: four hexadecimal digits are the block's binary value (R142). -/
def decodeBlock2 (lane : BitVec 16) : Except ErrorCode Nat := .ok lane.toNat

/-- encodeBlock2 (R142). -/
def encodeBlock2 (b : Nat) : BitVec 16 := BitVec.ofNat 16 b

/-- decodeBlock of the active family. -/
def decodeBlock : Family → BitVec 16 → Except ErrorCode Nat
  | .family1 => decodeBlock1
  | .family2 => decodeBlock2

/-- encodeBlock of the active family. -/
def encodeBlock : Family → Nat → BitVec 16
  | .family1 => encodeBlock1
  | .family2 => encodeBlock2

/-- The first n rounds of B2V's loop: v <- (v << BB) OR b for blocks 0 to n-1 (R143). -/
def joinBlocks (f : Family) (lanes : Word) : Nat → Except ErrorCode Word
  | 0 => .ok 0#128
  | n + 1 => do
    let v ← joinBlocks f lanes n
    let b ← decodeBlock f (lane f n lanes)
    return v <<< blockBits f ||| BitVec.ofNat 128 b

/-- The first n rounds of V2B's loop: L <- (L << 16) OR encodeBlock(b) for blocks 0 to n-1 (R144). -/
def splitBlocks (f : Family) (v : Word) : Nat → Word
  | 0 => 0#128
  | n + 1 => splitBlocks f v n <<< 16 ||| (encodeBlock f (block f n v)).zeroExtend 128

/-- blocksToBits with B2V's checks of the block count and of stray lanes (R143). -/
def blocksToBits (f : Family) (nb : Nat) (lanes : Word) : Except ErrorCode Word :=
  if nb ≠ blockCount f then .error .format
  else if blockCount f = 4 ∧ lanes.extractLsb' 64 64 ≠ 0#64 then .error .format
  else joinBlocks f lanes (blockCount f)

/-- bitsToBlocks (R144). -/
def bitsToBlocks (f : Family) (v : Word) : Word := splitBlocks f v (blockCount f)

/-- B2V rd, rs1, nb (R143). -/
def execB2v (rd rs1 : Reg) (nb : BitVec 4) (s : State) : Outcome :=
  s.finish rd (blocksToBits s.fam nb.toNat (s.reg rs1))

/-- V2B rd, rs1 (R144). -/
def execV2b (rd rs1 : Reg) (s : State) : Outcome :=
  s.finish rd do
    let v ← s.vec rs1
    return bitsToBlocks s.fam v

/-! ## Block shift and rotate (R145 to R148) -/

/-- (v << k*BB) AND ones(M) (R145). -/
def blockShiftLeft (f : Family) (k : Nat) (v : Word) : Word := v <<< (k * blockBits f) &&& ones (maxBits f)

/-- v >> k*BB (R146). -/
def blockShiftRight (f : Family) (k : Nat) (v : Word) : Word := v >>> (k * blockBits f)

/-- The amount of a rotate in bits: (k mod NB) * BB (R147, R148). -/
def rotateBits (f : Family) (k : Nat) : Nat := k % blockCount f * blockBits f

/-- ((v << s) OR (v >> (M - s))) AND ones(M) (R147). -/
def blockRotateLeft (f : Family) (k : Nat) (v : Word) : Word :=
  (v <<< rotateBits f k ||| v >>> (maxBits f - rotateBits f k)) &&& ones (maxBits f)

/-- ((v >> s) OR (v << (M - s))) AND ones(M) (R148). -/
def blockRotateRight (f : Family) (k : Nat) (v : Word) : Word :=
  (v >>> rotateBits f k ||| v <<< (maxBits f - rotateBits f k)) &&& ones (maxBits f)

/-- BSHL rd, rs1, k (R145). -/
def execBshl (rd rs1 : Reg) (k : BitVec 4) (s : State) : Outcome :=
  s.finish rd do
    let v ← s.vec rs1
    return blockShiftLeft s.fam k.toNat v

/-- BSHR rd, rs1, k (R146). -/
def execBshr (rd rs1 : Reg) (k : BitVec 4) (s : State) : Outcome :=
  s.finish rd do
    let v ← s.vec rs1
    return blockShiftRight s.fam k.toNat v

/-- BROL rd, rs1, k (R147). -/
def execBrol (rd rs1 : Reg) (k : BitVec 4) (s : State) : Outcome :=
  s.finish rd do
    let v ← s.vec rs1
    return blockRotateLeft s.fam k.toNat v

/-- BROR rd, rs1, k (R148). -/
def execBror (rd rs1 : Reg) (k : BitVec 4) (s : State) : Outcome :=
  s.finish rd do
    let v ← s.vec rs1
    return blockRotateRight s.fam k.toNat v

end Sys2Proof.Machine
end

