-- ==== Sys2Proof/Machine/Control.lean ====
section
/-! DEFINITION. Control and data-movement commands (40_control.md R100 to R107). -/

namespace Sys2Proof.Machine

/-- NOP (R100). -/
def execNop (s : State) : Outcome := .next (s.respond 0)

/-- LDI rd, imm23: the immediate, zero-extended (R101). -/
def execLdi (rd : Reg) (imm23 : BitVec 23) (s : State) : Outcome := .next (s.succeed rd (imm23.zeroExtend 128))

/-- WR rd: the cmd_data sampled at acceptance, not checked (R102). -/
def execWr (rd : Reg) (s : State) : Outcome := .next (s.succeed rd s.cmdData)

/-- RD rs1: the register in the response, no state change (R103). -/
def execRd (rs1 : Reg) (s : State) : Outcome := .next (s.respond (s.reg rs1))

/-- MOV rd, rs1 (R104). -/
def execMov (rd rs1 : Reg) (s : State) : Outcome := .next (s.succeed rd (s.reg rs1))

/-- CSRR rd, csr (R105). -/
def execCsrr (rd : Reg) (csr : BitVec 3) (s : State) : Outcome := s.finish rd (s.readCsr csr)

/-- CSRW csr, rs1 (R106). -/
def execCsrw (csr : BitVec 3) (rs1 : Reg) (s : State) : Outcome := s.finishCsrWrite csr (s.reg rs1)

/-- CSRWI csr, imm11: as CSRW with the zero-extended immediate (R107). -/
def execCsrwi (csr : BitVec 3) (imm11 : BitVec 11) (s : State) : Outcome :=
  s.finishCsrWrite csr (imm11.zeroExtend 128)

end Sys2Proof.Machine
end

