-- ==== Sys2Proof/Machine/Mask.lean ====
section
/-! DEFINITION. Netmask and wildcard generator and netmask validator (41_mask.md R119 to R122). -/

namespace Sys2Proof.Machine

/-- MASK rd, rs1: p ones then M-p zeros (R120). -/
def execMask (rd rs1 : Reg) (s : State) : Outcome :=
  s.finish rd do
    let p ← s.pfx rs1
    return netmask s.fam p

/-- WILD rd, rs1: p zeros then M-p ones (R121). -/
def execWild (rd rs1 : Reg) (s : State) : Outcome :=
  s.finish rd do
    let p ← s.pfx rs1
    return wildcard s.fam p

/-- The netmask validator: the count of leading ones, when the vector is exactly that netmask (R122, conflict C1). -/
def netmaskPrefix (f : Family) (v : Word) : Except ErrorCode Nat :=
  if v = netmask f (clo f v) then .ok (clo f v) else .error .format

/-- M2P rd, rs1, family 1 only (R122). -/
def execM2p (rd rs1 : Reg) (s : State) : Outcome :=
  s.finish rd do
    s.familyOneOnly
    let v ← s.vec rs1
    let p ← netmaskPrefix s.fam v
    return BitVec.ofNat 128 p

end Sys2Proof.Machine
end

