-- ==== Sys2Proof/Machine/Network.lean ====
section
/-! DEFINITION. Network boundary calculator and containment comparator, family 1 only (44_network.md R180 to R189). -/

namespace Sys2Proof.Machine

/-- The network address of a at /p: all host bits cleared (R180). -/
def networkAddress (f : Family) (a : Word) (p : Nat) : Word := a &&& netmask f p

/-- The broadcast address of a at /p: all host bits set (R181). -/
def broadcastAddress (f : Family) (a : Word) (p : Nat) : Word := a ||| wildcard f p

/-- The family check, then rs1 as an address, then rs2 as a prefix, in that order (60_exceptions.md R242). -/
def State.addressAndPrefix (rs1 rs2 : Reg) (s : State) : Except ErrorCode (Word × Nat) := do
  s.familyOneOnly
  let a ← s.vec rs1
  let p ← s.pfx rs2
  return (a, p)

/-- NET rd, rs1, rs2 (R180). -/
def execNet (rd rs1 rs2 : Reg) (s : State) : Outcome :=
  s.finish rd do
    let (a, p) ← s.addressAndPrefix rs1 rs2
    return networkAddress s.fam a p

/-- BCAST rd, rs1, rs2 (R181). -/
def execBcast (rd rs1 rs2 : Reg) (s : State) : Outcome :=
  s.finish rd do
    let (a, p) ← s.addressAndPrefix rs1 rs2
    return broadcastAddress s.fam a p

/-- The network address plus 1, RangeError when that leaves the address space (R182). -/
def firstHost (f : Family) (a : Word) (p : Nat) : Except ErrorCode Word :=
  let r := (networkAddress f a p).toNat + 1
  if r > (ones (maxBits f)).toNat then .error .range else .ok (BitVec.ofNat 128 r)

/-- FIRST rd, rs1, rs2 (R182). -/
def execFirst (rd rs1 rs2 : Reg) (s : State) : Outcome :=
  s.finish rd do
    let (a, p) ← s.addressAndPrefix rs1 rs2
    firstHost s.fam a p

/-- The broadcast address minus 1, RangeError when it is 0 (R183). -/
def lastHost (f : Family) (a : Word) (p : Nat) : Except ErrorCode Word :=
  let bc := broadcastAddress f a p
  if bc = 0#128 then .error .range else .ok (bc - 1#128)

/-- LAST rd, rs1, rs2 (R183). -/
def execLast (rd rs1 rs2 : Reg) (s : State) : Outcome :=
  s.finish rd do
    let (a, p) ← s.addressAndPrefix rs1 rs2
    lastHost s.fam a p

/-- 2^(M-p) - 2 in 128-bit two's complement, not clamped at zero (R184). -/
def hostCount (f : Family) (p : Nat) : Word := BitVec.ofInt 128 (((2 ^ (maxBits f - p) : Nat) : Int) - 2)

/-- HCNT rd, rs2: reads only the prefix (R184). -/
def execHcnt (rd rs2 : Reg) (s : State) : Outcome :=
  s.finish rd do
    s.familyOneOnly
    let p ← s.pfx rs2
    return hostCount s.fam p

/-- a is the network address of its network at /p (R185, conflict C2). -/
def isNetwork (f : Family) (a : Word) (p : Nat) : Bool := a == networkAddress f a p

/-- a is the broadcast address of its network at /p (R186). -/
def isBroadcast (f : Family) (a : Word) (p : Nat) : Bool := a == broadcastAddress f a p

/-- ISNET rd, rs1, rs2 (R185). -/
def execIsnet (rd rs1 rs2 : Reg) (s : State) : Outcome :=
  s.finish rd do
    let (a, p) ← s.addressAndPrefix rs1 rs2
    return boolWord (isNetwork s.fam a p)

/-- ISBC rd, rs1, rs2 (R186). -/
def execIsbc (rd rs1 rs2 : Reg) (s : State) : Outcome :=
  s.finish rd do
    let (a, p) ← s.addressAndPrefix rs1 rs2
    return boolWord (isBroadcast s.fam a p)

/-- CONT rd, rs1, rs2, rs3: both addresses have the same network address at /p (R187). -/
def execCont (rd rs1 rs2 rs3 : Reg) (s : State) : Outcome :=
  s.finish rd do
    let (a, p) ← s.addressAndPrefix rs1 rs2
    let b ← s.vec rs3
    return boolWord (networkAddress s.fam a p == networkAddress s.fam b p)

/-- edge(v, c): v is the network or broadcast address at /c (R188). -/
def edge (f : Family) (v : Word) (c : Nat) : Bool := isNetwork f v c || isBroadcast f v c

/-- The hostsOnly back-off from the candidate prefix c: while c > 0 and either address is an edge at /c, c <- c - 1
(R188). -/
def backOff (f : Family) (a b : Word) : Nat → Nat
  | 0 => 0
  | c + 1 => if edge f a (c + 1) || edge f b (c + 1) then backOff f a b c else c + 1

/-- The smallest common network's prefix length, with or without hostsOnly (R188). -/
def commonPrefix (f : Family) (a b : Word) (hostsOnly : Bool) : Nat :=
  let c := clz f (a ^^^ b)
  if hostsOnly then backOff f a b c else c

/-- SCN rd, rs1, rs2, h (R188). -/
def execScn (rd rs1 rs2 : Reg) (h : Bool) (s : State) : Outcome :=
  s.finish rd do
    s.familyOneOnly
    let a ← s.vec rs1
    let b ← s.vec rs2
    return BitVec.ofNat 128 (commonPrefix s.fam a b h)

end Sys2Proof.Machine
end

