-- ==== Sys2Proof/Machine/Scan.lean ====
section
/-! DEFINITION. Bit-counting and leading-zero scanner (43_scan.md R160 to R162). -/

namespace Sys2Proof.Machine

/-- CLZ rd, rs1: count leading zeros (R160). -/
def execClz (rd rs1 : Reg) (s : State) : Outcome :=
  s.finish rd do
    let v ← s.vec rs1
    return BitVec.ofNat 128 (clz s.fam v)

/-- CLO rd, rs1: count leading ones (R161). -/
def execClo (rd rs1 : Reg) (s : State) : Outcome :=
  s.finish rd do
    let v ← s.vec rs1
    return BitVec.ofNat 128 (clo s.fam v)

/-- LCP rd, rs1, rs2: longest common prefix length (R162). -/
def execLcp (rd rs1 rs2 : Reg) (s : State) : Outcome :=
  s.finish rd do
    let a ← s.vec rs1
    let b ← s.vec rs2
    return BitVec.ofNat 128 (clz s.fam (a ^^^ b))

end Sys2Proof.Machine
end

