-- ==== Sys2Proof/Machine/Subnet.lean ====
section
/-! DEFINITION. Subnet boundary calculator, family 1 only (45_subnet.md R210 to R219). -/

namespace Sys2Proof.Machine

/-! ## Fixed-prefix enumeration -/

/-- SUBCFG's operands in the order rs1, rs2, rs3, then its own check target > base (R210). -/
def State.enumerationOf (rs1 rs2 rs3 : Reg) (s : State) : Except ErrorCode Enumeration := do
  let (a, p) ← s.addressAndPrefix rs1 rs2
  let t ← s.pfx rs3
  check (decide (p < t)) .range
  return ⟨p, t, networkAddress s.fam a p⟩

/-- SUBCFG rd, rs1, rs2, rs3: stores the configuration; the result is the element count 2^(t-p) (R210). -/
def execSubcfg (rd rs1 rs2 rs3 : Reg) (s : State) : Outcome :=
  match s.enumerationOf rs1 rs2 rs3 with
  | .ok e => .next ((s.setEnumeration e).succeed rd (BitVec.ofNat 128 (2 ^ (e.t - e.p))))
  | .error e => .next (s.raise e)

/-- The number of elements of the configured enumeration: 2^(ENUM_T - ENUM_P) (R210, R213). -/
def State.elementCount (s : State) : Nat := 2 ^ (s.enumT.toNat - s.enumP.toNat)

/-- elem(i) = ENUM_BASE + (i << (M - ENUM_T)) (R211, R213). -/
def State.element (s : State) (i : Word) : Word := s.enumBase + i <<< (maxBits s.fam - s.enumT.toNat)

/-- SUBN rd, rs1: element i of the sequence; the enumerator is not changed (R213). -/
def execSubn (rd rs1 : Reg) (s : State) : Outcome :=
  s.finish rd do
    s.familyOneOnly
    check s.enumValid .sequence
    check (decide ((s.reg rs1).toNat < s.elementCount)) .range
    return s.element (s.reg rs1)

/-! ## Budget-driven allocation -/

/-- netBits and hostBits. -/
structure BitBudget where
  /-- Bits for subnets. -/
  net : Nat
  /-- Bits for hosts. -/
  host : Nat
deriving DecidableEq, Repr

/-- Surplus distribution: to hosts, to subnets, or hosts floor(x/2) and subnets the rest (R217). -/
def BitBudget.addSurplus (b : BitBudget) (x : Nat) : Preference → BitBudget
  | .hosts => ⟨b.net, b.host + x⟩
  | .subnets => ⟨b.net + x, b.host⟩
  | .unset => ⟨b.net + (x - x / 2), b.host + x / 2⟩

/-- n - d when that leaves it > 0, else n (R218). -/
def shrink (n d : Nat) : Nat := if n > d then n - d else n

/-- Deficit reconciliation with both or neither count requested: the dimension not preferred shrinks, or hosts by
floor(d/2) and subnets by the rest, each only when that leaves it > 0 (R218). -/
def BitBudget.shrinkDeficit (b : BitBudget) (d : Nat) : Preference → BitBudget
  | .hosts => ⟨shrink b.net d, b.host⟩
  | .subnets => ⟨b.net, shrink b.host d⟩
  | .unset => ⟨shrink b.net (d - d / 2), shrink b.host (d / 2)⟩

/-- The reconciled budget. `single`: exactly one count was requested, and then nothing shrinks (R216, R218, conflict
C4). -/
def BitBudget.reconcile (b : BitBudget) (avail : Nat) (single : Bool) (pref : Preference) :
    Except ErrorCode BitBudget :=
  let req := b.net + b.host
  if req < avail then .ok (b.addSurplus (avail - req) pref)
  else if req > avail then
    let r := if single then b else b.shrinkDeficit (req - avail) pref
    if r.net + r.host > avail then .error .range else .ok r
  else .ok b

/-- netBits of the request: clog2 of the subnet count, 1 if none is given; a count of 0 raises RangeError (R214,
R216). -/
def requestedNetBits : Option Nat → Except ErrorCode Nat
  | none => .ok 1
  | some n => if n = 0 then .error .range else .ok (clog2 n)

/-- hostBits of the request: clog2(count + 2), 1 if none is given (R214, R216). -/
def requestedHostBits : Option Nat → Nat
  | none => 1
  | some n => clog2 (n + 2)

/-- The preference in force: PREF, unless exactly one count is given; then the one not requested is favoured (R215,
conflict C7). -/
def preferenceInForce (subnets hosts : Bool) (pref : Preference) : Preference :=
  match subnets, hosts with
  | true, false => .hosts
  | false, true => .subnets
  | _, _ => pref

/-- The target prefix of BUDG from the base prefix and the optional counts (R216, R219). -/
def budgetTarget (f : Family) (p : Nat) (subnets hosts : Option Nat) (pref : Preference) : Except ErrorCode Nat := do
  let nbits ← requestedNetBits subnets
  let b ← BitBudget.reconcile ⟨nbits, requestedHostBits hosts⟩ (maxBits f - p) (subnets.isSome ^^ hosts.isSome)
    (preferenceInForce subnets.isSome hosts.isSome pref)
  check (decide (0 < b.net)) .range
  return p + b.net

/-- A count register, read only when its flag is 1 (R216). -/
def State.optionalCount (s : State) (given : Bool) (r : Reg) : Option Nat :=
  if given then some (s.reg r).toNat else none

/-- BUDG rd, rs1, rs2, rs3, S, H, PREF: PREF = 3 first, then the family check, then the operands (R216; 60_exceptions.md
R242). A decoded command never has PREF = 3 (log entry 9). -/
def execBudg (rd rs1 rs2 rs3 : Reg) (subnets hosts : Bool) (pref : BitVec 2) (s : State) : Outcome :=
  s.finish rd do
    let preference ← preferenceOf pref
    s.familyOneOnly
    let p ← s.pfx rs1
    let t ← budgetTarget s.fam p (s.optionalCount subnets rs2) (s.optionalCount hosts rs3) preference
    return BitVec.ofNat 128 t

end Sys2Proof.Machine
end

