-- ==== Sys2Proof/Machine/Dispatch.lean ====
section
/-! DEFINITION. exec: one arm for each command of the opcode map (30_encoding.md R75), each a call of its meaning. -/

namespace Sys2Proof.Machine

/-- The effect of a command on the state that has accepted it (20_memory.md R53). -/
def exec (i : Instr) (s : State) : Host.Outcome State Fault Refusal :=
  match i with
  | .nop => Sys2Proof.Machine.execNop s
  | .ldi rd imm23 => Sys2Proof.Machine.execLdi rd imm23 s
  | .wr rd => Sys2Proof.Machine.execWr rd s
  | .rd rs1 => Sys2Proof.Machine.execRd rs1 s
  | .mov rd rs1 => Sys2Proof.Machine.execMov rd rs1 s
  | .csrr rd csr => Sys2Proof.Machine.execCsrr rd csr s
  | .csrw csr rs1 => Sys2Proof.Machine.execCsrw csr rs1 s
  | .csrwi csr imm11 => Sys2Proof.Machine.execCsrwi csr imm11 s
  | .mask rd rs1 => Sys2Proof.Machine.execMask rd rs1 s
  | .wild rd rs1 => Sys2Proof.Machine.execWild rd rs1 s
  | .m2p rd rs1 => Sys2Proof.Machine.execM2p rd rs1 s
  | .b2v rd rs1 nb => Sys2Proof.Machine.execB2v rd rs1 nb s
  | .v2b rd rs1 => Sys2Proof.Machine.execV2b rd rs1 s
  | .bshl rd rs1 k => Sys2Proof.Machine.execBshl rd rs1 k s
  | .bshr rd rs1 k => Sys2Proof.Machine.execBshr rd rs1 k s
  | .brol rd rs1 k => Sys2Proof.Machine.execBrol rd rs1 k s
  | .bror rd rs1 k => Sys2Proof.Machine.execBror rd rs1 k s
  | .clz rd rs1 => Sys2Proof.Machine.execClz rd rs1 s
  | .clo rd rs1 => Sys2Proof.Machine.execClo rd rs1 s
  | .lcp rd rs1 rs2 => Sys2Proof.Machine.execLcp rd rs1 rs2 s
  | .net rd rs1 rs2 => Sys2Proof.Machine.execNet rd rs1 rs2 s
  | .bcast rd rs1 rs2 => Sys2Proof.Machine.execBcast rd rs1 rs2 s
  | .first rd rs1 rs2 => Sys2Proof.Machine.execFirst rd rs1 rs2 s
  | .last rd rs1 rs2 => Sys2Proof.Machine.execLast rd rs1 rs2 s
  | .hcnt rd rs2 => Sys2Proof.Machine.execHcnt rd rs2 s
  | .isnet rd rs1 rs2 => Sys2Proof.Machine.execIsnet rd rs1 rs2 s
  | .isbc rd rs1 rs2 => Sys2Proof.Machine.execIsbc rd rs1 rs2 s
  | .cont rd rs1 rs2 rs3 => Sys2Proof.Machine.execCont rd rs1 rs2 rs3 s
  | .scn rd rs1 rs2 h => Sys2Proof.Machine.execScn rd rs1 rs2 h s
  | .subcfg rd rs1 rs2 rs3 => Sys2Proof.Machine.execSubcfg rd rs1 rs2 rs3 s
  | .subn rd rs1 => Sys2Proof.Machine.execSubn rd rs1 s
  | .budg rd rs1 rs2 rs3 subnets hosts pref => Sys2Proof.Machine.execBudg rd rs1 rs2 rs3 subnets hosts pref s

end Sys2Proof.Machine
end

