-- ==== Sys2Proof/Machine/Edge.lean ====
section
/-! DEFINITION. What one rising edge of clk does to the unit (10_state.md R40, 70_reset_and_hazards.md R270 to R277), and
the atomic command of 20_memory.md R53 that it carries out. -/

namespace Sys2Proof.Machine

/-- The accepted command executes: decoding, then its meaning; an illegal word raises IllegalError (20_memory.md R53,
30_encoding.md R76, R77). -/
def runCommand (s : State) : Outcome :=
  match decode s.cmdWord with
  | .ok i => exec i s
  | .error _ => .next (s.raise .illegal)

/-- One edge of a busy unit: the command executes when its latency has run out (70_reset_and_hazards.md R276, R277). -/
def advance (s : State) : Outcome :=
  match s.wait with
  | 0 => runCommand s
  | n + 1 => .next { s with wait := n }

/-- One rising edge with the ports as sampled. Reset wins over everything (70_reset_and_hazards.md R270). A pending
response waits for rsp_ready, and cmd_ready is 0 meanwhile; a busy unit goes on; an idle one accepts an offered command
(10_state.md R37, R40). No reachable state is busy with a response pending (log entry 14). -/
def risingEdge (p : PortSample) (s : State) : Outcome :=
  if p.rstN then
    match s.rsp with
    | some r => .next (if p.rspReady then s.takeResponse r else s)
    | none =>
      if s.busy then advance s
      else if p.cmdValid then advance (s.accept p)
      else .next s
  else .next s.resetEdge

/-- The edge sampled next: the first of the host's list, or an idle edge when the list has ended (log entry 2). -/
def nextEdge (s : State) : Outcome :=
  match s.inputs with
  | [] => risingEdge .idle s
  | p :: rest => risingEdge p { s with inputs := rest }

end Sys2Proof.Machine
end

