-- ==== Sys2Proof/Machine/Step.lean ====
section
/-! DEFINITION. The step: one rising edge of clk (10_state.md R40). -/

namespace Sys2Proof.Machine

/-- One step of the machine. -/
def step (s : State) : Host.Outcome State Fault Refusal := nextEdge s

/-- `s` with the command of `nbits` bits `w` (numbered as spec/opcode_table.json numbers them) placed where the step
takes its next command from: the host's next port sample (log entry 3). -/
def State.withFetchWord (s : State) (nbits w : Nat) : State := s.offerNext (BitVec.ofNat 32 (w % 2 ^ nbits))

end Sys2Proof.Machine
end

