-- ==== Sys2Proof/Machine/Assembly.lean ====
section
/-! DEFINITION. The assembler's spelling of a command (30_encoding.md R80) and its pseudo-instructions (R81). The step does
not use this file: a unit is given command words. -/

namespace Sys2Proof.Machine

/-- `r0` to `r7` (R80). -/
def regName (r : Reg) : String := "r" ++ toString r.val

/-- `cfg`, `status`, `params`, `enumcfg`, `enumbase`, or the number (R80). -/
def csrName (csr : BitVec 3) : String :=
  match csr.toNat with
  | 0 => "cfg"
  | 1 => "status"
  | 2 => "params"
  | 3 => "enumcfg"
  | 4 => "enumbase"
  | n => toString n

/-- A one-bit operand, 0 or 1 (R80). -/
def bitText (b : Bool) : String := if b then "1" else "0"

/-- A lower-case mnemonic, then operands separated by commas (R80). -/
def line (mnemonic : String) (operands : List String) : String :=
  if operands.isEmpty then mnemonic else mnemonic ++ " " ++ ", ".intercalate operands

/-- A command in assembler text, immediates in decimal (R80). -/
def assembly : Instr → String
  | .nop => line "nop" []
  | .ldi rd imm23 => line "ldi" [regName rd, toString imm23.toNat]
  | .wr rd => line "wr" [regName rd]
  | .rd rs1 => line "rd" [regName rs1]
  | .mov rd rs1 => line "mov" [regName rd, regName rs1]
  | .csrr rd csr => line "csrr" [regName rd, csrName csr]
  | .csrw csr rs1 => line "csrw" [csrName csr, regName rs1]
  | .csrwi csr imm11 => line "csrwi" [csrName csr, toString imm11.toNat]
  | .mask rd rs1 => line "mask" [regName rd, regName rs1]
  | .wild rd rs1 => line "wild" [regName rd, regName rs1]
  | .m2p rd rs1 => line "m2p" [regName rd, regName rs1]
  | .b2v rd rs1 nb => line "b2v" [regName rd, regName rs1, toString nb.toNat]
  | .v2b rd rs1 => line "v2b" [regName rd, regName rs1]
  | .bshl rd rs1 k => line "bshl" [regName rd, regName rs1, toString k.toNat]
  | .bshr rd rs1 k => line "bshr" [regName rd, regName rs1, toString k.toNat]
  | .brol rd rs1 k => line "brol" [regName rd, regName rs1, toString k.toNat]
  | .bror rd rs1 k => line "bror" [regName rd, regName rs1, toString k.toNat]
  | .clz rd rs1 => line "clz" [regName rd, regName rs1]
  | .clo rd rs1 => line "clo" [regName rd, regName rs1]
  | .lcp rd rs1 rs2 => line "lcp" [regName rd, regName rs1, regName rs2]
  | .net rd rs1 rs2 => line "net" [regName rd, regName rs1, regName rs2]
  | .bcast rd rs1 rs2 => line "bcast" [regName rd, regName rs1, regName rs2]
  | .first rd rs1 rs2 => line "first" [regName rd, regName rs1, regName rs2]
  | .last rd rs1 rs2 => line "last" [regName rd, regName rs1, regName rs2]
  | .hcnt rd rs2 => line "hcnt" [regName rd, regName rs2]
  | .isnet rd rs1 rs2 => line "isnet" [regName rd, regName rs1, regName rs2]
  | .isbc rd rs1 rs2 => line "isbc" [regName rd, regName rs1, regName rs2]
  | .cont rd rs1 rs2 rs3 => line "cont" [regName rd, regName rs1, regName rs2, regName rs3]
  | .scn rd rs1 rs2 h => line "scn" [regName rd, regName rs1, regName rs2, bitText h]
  | .subcfg rd rs1 rs2 rs3 => line "subcfg" [regName rd, regName rs1, regName rs2, regName rs3]
  | .subn rd rs1 => line "subn" [regName rd, regName rs1]
  | .budg rd rs1 rs2 rs3 subnets hosts pref =>
    line "budg" [regName rd, regName rs1, regName rs2, regName rs3, bitText subnets, bitText hosts,
      toString pref.toNat]

/-- The pseudo-instructions of R81. -/
inductive Pseudo where
  /-- clr rd. -/
  | clr (rd : Reg)
  /-- li rd, n with 0 <= n < 2^23. -/
  | li (rd : Reg) (n : BitVec 23)
  /-- setfam1. -/
  | setfam1
  /-- setfam2. -/
  | setfam2
  /-- clrerr. -/
  | clrerr
  /-- rdstat rd. -/
  | rdstat (rd : Reg)
  /-- scnh rd, rs1, rs2. -/
  | scnh (rd rs1 rs2 : Reg)
  /-- lcpn rd, rs1, rs2. -/
  | lcpn (rd rs1 rs2 : Reg)
deriving DecidableEq, Repr

/-- The one command a pseudo-instruction stands for (R81). -/
def expand : Pseudo → Instr
  | .clr rd => .ldi rd 0
  | .li rd n => .ldi rd n
  | .setfam1 => .csrwi 0 0
  | .setfam2 => .csrwi 0 1
  | .clrerr => .csrwi 1 1
  | .rdstat rd => .csrr rd 1
  | .scnh rd rs1 rs2 => .scn rd rs1 rs2 true
  | .lcpn rd rs1 rs2 => .scn rd rs1 rs2 false

end Sys2Proof.Machine
end

