-- ==== Sys2Proof/Safety.lean ====
section
/-! DEFINITION. The terms the claims use: what a command may change, the two ways a command ends, the invariant of the
unit, the opcode map as data, and scripts of port samples. -/

namespace Sys2Proof.Safety

open Sys2Proof.Machine

/-! ## Frames -/

/-- The host's side and the sampled command are as before. -/
structure SamePorts (s t : State) : Prop where
  cmdWord : t.cmdWord = s.cmdWord
  cmdData : t.cmdData = s.cmdData
  wait : t.wait = s.wait
  inputs : t.inputs = s.inputs
  taken : t.taken = s.taken

/-- STATUS.ERR, CODE and EOP are as before. -/
structure SameRecord (s t : State) : Prop where
  err : t.err = s.err
  code : t.code = s.code
  eop : t.eop = s.eop

/-- The four enumerator elements are as before. -/
structure SameEnumerator (s t : State) : Prop where
  enumValid : t.enumValid = s.enumValid
  enumP : t.enumP = s.enumP
  enumT : t.enumT = s.enumT
  enumBase : t.enumBase = s.enumBase

/-- Every general register is as before. -/
def SameRegs (s t : State) : Prop := ∀ r, t.reg r = s.reg r

/-- The response is pending and BUSY has ended (10_state.md R37). -/
structure Answers (status : BitVec 4) (data : Word) (t : State) : Prop where
  busy : t.busy = false
  rsp : t.rsp = some ⟨status, data⟩

/-- The command succeeded, wrote v to rd and changed nothing else (20_memory.md R55). -/
structure WritesOnly (rd : Reg) (v : Word) (s t : State) : Prop where
  result : t.reg rd = v
  others : ∀ r, r ≠ rd → t.reg r = s.reg r
  fam : t.fam = s.fam
  record : SameRecord s t
  enumerator : SameEnumerator s t
  ports : SamePorts s t
  answer : Answers 0 v t

/-- The command succeeded with response data v and changed no register, CSR or enumerator element. -/
structure AnswersOnly (v : Word) (s t : State) : Prop where
  regs : SameRegs s t
  fam : t.fam = s.fam
  record : SameRecord s t
  enumerator : SameEnumerator s t
  ports : SamePorts s t
  answer : Answers 0 v t

/-- The command raised error e: STATUS keeps the first error, the response carries the code and data 0, and nothing else
changes (10_state.md R34, 60_exceptions.md R244, R245). -/
structure Raised (e : ErrorCode) (s t : State) : Prop where
  regs : SameRegs s t
  fam : t.fam = s.fam
  enumerator : SameEnumerator s t
  ports : SamePorts s t
  err : t.err = true
  firstCode : s.err = false → t.code = e.number
  firstEop : s.err = false → t.eop = s.cmdWord.extractLsb' 26 6
  keptCode : s.err = true → t.code = s.code
  keptEop : s.err = true → t.eop = s.eop
  answer : Answers e.number 0 t

/-- A successful CFG write of v: FAM is v's bit 0, ENUM_VALID is 0, and nothing else changes (10_state.md R31, R35). -/
structure CfgWritten (v : Word) (s t : State) : Prop where
  fam : t.fam = if v.getLsbD 0 then .family2 else .family1
  enumValid : t.enumValid = false
  enumP : t.enumP = s.enumP
  enumT : t.enumT = s.enumT
  enumBase : t.enumBase = s.enumBase
  regs : SameRegs s t
  record : SameRecord s t
  ports : SamePorts s t
  answer : Answers 0 0 t

/-- A successful STATUS write of v: bit 0 set clears ERR, CODE and EOP, and nothing else changes (10_state.md R33). -/
structure StatusWritten (v : Word) (s t : State) : Prop where
  cleared : v.getLsbD 0 = true → t.err = false ∧ t.code = 0 ∧ t.eop = 0
  ignored : v.getLsbD 0 = false → SameRecord s t
  regs : SameRegs s t
  fam : t.fam = s.fam
  enumerator : SameEnumerator s t
  ports : SamePorts s t
  answer : Answers 0 0 t

/-- SUBCFG stored (base, p, t), wrote the count to rd, and changed nothing else (45_subnet.md R210). -/
structure Configured (rd : Reg) (base p t count : Nat) (s u : State) : Prop where
  enumValid : u.enumValid = true
  enumP : u.enumP.toNat = p
  enumT : u.enumT.toNat = t
  enumBase : u.enumBase.toNat = base
  result : (u.reg rd).toNat = count
  others : ∀ r, r ≠ rd → u.reg r = s.reg r
  fam : u.fam = s.fam
  record : SameRecord s u
  ports : SamePorts s u
  answer : Answers 0 (u.reg rd) u

/-- The command i, executed in s, succeeds with v in rd and changes nothing else. -/
def Yields (i : Instr) (s : State) (rd : Reg) (v : Word) : Prop := ∃ t, exec i s = .next t ∧ WritesOnly rd v s t

/-- The command i, executed in s, raises e. -/
def Raises (i : Instr) (s : State) (e : ErrorCode) : Prop := ∃ t, exec i s = .next t ∧ Raised e s t

/-! ## Facts about commands -/

/-- The destination register of a command, if it has one (30_encoding.md R73, R75). -/
def destination : Instr → Option Reg
  | .nop => none
  | .rd _ => none
  | .csrw _ _ => none
  | .csrwi _ _ => none
  | .ldi rd _ => some rd
  | .wr rd => some rd
  | .mov rd _ => some rd
  | .csrr rd _ => some rd
  | .mask rd _ => some rd
  | .wild rd _ => some rd
  | .m2p rd _ => some rd
  | .b2v rd _ _ => some rd
  | .v2b rd _ => some rd
  | .bshl rd _ _ => some rd
  | .bshr rd _ _ => some rd
  | .brol rd _ _ => some rd
  | .bror rd _ _ => some rd
  | .clz rd _ => some rd
  | .clo rd _ => some rd
  | .lcp rd _ _ => some rd
  | .net rd _ _ => some rd
  | .bcast rd _ _ => some rd
  | .first rd _ _ => some rd
  | .last rd _ _ => some rd
  | .hcnt rd _ => some rd
  | .isnet rd _ _ => some rd
  | .isbc rd _ _ => some rd
  | .cont rd _ _ _ => some rd
  | .scn rd _ _ _ => some rd
  | .subcfg rd _ _ _ => some rd
  | .subn rd _ => some rd
  | .budg rd _ _ _ _ _ _ => some rd

/-- The commands marked "1 only" in 30_encoding.md R88. -/
def familyOneOnlyCommand : Instr → Bool
  | .m2p _ _ => true
  | .net _ _ _ => true
  | .bcast _ _ _ => true
  | .first _ _ _ => true
  | .last _ _ _ => true
  | .hcnt _ _ => true
  | .isnet _ _ _ => true
  | .isbc _ _ _ => true
  | .cont _ _ _ _ => true
  | .scn _ _ _ _ => true
  | .subcfg _ _ _ _ => true
  | .subn _ _ => true
  | .budg _ _ _ _ _ _ _ => true
  | _ => false

/-- A control register write and the value it writes: CSRW, CSRWI (40_control.md R106, R107). -/
def csrWriteOf (s : State) : Instr → Option (BitVec 3 × Word)
  | .csrw csr rs1 => some (csr, s.reg rs1)
  | .csrwi csr imm11 => some (csr, imm11.zeroExtend 128)
  | _ => none

/-- The opcode map of 30_encoding.md R75: the mask and the match of each row, in the order of its table. -/
def opcodeMap : List (CommandWord × CommandWord) :=
  [(0xFFFFFFFF#32, 0x00000000#32), (0xFC000000#32, 0x04000000#32), (0xFC7FFFFF#32, 0x08000000#32),
   (0xFF8FFFFF#32, 0x0C000000#32), (0xFC0FFFFF#32, 0x10000000#32), (0xFC7FFFF8#32, 0x14000000#32),
   (0xFF8FFFF8#32, 0x18000000#32), (0xFFFFC000#32, 0x1C000000#32), (0xFC0FFFFF#32, 0x20000000#32),
   (0xFC0FFFFF#32, 0x24000000#32), (0xFC0FFFFF#32, 0x28000000#32)] ++
  [(0xFC0FFFF0#32, 0x40000000#32), (0xFC0FFFFF#32, 0x44000000#32), (0xFC0FFFF0#32, 0x48000000#32),
   (0xFC0FFFF0#32, 0x4C000000#32), (0xFC0FFFF0#32, 0x50000000#32), (0xFC0FFFF0#32, 0x54000000#32),
   (0xFC0FFFFF#32, 0x60000000#32), (0xFC0FFFFF#32, 0x64000000#32), (0xFC01FFFF#32, 0x68000000#32)] ++
  [(0xFC01FFFF#32, 0x80000000#32), (0xFC01FFFF#32, 0x84000000#32), (0xFC01FFFF#32, 0x88000000#32),
   (0xFC01FFFF#32, 0x8C000000#32), (0xFC71FFFF#32, 0x90000000#32), (0xFC01FFFF#32, 0x94000000#32),
   (0xFC01FFFF#32, 0x98000000#32), (0xFC003FFF#32, 0x9C000000#32), (0xFC01FFFE#32, 0xA0000000#32)] ++
  [(0xFC003FFF#32, 0xC0000000#32), (0xFC0FFFFF#32, 0xC4000000#32), (0xFC003FF0#32, 0xC8000000#32)]

/-! ## Values -/

/-- Register r holds the prefix length p (00_scope.md R11). -/
def HoldsPrefix (s : State) (r : Reg) (p : Nat) : Prop := p ≤ maxBits s.fam ∧ (s.reg r).toNat = p

/-- Register r holds an M-bit vector of the active family with value a (00_scope.md R8, R12). -/
def HoldsVector (s : State) (r : Reg) (a : Nat) : Prop := a < 2 ^ maxBits s.fam ∧ (s.reg r).toNat = a

/-- The network address of a at /p: the host bits cleared (44_network.md R180). -/
def networkOf (a p : Nat) : Nat := a / 2 ^ (32 - p) * 2 ^ (32 - p)

/-- The broadcast address of a at /p: the host bits set (44_network.md R181). -/
def broadcastOf (a p : Nat) : Nat := networkOf a p + (2 ^ (32 - p) - 1)

/-- The lane of a decimal block: hundreds, tens and units in a nibble each (42_codec.md R141). -/
def decimalLane (b : Nat) : Nat := b / 100 * 256 + b / 10 % 10 * 16 + b % 10

/-- Four decimal blocks as a lane vector, the first block most significant (42_codec.md R140). -/
def decimalLanes (a b c d : Nat) : Nat :=
  decimalLane a * 2 ^ 48 + decimalLane b * 2 ^ 32 + decimalLane c * 2 ^ 16 + decimalLane d

/-- Register r, read as a signed integer, is no prefix length (00_scope.md R11). -/
def BadPrefix (s : State) (r : Reg) : Prop := (s.reg r).toInt < 0 ∨ (maxBits s.fam : Int) < (s.reg r).toInt

/-- Register r holds no M-bit vector: a bit above M-1 is set (00_scope.md R12). -/
def BadVector (s : State) (r : Reg) : Prop := 2 ^ maxBits s.fam ≤ (s.reg r).toNat

/-- The number of leading places at which two bit strings agree. -/
def agreement (x y : List Bool) : Nat := ((x.zip y).takeWhile fun c => c.1 == c.2).length

/-! ## The invariant of the unit -/

/-- A status the unit answers with: success or a code it produces, never 3 nor 7 to 15 (60_exceptions.md R240). -/
def legalStatus (c : BitVec 4) : Bool := c == 0 || c == 1 || c == 2 || c == 4 || c == 5 || c == 6

/-- A response of the unit: a legal status, and data 0 on an error (20_memory.md R55). -/
def legalResponse (r : Response) : Bool := legalStatus r.status && (r.status == 0 || r.data == 0)

/-- The enumerator holds its reset contents or a configuration that SUBCFG accepts (10_state.md R35, 45_subnet.md
R210). -/
def EnumeratorSound (s : State) : Prop :=
  (s.enumValid = false ∧ s.enumP = 0 ∧ s.enumT = 0 ∧ s.enumBase = 0) ∨
  (s.enumP.toNat < s.enumT.toNat ∧ s.enumT.toNat ≤ 32 ∧ s.enumBase.toNat < 2 ^ 32 ∧
    2 ^ (32 - s.enumP.toNat) ∣ s.enumBase.toNat)

/-- What holds of every state of a run. -/
structure Inv (s : State) : Prop where
  /-- CODE and EOP are 0 while ERR = 0 (10_state.md R32). -/
  recordClear : s.err = false → s.code = 0 ∧ s.eop = 0
  /-- A recorded code is one of 1, 2, 4, 5, 6 (60_exceptions.md R240). -/
  recordLegal : s.err = true → legalStatus s.code = true ∧ s.code ≠ 0
  /-- A valid enumeration was configured in family 1 (10_state.md R31, R35). -/
  enumFamily : s.enumValid = true → s.fam = .family1
  enumerator : EnumeratorSound s
  /-- BUSY and a pending response exclude each other (10_state.md R37). -/
  handshake : s.busy = true → s.rsp = none
  /-- Nothing waits while the unit is not BUSY. -/
  idleWait : s.busy = false → s.wait = 0
  pendingLegal : ∀ r, s.rsp = some r → legalResponse r = true
  /-- While an error's response is pending, STATUS.ERR is set (10_state.md R25). -/
  pendingRecorded : ∀ r, s.rsp = some r → r.status ≠ 0 → s.err = true
  takenLegal : ∀ r ∈ s.taken, legalResponse r = true

/-! ## Scripts -/

/-- The edge sampled next is no reset edge. -/
def NoResetNext (s : State) : Prop := ∀ p, s.inputs.head? = some p → p.rstN = true

/-- A command as the host issues it, with the latency the implementation happens to give it. -/
structure Issue where
  word : CommandWord
  data : Word
  wait : Nat
deriving DecidableEq, Repr

/-- The port samples of one command: the offer, as many idle edges as its latency needs, and the taking. -/
def Issue.samples (c : Issue) : List PortSample :=
  [{ PortSample.idle with cmdValid := true, cmdWord := c.word, cmdData := c.data, wait := c.wait }]
    ++ List.replicate c.wait PortSample.idle ++ [{ PortSample.idle with rspReady := true }]

/-- The number of edges of one command. -/
def Issue.edges (c : Issue) : Nat := c.wait + 2

/-- The architectural state: what a run's result is, the responses apart (70_reset_and_hazards.md R278). -/
structure Arch where
  regs : Vector Word 8
  fam : Family
  err : Bool
  code : BitVec 4
  eop : BitVec 6
  enumValid : Bool
  enumP : BitVec 8
  enumT : BitVec 8
  enumBase : Word
deriving DecidableEq, Repr

/-- The architectural part of a state. -/
def arch (s : State) : Arch :=
  ⟨s.regs, s.fam, s.err, s.code, s.eop, s.enumValid, s.enumP, s.enumT, s.enumBase⟩

/-- A state of the unit with the given architectural part, a command just accepted and the host's side empty. -/
def accepted (a : Arch) (word : CommandWord) (data : Word) : State :=
  { State.reset with
    regs := a.regs, fam := a.fam, err := a.err, code := a.code, eop := a.eop, enumValid := a.enumValid
    enumP := a.enumP, enumT := a.enumT, enumBase := a.enumBase, busy := true, cmdWord := word, cmdData := data }

/-- The atomic step of 20_memory.md R53: (state, cmd_word, cmd_data) to (state', response). Illegal words raise
IllegalError (30_encoding.md R76). -/
def atomicStep (a : Arch) (word : CommandWord) (data : Word) : Arch × Response :=
  match runCommand (accepted a word data) with
  | .next t => (arch t, t.rsp.getD ⟨0, 0⟩)
  | .fault _ => (a, ⟨0, 0⟩)
  | .refused _ => (a, ⟨0, 0⟩)

/-- The n-fold application of the atomic step to a sequence of commands, with the responses in order (20_memory.md
R56). -/
def atomicRun (a : Arch) : List Issue → Arch × List Response
  | [] => (a, [])
  | c :: rest =>
    let (a', r) := atomicStep a c.word c.data
    let (a'', rs) := atomicRun a' rest
    (a'', r :: rs)

end Sys2Proof.Safety
end

