-- ==== Sys2Proof/Certificates/Slice0/Obligations.lean ====
section
/-! DEFINITION. The statements for the provers, from the numbered rules of spec/. Where a statement speaks of the model's
own fields `wait`, `inputs` and `taken`, these are log entries 1, 2 and 7. -/

open Sys2Proof Sys2Proof.Machine Sys2Proof.Safety

/-! ## Reset -/

/-- 10_state.md R41 and the reset column of R26: every element after reset, and the control registers as read then. -/
def Obligations.ResetClearsEveryElement : Prop :=
  (∀ r, State.reset.reg r = 0) ∧ State.reset.fam = .family1 ∧
  State.reset.err = false ∧ State.reset.code = 0 ∧ State.reset.eop = 0 ∧
  State.reset.enumValid = false ∧ State.reset.enumP = 0 ∧ State.reset.enumT = 0 ∧ State.reset.enumBase = 0 ∧
  State.reset.busy = false ∧ State.reset.rsp = none ∧
  State.reset.outputs true = ⟨true, false, none⟩ ∧
  State.reset.readCsr 0 = .ok 0 ∧ State.reset.readCsr 1 = .ok 0 ∧ State.reset.readCsr 2 = .ok 0x40820 ∧
  State.reset.readCsr 3 = .ok 0 ∧ State.reset.readCsr 4 = .ok 0

/-- 70_reset_and_hazards.md R270: an edge with rst_n = 0 resets every element of the unit, whatever else happens; a
command in flight is not executed, a pending response is not taken, and the outputs are 0 while rst_n = 0. That the
host's own record `taken` survives is the model's choice (log entry 7). -/
def Obligations.ResetEdgeDiscardsEverything : Prop :=
  ∀ (s : State) (p : PortSample) (rest : List PortSample), s.inputs = p :: rest → p.rstN = false →
    (∃ t, step s = .next t ∧ arch t = arch State.reset ∧ t.busy = false ∧ t.rsp = none ∧
      t.inputs = rest ∧ t.taken = s.taken) ∧
    (s.outputs false).cmdReady = false ∧ (s.outputs false).rspValid = false

/-! ## One step and the ports -/

/-- A step that completes a command is exec of the decoded command, in one atomic transition (20_memory.md R53) after the
acceptance of 10_state.md R40. (a) Offered to an idle unit with the least latency: that its accepting edge already completes
it is the model's (log entry 6). (b) In flight with its latency run out: the count is the model's (log entry 1), and so is
that the effects come at this edge (log entry 5). (c) Placed by withFetchWord, which is the model's own and no rule's: the
host's next offer (log entry 3), for which BUSY and a pending response are dropped and the sampled cmd_data is kept (log
entry 15). -/
def Obligations.StepExecutesTheDecodedCommand : Prop :=
  (∀ (s : State) (p : PortSample) (rest : List PortSample) (i : Instr),
    s.inputs = p :: rest → p.rstN = true → p.cmdValid = true → p.wait = 0 → s.busy = false → s.rsp = none →
    decode p.cmdWord = .ok i →
    step s = exec i
      { s with inputs := rest, busy := true, cmdWord := p.cmdWord, cmdData := p.cmdData, wait := 0 }) ∧
  (∀ (s : State) (i : Instr),
    NoResetNext s → s.busy = true → s.rsp = none → s.wait = 0 → decode s.cmdWord = .ok i →
    step s = exec i { s with inputs := s.inputs.tail }) ∧
  (∀ (s : State) (w : CommandWord) (i : Instr), decode w = .ok i →
    step (s.withFetchWord 32 w.toNat) = exec i { s with busy := true, rsp := none, cmdWord := w, wait := 0 })

/-- 70_reset_and_hazards.md R277 (LATENCY >= 1, free): the extra edges of a longer latency only count down. The count is
the model's own (log entry 1), and so is that the accepting edge is the first of the latency (log entry 6). -/
def Obligations.LatencyOnlyCountsDown : Prop :=
  (∀ (s : State) (p : PortSample) (rest : List PortSample) (n : Nat),
    s.inputs = p :: rest → p.rstN = true → p.cmdValid = true → p.wait = n + 1 → s.busy = false → s.rsp = none →
    step s = .next
      { s with inputs := rest, busy := true, cmdWord := p.cmdWord, cmdData := p.cmdData, wait := n }) ∧
  (∀ (s : State) (n : Nat), NoResetNext s → s.busy = true → s.rsp = none → s.wait = n + 1 →
    step s = .next { s with inputs := s.inputs.tail, wait := n })

/-- 30_encoding.md R76, R77; 60_exceptions.md R245: an accepted word that decodes to no command raises IllegalError. -/
def Obligations.IllegalWordRaisesIllegalError : Prop :=
  ∀ s : State, NoResetNext s → s.busy = true → s.rsp = none → s.wait = 0 →
    (∀ i, decode s.cmdWord ≠ .ok i) →
    ∃ t, step s = .next t ∧ Raised .illegal { s with inputs := s.inputs.tail } t

/-- 10_state.md R40: cmd_ready is 1 exactly when not BUSY and no response is pending; rsp_valid is 1 exactly when one is;
and while cmd_ready is 0, an offered command, its data and its latency have no effect at the edge. -/
def Obligations.CommandNeedsReady : Prop :=
  (∀ s : State, (s.outputs true).cmdReady = true ↔ s.busy = false ∧ s.rsp = none) ∧
  (∀ s : State, (s.outputs true).rspValid = true ↔ ∃ r, s.rsp = some r) ∧
  (∀ (s : State) (p q : PortSample) (rest : List PortSample),
    (s.outputs true).cmdReady = false → p.rstN = q.rstN → p.rspReady = q.rspReady →
    step { s with inputs := p :: rest } = step { s with inputs := q :: rest })

/-- 10_state.md R37, R40: a pending response is taken at an edge with rsp_ready = 1, once, and held until then. The record
of what was taken is the model's own (log entry 7). -/
def Obligations.ResponseIsTakenExactlyOnce : Prop :=
  ∀ (s : State) (p : PortSample) (rest : List PortSample) (r : Response),
    s.inputs = p :: rest → p.rstN = true → s.rsp = some r →
    (p.rspReady = true → step s = .next { s with inputs := rest, rsp := none, taken := s.taken ++ [r] }) ∧
    (p.rspReady = false → step s = .next { s with inputs := rest })

/-- 60_exceptions.md R253: with no command offered an idle unit holds its state for any number of edges, cmd_ready 1. That
edges past the end of `inputs` are idle ones is the model's choice (log entry 2). -/
def Obligations.IdleUnitHoldsItsState : Prop :=
  ∀ (n : Nat) (s : State), s.busy = false → s.rsp = none →
    (∀ p ∈ s.inputs.take n, p.rstN = true ∧ p.cmdValid = false) →
    Host.Core.run core n s = .next { s with inputs := s.inputs.drop n } ∧ (s.outputs true).cmdReady = true

/-- 70_reset_and_hazards.md R276: an accepted command is answered when its latency has run out, unless reset comes. The
count of the edges left is the model's own (log entries 1 and 6), and so is that edges past the end of `inputs` are idle
ones (log entry 2). -/
def Obligations.AcceptedCommandIsAnswered : Prop :=
  ∀ (n : Nat) (s : State), s.busy = true → s.rsp = none → s.wait = n →
    (∀ p ∈ s.inputs.take (n + 1), p.rstN = true) →
    ∃ t, Host.Core.run core (n + 1) s = .next t ∧ t.busy = false ∧ ∃ r, t.rsp = some r

/-- 20_memory.md R53 ("total"), 60_exceptions.md R245 ("never stops the unit"): from every state the machine goes on, for
any number of edges. -/
def Obligations.UnitNeverStops : Prop :=
  (∀ s : State, ∃ t, step s = .next t) ∧ (∀ (n : Nat) (s : State), ∃ t, Host.Core.run core n s = .next t)

/-- 20_memory.md R53, R56 and 70_reset_and_hazards.md R277, R278: from an idle unit, whatever latency each command has, a
sequence of commands driven through the handshake leaves the n-fold application of the atomic step, and the host has taken
one response per command, in order. The model's own: the free count of each latency (log entry 1), the host's side as the
list `inputs` (log entry 2), the record `taken` (log entry 7), and the number of edges of a command, its count plus the
accepting and the taking edge, since the accepting edge is the first of the latency (log entry 6). -/
def Obligations.HandshakeRunsAreAtomicRuns : Prop :=
  ∀ (cs : List Issue) (s : State) (rest : List PortSample),
    s.busy = false → s.rsp = none → s.inputs = cs.flatMap Issue.samples ++ rest →
    ∃ t, Host.Core.run core (cs.map Issue.edges).sum s = .next t ∧
      arch t = (atomicRun (arch s) cs).1 ∧ t.taken = s.taken ++ (atomicRun (arch s) cs).2 ∧
      (atomicRun (arch s) cs).2.length = cs.length ∧
      t.busy = false ∧ t.rsp = none ∧ t.inputs = rest

/-! ## The invariant -/

/-- The invariant holds after reset. -/
def Obligations.ResetMeetsTheInvariant : Prop := Inv State.reset

/-- Every step from a state that meets the invariant leads to one that does. -/
def Obligations.StepKeepsTheInvariant : Prop := ∀ s t : State, Inv s → step s = .next t → Inv t

/-! ## Encoding -/

/-- 30_encoding.md R70 to R76: the word of every command decodes to that command, every operand at every value. -/
def Obligations.EncodedCommandDecodesToItself : Prop :=
  ∀ i : Instr, i.wellFormed = true → decode (encode i) = .ok i

/-- 30_encoding.md R71, R76: a word that decodes is the encoding of its command, and the command is well formed; so each
command has one word. -/
def Obligations.DecodedWordIsTheEncoding : Prop :=
  ∀ (w : CommandWord) (i : Instr), decode w = .ok i → i.wellFormed = true ∧ encode i = w

/-- 30_encoding.md R71, R75, R76: the legal words are exactly those that match a row of the opcode map, BUDG with PREF = 3
apart. -/
def Obligations.LegalWordsMatchTheOpcodeMap : Prop :=
  ∀ w : CommandWord, (∃ i, decode w = .ok i) ↔
    (∃ row ∈ opcodeMap, w &&& row.1 = row.2) ∧ ¬(w.extractLsb' 26 6 = 0x32#6 ∧ w.extractLsb' 2 2 = 3#2)

/-- Words written out in the instruction rules' examples (40_control.md to 45_subnet.md) decode to the commands they
stand for, and those of 95_test_vectors.md "Decode errors" to none. -/
def Obligations.WordsOfTheExamplesDecode : Prop :=
  decode 0x00000000#32 = .ok .nop ∧ decode 0x04800018#32 = .ok (.ldi 1 24) ∧
  decode 0x1C000009#32 = .ok (.csrwi 1 1) ∧ decode 0x18100000#32 = .ok (.csrw 0 1) ∧
  decode 0x29A00000#32 = .ok (.m2p 3 2) ∧ decode 0x40800004#32 = .ok (.b2v 1 0 4) ∧
  decode 0x69020000#32 = .ok (.lcp 2 0 1) ∧ decode 0x9D828000#32 = .ok (.cont 3 0 1 2) ∧
  decode 0x91020000#32 = .ok (.hcnt 2 1) ∧ decode 0xA1020001#32 = .ok (.scn 2 0 1 true) ∧
  decode 0xC910C002#32 = .ok (.budg 2 1 0 3 false true 0) ∧
  (decode 0x00000001#32).toOption = none ∧ (decode 0x38000000#32).toOption = none ∧
  (decode 0x0C240000#32).toOption = none ∧ (decode 0xC910C00E#32).toOption = none

/-! ## What holds of every command -/

/-- 20_memory.md R55: every command answers; on success with the value it wrote to x[rd] if it writes a register, x[rs1]
for RD, and 0 for NOP, CSRW and CSRWI; on an error with data 0 and the code of the error it raised. -/
def Obligations.EveryCommandAnswers : Prop :=
  ∀ (i : Instr) (s : State), ∃ t r, exec i s = .next t ∧ t.busy = false ∧ t.rsp = some r ∧
    (r.status = 0 →
      (∀ rd, destination i = some rd → r.data = t.reg rd) ∧
      (∀ rs1, i = .rd rs1 → r.data = s.reg rs1) ∧
      (i = .nop → r.data = 0) ∧ (∀ n v, csrWriteOf s i = some (n, v) → r.data = 0)) ∧
    (r.status ≠ 0 → r.data = 0 ∧ ∃ e : ErrorCode, r.status = e.number ∧ Raised e s t)

/-- 60_exceptions.md R244, 10_state.md R34: a command that answers with an error has changed STATUS at most, and STATUS
keeps the first error. -/
def Obligations.FailingCommandChangesOnlyStatus : Prop :=
  ∀ (i : Instr) (s t : State) (r : Response), exec i s = .next t → t.rsp = some r → r.status ≠ 0 →
    SameRegs s t ∧ t.fam = s.fam ∧ SameEnumerator s t ∧ SamePorts s t ∧ t.err = true ∧
    (s.err = false → t.code = r.status ∧ t.eop = s.cmdWord.extractLsb' 26 6) ∧
    (s.err = true → t.code = s.code ∧ t.eop = s.eop)

/-- The frame of every command that succeeds: registers other than rd, and CSR and enumerator elements that it is not
said to write (10_state.md R23, R31, R33, R35). -/
def Obligations.SucceedingCommandFrame : Prop :=
  ∀ (i : Instr) (s t : State) (r : Response), exec i s = .next t → t.rsp = some r → r.status = 0 →
    (∀ x, destination i ≠ some x → t.reg x = s.reg x) ∧ SamePorts s t ∧
    ((∀ v, csrWriteOf s i ≠ some (0, v)) → t.fam = s.fam) ∧
    ((∀ v, csrWriteOf s i ≠ some (1, v)) → SameRecord s t) ∧
    ((∀ v, csrWriteOf s i ≠ some (0, v)) → (∀ rd a b c, i ≠ .subcfg rd a b c) → SameEnumerator s t)

/-- 10_state.md R25: every error sets STATUS.ERR, and of the commands only a STATUS write with bit 0 = 1 clears it. -/
def Obligations.OnlyStatusWriteClearsTheErrorFlag : Prop :=
  ∀ (i : Instr) (s t : State), exec i s = .next t →
    (∀ r, t.rsp = some r → r.status ≠ 0 → t.err = true) ∧
    (s.err = true → t.err = false → ∃ v, csrWriteOf s i = some (1, v) ∧ v.getLsbD 0 = true)

/-- 10_state.md R35: of the commands only SUBCFG writes ENUM_P, ENUM_T and ENUM_BASE or sets ENUM_VALID, and only a CFG
write clears ENUM_VALID. -/
def Obligations.OnlySubcfgConfiguresTheEnumerator : Prop :=
  ∀ (i : Instr) (s t : State), exec i s = .next t →
    ((∀ rd a b c, i ≠ .subcfg rd a b c) → t.enumP = s.enumP ∧ t.enumT = s.enumT ∧ t.enumBase = s.enumBase ∧
      (t.enumValid = true → s.enumValid = true)) ∧
    (s.enumValid = true → t.enumValid = false → ∃ v, csrWriteOf s i = some (0, v))

/-- 60_exceptions.md R240: a command answers with status 0, 1, 2, 4, 5 or 6, so never UsageError nor a reserved code. -/
def Obligations.UsageErrorIsNeverRaised : Prop :=
  ∀ (i : Instr) (s t : State) (r : Response), exec i s = .next t → t.rsp = some r →
    r.status = 0 ∨ r.status = 1 ∨ r.status = 2 ∨ r.status = 4 ∨ r.status = 5 ∨ r.status = 6

/-- 30_encoding.md R88: a command marked "1 only" raises UnsupportedError in family 2 whatever its operands hold, and no
command raises it otherwise. -/
def Obligations.FamilySupport : Prop :=
  (∀ (i : Instr) (s : State), i.wellFormed = true → familyOneOnlyCommand i = true → s.fam = .family2 →
    Raises i s .unsupported) ∧
  (∀ (i : Instr) (s t : State) (r : Response), exec i s = .next t → t.rsp = some r → r.status = 5 →
    familyOneOnlyCommand i = true ∧ s.fam = .family2)

/-- 00_scope.md R11: a register read as a prefix that is not in [0, M], as a signed integer, raises RangeError in every
command that reads one; nothing is clamped. -/
def Obligations.PrefixOutOfRangeRaisesRangeError : Prop :=
  ∀ (s : State) (rd rs1 rs2 rs3 : Reg) (sub hst : Bool) (pref : BitVec 2),
    (BadPrefix s rs1 → Raises (.mask rd rs1) s .range ∧ Raises (.wild rd rs1) s .range) ∧
    (s.fam = .family1 → BadPrefix s rs2 → Raises (.hcnt rd rs2) s .range) ∧
    (s.fam = .family1 → ∀ a, HoldsVector s rs1 a → BadPrefix s rs2 →
      Raises (.net rd rs1 rs2) s .range ∧ Raises (.bcast rd rs1 rs2) s .range ∧
      Raises (.first rd rs1 rs2) s .range ∧ Raises (.last rd rs1 rs2) s .range ∧
      Raises (.isnet rd rs1 rs2) s .range ∧ Raises (.isbc rd rs1 rs2) s .range ∧
      Raises (.cont rd rs1 rs2 rs3) s .range ∧ Raises (.subcfg rd rs1 rs2 rs3) s .range) ∧
    (s.fam = .family1 → ∀ a p, HoldsVector s rs1 a → HoldsPrefix s rs2 p → BadPrefix s rs3 →
      Raises (.subcfg rd rs1 rs2 rs3) s .range) ∧
    (s.fam = .family1 → pref ≠ 3#2 → BadPrefix s rs1 → Raises (.budg rd rs1 rs2 rs3 sub hst pref) s .range)

/-- 00_scope.md R12: a register read as a vector with a bit above M-1 set raises FormatError in every command that reads
one, whatever its later operands hold (60_exceptions.md R242, step 5). -/
def Obligations.StrayBitsRaiseFormatError : Prop :=
  ∀ (s : State) (rd rs1 rs2 rs3 : Reg) (k : BitVec 4) (h : Bool),
    (BadVector s rs1 →
      Raises (.v2b rd rs1) s .format ∧ Raises (.bshl rd rs1 k) s .format ∧ Raises (.bshr rd rs1 k) s .format ∧
      Raises (.brol rd rs1 k) s .format ∧ Raises (.bror rd rs1 k) s .format ∧ Raises (.clz rd rs1) s .format ∧
      Raises (.clo rd rs1) s .format ∧ Raises (.lcp rd rs1 rs2) s .format) ∧
    (BadVector s rs2 → Raises (.lcp rd rs1 rs2) s .format) ∧
    (s.fam = .family1 → BadVector s rs1 →
      Raises (.m2p rd rs1) s .format ∧ Raises (.net rd rs1 rs2) s .format ∧ Raises (.bcast rd rs1 rs2) s .format ∧
      Raises (.first rd rs1 rs2) s .format ∧ Raises (.last rd rs1 rs2) s .format ∧
      Raises (.isnet rd rs1 rs2) s .format ∧ Raises (.isbc rd rs1 rs2) s .format ∧
      Raises (.cont rd rs1 rs2 rs3) s .format ∧ Raises (.scn rd rs1 rs2 h) s .format ∧
      Raises (.subcfg rd rs1 rs2 rs3) s .format) ∧
    (s.fam = .family1 → BadVector s rs2 → Raises (.scn rd rs1 rs2 h) s .format) ∧
    (s.fam = .family1 → ∀ a p, HoldsVector s rs1 a → HoldsPrefix s rs2 p → BadVector s rs3 →
      Raises (.cont rd rs1 rs2 rs3) s .format)

/-! ## Control and data movement (40_control.md) -/

/-- R100, R103: NOP answers 0 and RD answers the register, and neither changes a register or a control register. -/
def Obligations.NopAndRdChangeNoRegister : Prop :=
  ∀ s : State, (∃ t, exec .nop s = .next t ∧ AnswersOnly 0 s t) ∧
    (∀ rs1, ∃ t, exec (.rd rs1) s = .next t ∧ AnswersOnly (s.reg rs1) s t)

/-- R101, R102, R104: LDI writes the zero-extended immediate, WR the sampled cmd_data unchecked, MOV the source. -/
def Obligations.LoadsAndMovesWriteTheirValue : Prop :=
  ∀ (s : State) (rd rs1 : Reg),
    (∀ imm : BitVec 23, Yields (.ldi rd imm) s rd (BitVec.ofNat 128 imm.toNat)) ∧
    Yields (.wr rd) s rd s.cmdData ∧ Yields (.mov rd rs1) s rd (s.reg rs1)

/-- R105 with 10_state.md R26, R31, R32, R35, R36: CSRR of 0 to 4 writes the control register's value, field by field. -/
def Obligations.CsrrReadsTheControlRegisters : Prop :=
  ∀ (s : State) (rd : Reg), ∃ cfg status params enumcfg : Word,
    Yields (.csrr rd 0) s rd cfg ∧ cfg.toNat = (if s.fam = .family2 then 1 else 0) ∧
    Yields (.csrr rd 1) s rd status ∧
    status.toNat = s.err.toNat + 2 * s.enumValid.toNat + 16 * s.code.toNat + 256 * s.eop.toNat ∧
    Yields (.csrr rd 2) s rd params ∧ params.toNat = (if s.fam = .family2 then 0x81080 else 0x40820) ∧
    Yields (.csrr rd 3) s rd enumcfg ∧
    enumcfg.toNat = s.enumP.toNat + 256 * s.enumT.toNat + 65536 * s.enumValid.toNat ∧
    Yields (.csrr rd 4) s rd s.enumBase

/-- 10_state.md R27: CSRR of 5 to 7, and CSRW or CSRWI of 2 to 7, raise IllegalError. -/
def Obligations.ReservedControlRegistersRaiseIllegalError : Prop :=
  ∀ (s : State) (rd rs1 : Reg) (n : BitVec 3) (imm : BitVec 11),
    (5 ≤ n.toNat → Raises (.csrr rd n) s .illegal) ∧
    (2 ≤ n.toNat → Raises (.csrw n rs1) s .illegal ∧ Raises (.csrwi n imm) s .illegal)

/-- 10_state.md R31: a CFG write takes bit 0 as FAM, ignores the rest and clears ENUM_VALID, and changes no register
(R23). -/
def Obligations.CfgWriteSelectsTheFamily : Prop :=
  ∀ s : State, (∀ rs1, ∃ t, exec (.csrw 0 rs1) s = .next t ∧ CfgWritten (s.reg rs1) s t) ∧
    (∀ imm : BitVec 11, ∃ t, exec (.csrwi 0 imm) s = .next t ∧ CfgWritten (BitVec.ofNat 128 imm.toNat) s t)

/-- 10_state.md R33: a STATUS write with bit 0 set clears ERR, CODE and EOP, with bit 0 clear it changes nothing, and
ENUMV cannot be written. -/
def Obligations.StatusWriteClearsTheRecord : Prop :=
  ∀ s : State, (∀ rs1, ∃ t, exec (.csrw 1 rs1) s = .next t ∧ StatusWritten (s.reg rs1) s t) ∧
    (∀ imm : BitVec 11, ∃ t, exec (.csrwi 1 imm) s = .next t ∧ StatusWritten (BitVec.ofNat 128 imm.toNat) s t)

/-! ## Netmasks (41_mask.md) -/

/-- R120, R121 with 00_scope.md R8, R10: for p in [0, M], MASK gives the bit string of p ones then M-p zeros, WILD that of
p zeros then M-p ones, bits 127:M zero, so that they exclusive-or to ones(M) and share no bit; in both families. -/
def Obligations.MaskAndWildSpellTheirBits : Prop :=
  ∀ (s : State) (rd rs1 : Reg) (p : Nat), HoldsPrefix s rs1 p → ∃ m w : Word,
    Yields (.mask rd rs1) s rd m ∧ m.toNat < 2 ^ maxBits s.fam ∧
    bitString s.fam m = List.replicate p true ++ List.replicate (maxBits s.fam - p) false ∧
    Yields (.wild rd rs1) s rd w ∧ w.toNat < 2 ^ maxBits s.fam ∧
    bitString s.fam w = List.replicate p false ++ List.replicate (maxBits s.fam - p) true ∧
    (m ^^^ w).toNat = 2 ^ maxBits s.fam - 1 ∧ m &&& w = 0

/-- R122 (conflict C1): in family 1, M2P of a 32-bit vector gives p when its bit string is p ones then 32-p zeros, the
all-zero vector included, and raises FormatError when it is so for no p. -/
def Obligations.M2pValidatesTheNetmask : Prop :=
  ∀ (s : State) (rd rs1 : Reg) (v : Nat), s.fam = .family1 → HoldsVector s rs1 v →
    (∀ p, p ≤ 32 → bitString .family1 (s.reg rs1) = List.replicate p true ++ List.replicate (32 - p) false →
      Yields (.m2p rd rs1) s rd (BitVec.ofNat 128 p)) ∧
    ((∀ p, p ≤ 32 → bitString .family1 (s.reg rs1) ≠ List.replicate p true ++ List.replicate (32 - p) false) →
      Raises (.m2p rd rs1) s .format)

/-- R122's round trip (95_test_vectors.md L1-1): MASK then M2P of its result returns the prefix, for every p in [0, 32]. -/
def Obligations.M2pUndoesMask : Prop :=
  ∀ (s t : State) (rd rs1 rd' : Reg) (p : Nat), s.fam = .family1 → HoldsPrefix s rs1 p →
    exec (.mask rd rs1) s = .next t → Yields (.m2p rd' rd) t rd' (BitVec.ofNat 128 p)

/-! ## Block codec, shifts and rotates (42_codec.md) -/

/-- R143, R140, R141 in family 1: four lanes of three decimal digits give the vector of the four blocks; any other lane
vector, and any other block count, raises FormatError. -/
def Obligations.B2vJoinsDecimalBlocks : Prop :=
  ∀ (s : State) (rd rs1 : Reg) (nb : BitVec 4), s.fam = .family1 →
    (nb = 4 → ∀ a b c d : Nat, a < 256 → b < 256 → c < 256 → d < 256 →
      (s.reg rs1).toNat = decimalLanes a b c d →
      Yields (.b2v rd rs1 nb) s rd (BitVec.ofNat 128 (a * 2 ^ 24 + b * 2 ^ 16 + c * 2 ^ 8 + d))) ∧
    ((nb ≠ 4 ∨ ∀ a b c d : Nat, a < 256 → b < 256 → c < 256 → d < 256 →
      (s.reg rs1).toNat ≠ decimalLanes a b c d) → Raises (.b2v rd rs1 nb) s .format)

/-- R143, R142 in family 2: with a block count of 8 the lanes are the vector; any other count raises FormatError. -/
def Obligations.B2vJoinsHexadecimalBlocks : Prop :=
  ∀ (s : State) (rd rs1 : Reg) (nb : BitVec 4), s.fam = .family2 →
    (nb = 8 → Yields (.b2v rd rs1 nb) s rd (s.reg rs1)) ∧ (nb ≠ 8 → Raises (.b2v rd rs1 nb) s .format)

/-- R144: V2B splits a vector into its blocks, as four decimal lanes in family 1 and as eight hexadecimal lanes, which
spell the same number, in family 2. -/
def Obligations.V2bSplitsIntoLanes : Prop :=
  ∀ (s : State) (rd rs1 : Reg),
    (s.fam = .family1 → ∀ a b c d : Nat, a < 256 → b < 256 → c < 256 → d < 256 →
      (s.reg rs1).toNat = a * 2 ^ 24 + b * 2 ^ 16 + c * 2 ^ 8 + d →
      Yields (.v2b rd rs1) s rd (BitVec.ofNat 128 (decimalLanes a b c d))) ∧
    (s.fam = .family2 → Yields (.v2b rd rs1) s rd (s.reg rs1))

/-- R149: B2V undoes V2B on every well-formed vector, and V2B undoes B2V on every lane vector that B2V accepts, in both
families. -/
def Obligations.CodecRoundTrips : Prop :=
  ∀ (s t : State) (rd rs1 rd' : Reg) (nb : BitVec 4), nb.toNat = blockCount s.fam →
    (∀ v, HoldsVector s rs1 v → exec (.v2b rd rs1) s = .next t → Yields (.b2v rd' rd nb) t rd' (s.reg rs1)) ∧
    (∀ r, exec (.b2v rd rs1 nb) s = .next t → t.rsp = some r → r.status = 0 →
      Yields (.v2b rd' rd) t rd' (s.reg rs1))

/-- R145, R146: BSHL multiplies by 2^(k*BB) within M bits and BSHR divides by it; so k >= NB gives 0. -/
def Obligations.BlockShiftsMoveWholeBlocks : Prop :=
  ∀ (s : State) (rd rs1 : Reg) (k : BitVec 4) (v : Nat), HoldsVector s rs1 v → ∃ l r : Word,
    Yields (.bshl rd rs1 k) s rd l ∧
    l.toNat = v * 2 ^ (k.toNat * blockBits s.fam) % 2 ^ maxBits s.fam ∧
    Yields (.bshr rd rs1 k) s rd r ∧ r.toNat = v / 2 ^ (k.toNat * blockBits s.fam) ∧
    (blockCount s.fam ≤ k.toNat → l = 0 ∧ r = 0)

/-- R147, R148: BROL turns the bit string left by k blocks, BROR right, both within M bits. -/
def Obligations.BlockRotatesTurnTheBitString : Prop :=
  ∀ (s : State) (rd rs1 : Reg) (k : BitVec 4) (v : Nat), HoldsVector s rs1 v → ∃ l r : Word,
    Yields (.brol rd rs1 k) s rd l ∧ l.toNat < 2 ^ maxBits s.fam ∧
    bitString s.fam l = (bitString s.fam (s.reg rs1)).rotate (k.toNat * blockBits s.fam) ∧
    Yields (.bror rd rs1 k) s rd r ∧ r.toNat < 2 ^ maxBits s.fam ∧
    (bitString s.fam r).rotate (k.toNat * blockBits s.fam) = bitString s.fam (s.reg rs1)

/-! ## Scanner (43_scan.md) -/

/-- R160, R161, R162: CLZ and CLO count the leading zeros and ones of the bit string, and LCP the leading places at which
two bit strings agree; in both families, M when the string ends first. -/
def Obligations.ScansCountLeadingPlaces : Prop :=
  ∀ (s : State) (rd rs1 rs2 : Reg) (v : Nat), HoldsVector s rs1 v →
    Yields (.clz rd rs1) s rd
      (BitVec.ofNat 128 ((bitString s.fam (s.reg rs1)).takeWhile fun c => !c).length) ∧
    Yields (.clo rd rs1) s rd (BitVec.ofNat 128 ((bitString s.fam (s.reg rs1)).takeWhile fun c => c).length) ∧
    (∀ w, HoldsVector s rs2 w → Yields (.lcp rd rs1 rs2) s rd
      (BitVec.ofNat 128 (agreement (bitString s.fam (s.reg rs1)) (bitString s.fam (s.reg rs2)))))

/-! ## Network calculator (44_network.md) -/

/-- R180, R181: NET clears the 32-p host bits of the address and BCAST sets them. -/
def Obligations.NetAndBcastGiveTheBoundaries : Prop :=
  ∀ (s : State) (rd rs1 rs2 : Reg) (a p : Nat), s.fam = .family1 → HoldsVector s rs1 a → HoldsPrefix s rs2 p →
    Yields (.net rd rs1 rs2) s rd (BitVec.ofNat 128 (networkOf a p)) ∧
    Yields (.bcast rd rs1 rs2) s rd (BitVec.ofNat 128 (broadcastOf a p))

/-- R182, R183: FIRST is the network address plus 1 and LAST the broadcast address minus 1, and each raises RangeError
exactly when that would leave the address space, which happens only for the all-ones and the all-zero address at /32. -/
def Obligations.FirstAndLastStayInTheAddressSpace : Prop :=
  ∀ (s : State) (rd rs1 rs2 : Reg) (a p : Nat), s.fam = .family1 → HoldsVector s rs1 a → HoldsPrefix s rs2 p →
    (networkOf a p + 1 < 2 ^ 32 → Yields (.first rd rs1 rs2) s rd (BitVec.ofNat 128 (networkOf a p + 1))) ∧
    (2 ^ 32 ≤ networkOf a p + 1 → Raises (.first rd rs1 rs2) s .range) ∧
    (0 < broadcastOf a p → Yields (.last rd rs1 rs2) s rd (BitVec.ofNat 128 (broadcastOf a p - 1))) ∧
    (broadcastOf a p = 0 → Raises (.last rd rs1 rs2) s .range) ∧
    (2 ^ 32 ≤ networkOf a p + 1 ↔ a = 2 ^ 32 - 1 ∧ p = 32) ∧ (broadcastOf a p = 0 ↔ a = 0 ∧ p = 32)

/-- R184: HCNT gives 2^(32-p) - 2 as a signed 128-bit integer, so 0 at /31 and -1 at /32. -/
def Obligations.HcntIsNotClamped : Prop :=
  ∀ (s : State) (rd rs2 : Reg) (p : Nat), s.fam = .family1 → HoldsPrefix s rs2 p →
    ∃ n : Word, Yields (.hcnt rd rs2) s rd n ∧ n.toInt = 2 ^ (32 - p) - 2

/-- R185 (conflict C2), R186: ISNET gives 1 exactly when the host bits are all zero, ISBC exactly when they are all one. -/
def Obligations.PredicatesTestTheHostBits : Prop :=
  ∀ (s : State) (rd rs1 rs2 : Reg) (a p : Nat), s.fam = .family1 → HoldsVector s rs1 a → HoldsPrefix s rs2 p →
    Yields (.isnet rd rs1 rs2) s rd (if a % 2 ^ (32 - p) = 0 then 1 else 0) ∧
    Yields (.isbc rd rs1 rs2) s rd (if a % 2 ^ (32 - p) = 2 ^ (32 - p) - 1 then 1 else 0)

/-- R187: CONT gives 1 exactly when the candidate lies between the network and the broadcast address. -/
def Obligations.ContComparesWithTheBoundaries : Prop :=
  ∀ (s : State) (rd rs1 rs2 rs3 : Reg) (a p b : Nat), s.fam = .family1 → HoldsVector s rs1 a →
    HoldsPrefix s rs2 p → HoldsVector s rs3 b →
    Yields (.cont rd rs1 rs2 rs3) s rd (if networkOf a p ≤ b ∧ b ≤ broadcastOf a p then 1 else 0)

/-- R188: without hostsOnly SCN gives the common prefix length c0; with it, the largest c <= c0 at which neither address
is its network or broadcast address, or 0 when every candidate from c0 down to 1 has one that is. -/
def Obligations.ScnBacksOffFromEdges : Prop :=
  ∀ (s : State) (rd rs1 rs2 : Reg) (a b c0 : Nat), s.fam = .family1 → HoldsVector s rs1 a → HoldsVector s rs2 b →
    c0 = agreement (bitString .family1 (s.reg rs1)) (bitString .family1 (s.reg rs2)) →
    Yields (.scn rd rs1 rs2 false) s rd (BitVec.ofNat 128 c0) ∧
    ∃ c ≤ c0, Yields (.scn rd rs1 rs2 true) s rd (BitVec.ofNat 128 c) ∧
      (0 < c → ∀ x, x = a ∨ x = b → x ≠ networkOf x c ∧ x ≠ broadcastOf x c) ∧
      (∀ c', c < c' → c' ≤ c0 → ∃ x, (x = a ∨ x = b) ∧ (x = networkOf x c' ∨ x = broadcastOf x c'))

/-- R189: the results of NET and BCAST of one address and prefix enclose the address; the network address has the host
bits cleared, the broadcast address has them set, and the network bits of the three are equal. -/
def Obligations.ContainmentLaw : Prop :=
  ∀ (s : State) (rd rs1 rs2 : Reg) (a p : Nat) (n b : Word), s.fam = .family1 → HoldsVector s rs1 a →
    HoldsPrefix s rs2 p → Yields (.net rd rs1 rs2) s rd n → Yields (.bcast rd rs1 rs2) s rd b →
    n.toNat ≤ a ∧ a ≤ b.toNat ∧ n.toNat % 2 ^ (32 - p) = 0 ∧ b.toNat % 2 ^ (32 - p) = 2 ^ (32 - p) - 1 ∧
    n.toNat / 2 ^ (32 - p) = a / 2 ^ (32 - p) ∧ b.toNat / 2 ^ (32 - p) = a / 2 ^ (32 - p)

/-! ## Subnet calculator (45_subnet.md) -/

/-- R210: with target > base SUBCFG stores the base's network address and both prefixes, sets ENUM_VALID and gives the
count 2^(t-p); with target <= base it raises RangeError and the enumerator is unchanged. -/
def Obligations.SubcfgStoresTheConfiguration : Prop :=
  ∀ (s : State) (rd rs1 rs2 rs3 : Reg) (a p t : Nat), s.fam = .family1 → HoldsVector s rs1 a →
    HoldsPrefix s rs2 p → HoldsPrefix s rs3 t →
    (p < t → ∃ u, exec (.subcfg rd rs1 rs2 rs3) s = .next u ∧
      Configured rd (networkOf a p) p t (2 ^ (t - p)) s u) ∧
    (t ≤ p → Raises (.subcfg rd rs1 rs2 rs3) s .range)

/-- R213: SUBN gives ENUM_BASE + i * 2^(32-T) for an index below 2^(T-P), raises RangeError for any other index, and
SequenceError before that when no enumeration is valid. -/
def Obligations.SubnGivesTheElement : Prop :=
  ∀ (s : State) (rd rs1 : Reg), Inv s → s.fam = .family1 →
    (s.enumValid = true → (s.reg rs1).toNat < 2 ^ (s.enumT.toNat - s.enumP.toNat) →
      Yields (.subn rd rs1) s rd
        (BitVec.ofNat 128 (s.enumBase.toNat + (s.reg rs1).toNat * 2 ^ (32 - s.enumT.toNat)))) ∧
    (s.enumValid = true → 2 ^ (s.enumT.toNat - s.enumP.toNat) ≤ (s.reg rs1).toNat →
      Raises (.subn rd rs1) s .range) ∧
    (s.enumValid = false → Raises (.subn rd rs1) s .sequence)

/-- R211: the elements SUBN gives are /T network addresses inside the base network, ascend strictly with the index, start
at the base and end so that the last one's broadcast at /T is the base's broadcast at /P; and R211's two forms agree. -/
def Obligations.ElementsTileTheBaseNetwork : Prop :=
  ∀ s : State, Inv s → s.enumValid = true →
    (s.element 0).toNat = s.enumBase.toNat ∧
    (∀ i : Word, i.toNat < s.elementCount →
      (s.element i).toNat = (s.enumBase.toNat / 2 ^ (32 - s.enumT.toNat) + i.toNat) * 2 ^ (32 - s.enumT.toNat) ∧
      networkOf (s.element i).toNat s.enumT.toNat = (s.element i).toNat ∧
      networkOf (s.element i).toNat s.enumP.toNat = s.enumBase.toNat) ∧
    (∀ i j : Word, i.toNat < j.toNat → j.toNat < s.elementCount → (s.element i).toNat < (s.element j).toNat) ∧
    (∀ i : Word, i.toNat + 1 = s.elementCount →
      broadcastOf (s.element i).toNat s.enumT.toNat = broadcastOf s.enumBase.toNat s.enumP.toNat)

/-- R210 then R213: after a successful SUBCFG, SUBN of index i gives the i-th /t network of the base network. -/
def Obligations.SubcfgThenSubnEnumerates : Prop :=
  ∀ (s u : State) (rd rs1 rs2 rs3 rd' r : Reg) (a p t : Nat), s.fam = .family1 → HoldsVector s rs1 a →
    HoldsPrefix s rs2 p → HoldsPrefix s rs3 t → p < t → exec (.subcfg rd rs1 rs2 rs3) s = .next u →
    (u.reg r).toNat < 2 ^ (t - p) →
    Yields (.subn rd' r) u rd' (BitVec.ofNat 128 (networkOf a p + (u.reg r).toNat * 2 ^ (32 - t)))

/-- R214, 00_scope.md R10: clog2(n) is the least k with 2^k >= n, on every natural n >= 1. -/
def Obligations.Clog2IsTheLeastExponent : Prop :=
  ∀ n : Nat, 1 ≤ n → n ≤ 2 ^ clog2 n ∧ ∀ k, n ≤ 2 ^ k → clog2 n ≤ k

/-- R215, R216, R218 (conflicts C4, C7): with exactly one count requested PREF has no effect. A host count h gives the
target 32 - clog2(h+2) when one bit is left for subnets, a subnet count c the target p + clog2(c) when that is at least 1
and one bit is left for hosts, and everything else raises RangeError. -/
def Obligations.BudgWithOneCount : Prop :=
  ∀ (s : State) (rd rs1 rs2 rs3 : Reg) (pref : BitVec 2) (p hb nb : Nat), s.fam = .family1 → pref ≠ 3#2 →
    HoldsPrefix s rs1 p → hb = clog2 ((s.reg rs3).toNat + 2) → nb = clog2 (s.reg rs2).toNat →
    (p + 1 + hb ≤ 32 → Yields (.budg rd rs1 rs2 rs3 false true pref) s rd (BitVec.ofNat 128 (32 - hb))) ∧
    (32 < p + 1 + hb → Raises (.budg rd rs1 rs2 rs3 false true pref) s .range) ∧
    (2 ≤ (s.reg rs2).toNat → p + nb + 1 ≤ 32 →
      Yields (.budg rd rs1 rs2 rs3 true false pref) s rd (BitVec.ofNat 128 (p + nb))) ∧
    ((s.reg rs2).toNat < 2 ∨ 32 < p + nb + 1 → Raises (.budg rd rs1 rs2 rs3 true false pref) s .range)

/-- R216, R217: a request for both counts (of at least one subnet) or neither that fits, with nb and hb bits wanted (1
each when not requested) and x bits of surplus: the surplus goes to hosts (PREF 2), to subnets (PREF 1), or floor(x/2)
to hosts and the rest to subnets (PREF 0); R219: RangeError when no subnet bit results. -/
def Obligations.BudgDistributesTheSurplus : Prop :=
  ∀ (s : State) (rd rs1 rs2 rs3 : Reg) (both : Bool) (p nb hb x : Nat), s.fam = .family1 → HoldsPrefix s rs1 p →
    (both = true → 1 ≤ (s.reg rs2).toNat) →
    nb = (if both then clog2 (s.reg rs2).toNat else 1) →
    hb = (if both then clog2 ((s.reg rs3).toNat + 2) else 1) → p + nb + hb + x = 32 →
    (1 ≤ nb → Yields (.budg rd rs1 rs2 rs3 both both 2) s rd (BitVec.ofNat 128 (p + nb))) ∧
    (nb = 0 → Raises (.budg rd rs1 rs2 rs3 both both 2) s .range) ∧
    (1 ≤ nb + x → Yields (.budg rd rs1 rs2 rs3 both both 1) s rd (BitVec.ofNat 128 (p + nb + x))) ∧
    (1 ≤ nb + x → Yields (.budg rd rs1 rs2 rs3 both both 0) s rd (BitVec.ofNat 128 (p + nb + (x + 1) / 2))) ∧
    (nb + x = 0 → Raises (.budg rd rs1 rs2 rs3 both both 1) s .range ∧
      Raises (.budg rd rs1 rs2 rs3 both both 0) s .range)

/-- R216, R218: a request for both counts (of at least one subnet) or neither that is short of bits by d: subnets shrink by
d (PREF 2), hosts by d (PREF 1), or hosts by floor(d/2) and subnets by the rest (PREF 0), each only when that leaves it > 0;
RangeError when the sum still does not fit, and when no subnet bit results (R219). -/
def Obligations.BudgShrinksInADeficit : Prop :=
  ∀ (s : State) (rd rs1 rs2 rs3 : Reg) (both : Bool) (p nb hb d : Nat), s.fam = .family1 → HoldsPrefix s rs1 p →
    (both = true → 1 ≤ (s.reg rs2).toNat) →
    nb = (if both then clog2 (s.reg rs2).toNat else 1) →
    hb = (if both then clog2 ((s.reg rs3).toNat + 2) else 1) → p + nb + hb = 32 + d → 1 ≤ d →
    (d < nb → Yields (.budg rd rs1 rs2 rs3 both both 2) s rd (BitVec.ofNat 128 (p + nb - d))) ∧
    (nb ≤ d → Raises (.budg rd rs1 rs2 rs3 both both 2) s .range) ∧
    (d < hb ∧ 1 ≤ nb → Yields (.budg rd rs1 rs2 rs3 both both 1) s rd (BitVec.ofNat 128 (p + nb))) ∧
    (hb ≤ d ∨ nb = 0 → Raises (.budg rd rs1 rs2 rs3 both both 1) s .range) ∧
    (d - d / 2 < nb ∧ d / 2 < hb →
      Yields (.budg rd rs1 rs2 rs3 both both 0) s rd (BitVec.ofNat 128 (p + nb - (d - d / 2)))) ∧
    (nb ≤ d - d / 2 ∨ hb ≤ d / 2 → Raises (.budg rd rs1 rs2 rs3 both both 0) s .range)

/-- R214, R216: a requested subnet count of 0 raises RangeError, with or without a host count, whatever PREF says; PREF = 3
raises IllegalError before everything else (60_exceptions.md R242). -/
def Obligations.BudgRefusesZeroSubnetsAndPref3 : Prop :=
  ∀ (s : State) (rd rs1 rs2 rs3 : Reg) (sub hst : Bool) (pref : BitVec 2),
    (s.fam = .family1 → pref ≠ 3#2 → ∀ p, HoldsPrefix s rs1 p → (s.reg rs2).toNat = 0 →
      Raises (.budg rd rs1 rs2 rs3 true hst pref) s .range) ∧
    Raises (.budg rd rs1 rs2 rs3 sub hst 3) s .illegal

/-- R216's corner case: whatever is requested, a target prefix that BUDG gives lies in [p+1, 31]. -/
def Obligations.BudgTargetLeavesRoom : Prop :=
  ∀ (s t : State) (rd rs1 rs2 rs3 : Reg) (sub hst : Bool) (pref : BitVec 2) (p : Nat) (r : Response),
    HoldsPrefix s rs1 p → exec (.budg rd rs1 rs2 rs3 sub hst pref) s = .next t → t.rsp = some r → r.status = 0 →
    p + 1 ≤ (t.reg rd).toNat ∧ (t.reg rd).toNat ≤ 31
end

