-- ==== Sys2Proof/Laws/Bits.lean ====
section
/-! SUPPORT. What the derived functions of 00_scope.md R10 compute, as numbers, as bits and as bit strings. -/

namespace Sys2Proof.Machine

/-! ## Family parameters -/

theorem maxBits_le (f : Family) : maxBits f ≤ 128 := by cases f <;> decide

theorem maxBits_pos (f : Family) : 0 < maxBits f := by cases f <;> decide

theorem blockCount_mul_blockBits (f : Family) : blockCount f * blockBits f = maxBits f := by cases f <;> decide

theorem blockBits_pos (f : Family) : 0 < blockBits f := by cases f <;> decide

/-! ## Well-formed vectors -/

/-- A vector is well formed exactly when it is below 2^M. -/
theorem wf_iff (f : Family) (v : Word) : wf f v = true ↔ v.toNat < 2 ^ maxBits f := by
  rw [wf, beq_iff_eq, ← BitVec.toNat_inj, BitVec.toNat_ushiftRight, Nat.shiftRight_eq_div_pow]
  simp [Nat.div_eq_zero_iff]

/-- The bits of a well-formed vector at and above M are zero. -/
theorem getLsbD_of_wf {f : Family} {v : Word} (h : v.toNat < 2 ^ maxBits f) {i : Nat} (hi : maxBits f ≤ i) :
    v.getLsbD i = false := by
  rw [BitVec.getLsbD]
  exact Nat.testBit_lt_two_pow (h.trans_le (Nat.pow_le_pow_right (by decide) hi))

/-! ## ones, mask, wild -/

theorem toNat_ones {n : Nat} (h : n ≤ 128) : (ones n).toNat = 2 ^ n - 1 := by
  have : 2 ^ n ≤ 2 ^ 128 := Nat.pow_le_pow_right (by decide) h
  have : 0 < 2 ^ n := Nat.two_pow_pos n
  rw [ones, BitVec.toNat_ofNat, Nat.mod_eq_of_lt (by omega)]

theorem getLsbD_ones {n : Nat} (h : n ≤ 128) (i : Nat) : (ones n).getLsbD i = decide (i < n) := by
  rw [BitVec.getLsbD, toNat_ones h, Nat.testBit_two_pow_sub_one]

theorem toNat_netmask (f : Family) {p : Nat} (h : p ≤ maxBits f) :
    (netmask f p).toNat = (2 ^ p - 1) * 2 ^ (maxBits f - p) := by
  have hm := maxBits_le f
  have e : 2 ^ p * 2 ^ (maxBits f - p) = 2 ^ maxBits f := by rw [← Nat.pow_add, Nat.add_sub_cancel' h]
  have : 2 ^ maxBits f ≤ 2 ^ 128 := Nat.pow_le_pow_right (by decide) hm
  have := Nat.two_pow_pos (maxBits f - p)
  have l : (2 ^ p - 1) * 2 ^ (maxBits f - p) < 2 ^ 128 := by rw [Nat.sub_mul, e]; omega
  rw [netmask, BitVec.toNat_ofNat, Nat.shiftLeft_eq, Nat.mod_eq_of_lt l]

theorem getLsbD_netmask (f : Family) {p : Nat} (h : p ≤ maxBits f) (i : Nat) :
    (netmask f p).getLsbD i = decide (maxBits f - p ≤ i ∧ i < maxBits f) := by
  rw [BitVec.getLsbD, toNat_netmask f h, Nat.testBit_mul_two_pow, Nat.testBit_two_pow_sub_one]
  by_cases h1 : maxBits f - p ≤ i <;> simp [h1]
  omega

theorem getLsbD_wildcard (f : Family) (p i : Nat) :
    (wildcard f p).getLsbD i = decide (i < maxBits f - p) :=
  getLsbD_ones ((Nat.sub_le _ _).trans (maxBits_le f)) i

theorem toNat_wildcard (f : Family) (p : Nat) : (wildcard f p).toNat = 2 ^ (maxBits f - p) - 1 :=
  toNat_ones ((Nat.sub_le _ _).trans (maxBits_le f))

theorem netmask_lt (f : Family) {p : Nat} (h : p ≤ maxBits f) : (netmask f p).toNat < 2 ^ maxBits f := by
  rw [toNat_netmask f h, Nat.sub_mul, ← Nat.pow_add, Nat.add_sub_cancel' h]
  have := Nat.two_pow_pos (maxBits f - p)
  have := Nat.two_pow_pos (maxBits f)
  omega

theorem wildcard_lt (f : Family) (p : Nat) : (wildcard f p).toNat < 2 ^ maxBits f := by
  rw [toNat_wildcard]
  have := Nat.two_pow_pos (maxBits f - p)
  have : 2 ^ (maxBits f - p) ≤ 2 ^ maxBits f := Nat.pow_le_pow_right (by decide) (Nat.sub_le _ _)
  omega

/-- Masking clears the host bits. -/
theorem toNat_and_netmask (f : Family) {v : Word} (hv : v.toNat < 2 ^ maxBits f) {p : Nat} (h : p ≤ maxBits f) :
    (v &&& netmask f p).toNat = v.toNat / 2 ^ (maxBits f - p) * 2 ^ (maxBits f - p) := by
  apply Nat.eq_of_testBit_eq
  intro i
  have hn := getLsbD_netmask f h i
  rw [BitVec.getLsbD] at hn
  rw [BitVec.toNat_and, Nat.testBit_and, hn, Nat.testBit_mul_two_pow, Nat.testBit_div_two_pow]
  by_cases h1 : maxBits f - p ≤ i
  · by_cases h2 : i < maxBits f
    · simp [h1, h2]
    · have := getLsbD_of_wf hv (Nat.not_lt.mp h2)
      rw [BitVec.getLsbD] at this
      simp [h1, h2, this]
  · simp [h1]

/-- The wildcard sets the host bits. -/
theorem toNat_or_wildcard (f : Family) (v : Word) (p : Nat) :
    (v ||| wildcard f p).toNat
      = v.toNat / 2 ^ (maxBits f - p) * 2 ^ (maxBits f - p) + (2 ^ (maxBits f - p) - 1) := by
  have := Nat.two_pow_pos (maxBits f - p)
  rw [Nat.mul_comm, Nat.two_pow_add_eq_or_of_lt (by omega)]
  apply Nat.eq_of_testBit_eq
  intro i
  rw [BitVec.toNat_or, toNat_wildcard, Nat.testBit_or, Nat.testBit_or, Nat.testBit_two_pow_mul,
    Nat.testBit_div_two_pow, Nat.testBit_two_pow_sub_one]
  by_cases h1 : maxBits f - p ≤ i
  · simp [h1]
  · simp [Nat.not_le.mp h1, h1]

/-! ## The bit string -/

@[simp] theorem length_bitString (f : Family) (v : Word) : (bitString f v).length = maxBits f := by
  simp [bitString]

@[simp] theorem getElem_bitString (f : Family) (v : Word) (i : Nat) (h : i < (bitString f v).length) :
    (bitString f v)[i] = v.getLsbD (maxBits f - 1 - i) := by
  simp [bitString]

/-- A well-formed vector is the one its bit string spells. -/
theorem eq_of_bitString {f : Family} {v w : Word} (hv : v.toNat < 2 ^ maxBits f) (hw : w.toNat < 2 ^ maxBits f)
    (h : bitString f v = bitString f w) : v = w := by
  apply BitVec.eq_of_getLsbD_eq
  intro i _
  by_cases hi : i < maxBits f
  · have hl : maxBits f - 1 - i < (bitString f v).length := by simp; omega
    have e := getElem_bitString f v (maxBits f - 1 - i) hl
    have e' := getElem_bitString f w (maxBits f - 1 - i) (by simpa using hl)
    have hk : maxBits f - 1 - (maxBits f - 1 - i) = i := by omega
    rw [hk] at e e'
    rw [← e, ← e']
    congr 1
  · rw [getLsbD_of_wf hv (Nat.not_lt.mp hi), getLsbD_of_wf hw (Nat.not_lt.mp hi)]

theorem bitString_netmask (f : Family) {p : Nat} (h : p ≤ maxBits f) :
    bitString f (netmask f p) = List.replicate p true ++ List.replicate (maxBits f - p) false := by
  apply List.ext_getElem
  · simp; omega
  · intro i h1 h2
    simp only [length_bitString] at h1
    rw [getElem_bitString, getLsbD_netmask f h]
    rw [List.getElem_append]
    by_cases hi : i < p
    · simp [hi]; omega
    · simp [hi]; omega

theorem bitString_wildcard (f : Family) {p : Nat} (h : p ≤ maxBits f) :
    bitString f (wildcard f p) = List.replicate p false ++ List.replicate (maxBits f - p) true := by
  apply List.ext_getElem
  · simp; omega
  · intro i h1 h2
    simp only [length_bitString] at h1
    rw [getElem_bitString, getLsbD_wildcard f p]
    rw [List.getElem_append]
    by_cases hi : i < p
    · simp [hi]; omega
    · simp [hi]; omega

/-! ## Leading-bit counts -/

/-- The bits m-1 down to 0 of a vector, leftmost first. -/
theorem topBits_succ (m : Nat) (v : Word) :
    (List.range (m + 1)).map (fun i => v.getLsbD (m + 1 - 1 - i))
      = v.getLsbD m :: (List.range m).map fun i => v.getLsbD (m - 1 - i) := by
  rw [List.range_succ_eq_map, List.map_cons, List.map_map]
  congr 1
  apply List.map_congr_left
  intro i _
  simp only [Function.comp]
  congr 1
  omega

theorem leadingZeros_eq (v : Word) (m : Nat) :
    leadingZeros m v = (((List.range m).map fun i => v.getLsbD (m - 1 - i)).takeWhile fun c => !c).length := by
  induction m with
  | zero => rfl
  | succ m ih =>
    rw [topBits_succ, leadingZeros, ih]
    cases v.getLsbD m <;> simp

theorem leadingOnes_eq (v : Word) (m : Nat) :
    leadingOnes m v = (((List.range m).map fun i => v.getLsbD (m - 1 - i)).takeWhile fun c => c).length := by
  induction m with
  | zero => rfl
  | succ m ih =>
    rw [topBits_succ, leadingOnes, ih]
    cases v.getLsbD m <;> simp

/-- clz counts the leading zeros of the bit string. -/
theorem clz_eq (f : Family) (v : Word) : clz f v = ((bitString f v).takeWhile fun c => !c).length :=
  leadingZeros_eq v _

/-- clo counts the leading ones of the bit string. -/
theorem clo_eq (f : Family) (v : Word) : clo f v = ((bitString f v).takeWhile fun c => c).length :=
  leadingOnes_eq v _

theorem leadingZeros_le (v : Word) (m : Nat) : leadingZeros m v ≤ m := by
  induction m with
  | zero => exact Nat.le_refl _
  | succ m ih => rw [leadingZeros]; split <;> omega

theorem leadingOnes_le (v : Word) (m : Nat) : leadingOnes m v ≤ m := by
  induction m with
  | zero => exact Nat.le_refl _
  | succ m ih => rw [leadingOnes]; split <;> omega

theorem clz_le (f : Family) (v : Word) : clz f v ≤ maxBits f := leadingZeros_le v _

theorem clo_le (f : Family) (v : Word) : clo f v ≤ maxBits f := leadingOnes_le v _

/-! ## clog2 -/

/-- One halving step. -/
theorem clog2From_succ (fuel n : Nat) :
    clog2From (fuel + 1) n = if n ≤ 1 then 0 else clog2From fuel ((n + 1) / 2) + 1 := rfl

/-- With fuel n, clog2From answers the least exponent. -/
theorem clog2From_le_iff (fuel : Nat) : ∀ n k : Nat, n ≤ fuel → (clog2From fuel n ≤ k ↔ n ≤ 2 ^ k) := by
  induction fuel with
  | zero =>
    intro n k h
    have := Nat.two_pow_pos k
    simp [clog2From]; omega
  | succ fuel ih =>
    intro n k h
    have hk := Nat.two_pow_pos k
    rw [clog2From_succ]
    split
    · simp; omega
    · next hn =>
      cases k with
      | zero => simp; omega
      | succ k =>
        rw [Nat.add_le_add_iff_right, ih _ _ (by omega), Nat.pow_succ]
        omega

/-- clog2 n is at most k exactly when n is at most 2^k (45_subnet.md R214). -/
theorem clog2_le_iff (n k : Nat) : clog2 n ≤ k ↔ n ≤ 2 ^ k := clog2From_le_iff n n k (Nat.le_refl n)

theorem clog2_eq_zero_iff (n : Nat) : clog2 n = 0 ↔ n ≤ 1 := by
  have := clog2_le_iff n 0
  simpa using this

end Sys2Proof.Machine
end

