-- ==== Sys2Proof/Laws/Encoding.lean ====
section
/-! SUPPORT. The fields of a packed command word (30_encoding.md R70): each field reads as what was packed. -/

namespace Sys2Proof

/-- Concatenation as a number. -/
theorem toNat_append_add {m n : Nat} (x : BitVec m) (y : BitVec n) :
    (x ++ y).toNat = x.toNat * 2 ^ n + y.toNat := by
  rw [BitVec.toNat_append, ← Nat.shiftLeft_add_eq_or_of_lt y.isLt, Nat.shiftLeft_eq]

@[simp] theorem toNat_regBits (r : Reg) : (regBits r).toNat = r.val := rfl

theorem toNat_packR (op : BitVec 6) (rd rs1 rs2 rs3 : Reg) (f : BitVec 14) :
    (packR op rd rs1 rs2 rs3 f).toNat
      = op.toNat * 2 ^ 26 + rd.val * 2 ^ 23 + rs1.val * 2 ^ 20 + rs2.val * 2 ^ 17 + rs3.val * 2 ^ 14 + f.toNat := by
  simp only [packR, toNat_append_add, toNat_regBits]
  omega

theorem toNat_packI (op : BitVec 6) (rd : Reg) (imm23 : BitVec 23) :
    (packI op rd imm23).toNat = op.toNat * 2 ^ 26 + rd.val * 2 ^ 23 + imm23.toNat := by
  simp only [packI, toNat_append_add, toNat_regBits]
  omega

theorem toNat_packC (op : BitVec 6) (rd rs1 : Reg) (imm11 : BitVec 11) (csr : BitVec 3) :
    (packC op rd rs1 imm11 csr).toNat
      = op.toNat * 2 ^ 26 + rd.val * 2 ^ 23 + rs1.val * 2 ^ 20 + imm11.toNat * 2 ^ 3 + csr.toNat := by
  simp only [packC, toNat_append_add, toNat_regBits]
  simp
  omega

/-! ## Fields as numbers -/

theorem toNat_opField (w : CommandWord) : (opField w).toNat = w.toNat / 2 ^ 26 % 2 ^ 6 := by
  rw [opField, BitVec.extractLsb'_toNat, Nat.shiftRight_eq_div_pow]

theorem val_rdField (w : CommandWord) : (rdField w).val = w.toNat / 2 ^ 23 % 2 ^ 3 := by
  show (w.extractLsb' 23 3).toNat = _
  rw [BitVec.extractLsb'_toNat, Nat.shiftRight_eq_div_pow]

theorem val_rs1Field (w : CommandWord) : (rs1Field w).val = w.toNat / 2 ^ 20 % 2 ^ 3 := by
  show (w.extractLsb' 20 3).toNat = _
  rw [BitVec.extractLsb'_toNat, Nat.shiftRight_eq_div_pow]

theorem val_rs2Field (w : CommandWord) : (rs2Field w).val = w.toNat / 2 ^ 17 % 2 ^ 3 := by
  show (w.extractLsb' 17 3).toNat = _
  rw [BitVec.extractLsb'_toNat, Nat.shiftRight_eq_div_pow]

theorem val_rs3Field (w : CommandWord) : (rs3Field w).val = w.toNat / 2 ^ 14 % 2 ^ 3 := by
  show (w.extractLsb' 14 3).toNat = _
  rw [BitVec.extractLsb'_toNat, Nat.shiftRight_eq_div_pow]

theorem toNat_imm23Field (w : CommandWord) : (imm23Field w).toNat = w.toNat % 2 ^ 23 := by
  rw [imm23Field, BitVec.extractLsb'_toNat, Nat.shiftRight_zero]

theorem toNat_imm11Field (w : CommandWord) : (imm11Field w).toNat = w.toNat / 2 ^ 3 % 2 ^ 11 := by
  rw [imm11Field, BitVec.extractLsb'_toNat, Nat.shiftRight_eq_div_pow]

theorem toNat_csrField (w : CommandWord) : (csrField w).toNat = w.toNat % 2 ^ 3 := by
  rw [csrField, BitVec.extractLsb'_toNat, Nat.shiftRight_zero]

theorem toNat_countField (w : CommandWord) : (countField w).toNat = w.toNat % 2 ^ 4 := by
  rw [countField, BitVec.extractLsb'_toNat, Nat.shiftRight_zero]

theorem toNat_prefField (w : CommandWord) : (prefField w).toNat = w.toNat / 2 ^ 2 % 2 ^ 2 := by
  rw [prefField, BitVec.extractLsb'_toNat, Nat.shiftRight_eq_div_pow]

/-! ## Fields of packed words -/

@[simp] theorem opField_packR (op : BitVec 6) (rd rs1 rs2 rs3 : Reg) (f : BitVec 14) :
    opField (packR op rd rs1 rs2 rs3 f) = op := by
  apply BitVec.eq_of_toNat_eq
  rw [toNat_opField, toNat_packR]
  omega

@[simp] theorem rdField_packR (op : BitVec 6) (rd rs1 rs2 rs3 : Reg) (f : BitVec 14) :
    rdField (packR op rd rs1 rs2 rs3 f) = rd := by
  apply Fin.ext
  rw [val_rdField, toNat_packR]
  omega

@[simp] theorem rs1Field_packR (op : BitVec 6) (rd rs1 rs2 rs3 : Reg) (f : BitVec 14) :
    rs1Field (packR op rd rs1 rs2 rs3 f) = rs1 := by
  apply Fin.ext
  rw [val_rs1Field, toNat_packR]
  omega

@[simp] theorem rs2Field_packR (op : BitVec 6) (rd rs1 rs2 rs3 : Reg) (f : BitVec 14) :
    rs2Field (packR op rd rs1 rs2 rs3 f) = rs2 := by
  apply Fin.ext
  rw [val_rs2Field, toNat_packR]
  omega

@[simp] theorem rs3Field_packR (op : BitVec 6) (rd rs1 rs2 rs3 : Reg) (f : BitVec 14) :
    rs3Field (packR op rd rs1 rs2 rs3 f) = rs3 := by
  apply Fin.ext
  rw [val_rs3Field, toNat_packR]
  omega

@[simp] theorem opField_packI (op : BitVec 6) (rd : Reg) (imm23 : BitVec 23) :
    opField (packI op rd imm23) = op := by
  apply BitVec.eq_of_toNat_eq
  rw [toNat_opField, toNat_packI]
  omega

@[simp] theorem rdField_packI (op : BitVec 6) (rd : Reg) (imm23 : BitVec 23) :
    rdField (packI op rd imm23) = rd := by
  apply Fin.ext
  rw [val_rdField, toNat_packI]
  omega

@[simp] theorem imm23Field_packI (op : BitVec 6) (rd : Reg) (imm23 : BitVec 23) :
    imm23Field (packI op rd imm23) = imm23 := by
  apply BitVec.eq_of_toNat_eq
  rw [toNat_imm23Field, toNat_packI]
  omega

@[simp] theorem opField_packC (op : BitVec 6) (rd rs1 : Reg) (imm11 : BitVec 11) (csr : BitVec 3) :
    opField (packC op rd rs1 imm11 csr) = op := by
  apply BitVec.eq_of_toNat_eq
  rw [toNat_opField, toNat_packC]
  omega

@[simp] theorem rdField_packC (op : BitVec 6) (rd rs1 : Reg) (imm11 : BitVec 11) (csr : BitVec 3) :
    rdField (packC op rd rs1 imm11 csr) = rd := by
  apply Fin.ext
  rw [val_rdField, toNat_packC]
  omega

@[simp] theorem rs1Field_packC (op : BitVec 6) (rd rs1 : Reg) (imm11 : BitVec 11) (csr : BitVec 3) :
    rs1Field (packC op rd rs1 imm11 csr) = rs1 := by
  apply Fin.ext
  rw [val_rs1Field, toNat_packC]
  omega

@[simp] theorem imm11Field_packC (op : BitVec 6) (rd rs1 : Reg) (imm11 : BitVec 11) (csr : BitVec 3) :
    imm11Field (packC op rd rs1 imm11 csr) = imm11 := by
  apply BitVec.eq_of_toNat_eq
  rw [toNat_imm11Field, toNat_packC]
  omega

@[simp] theorem csrField_packC (op : BitVec 6) (rd rs1 : Reg) (imm11 : BitVec 11) (csr : BitVec 3) :
    csrField (packC op rd rs1 imm11 csr) = csr := by
  apply BitVec.eq_of_toNat_eq
  rw [toNat_csrField, toNat_packC]
  omega

/-! ## The small fields -/

theorem toNat_countBits (n : BitVec 4) : (countBits n).toNat = n.toNat := by
  simp only [countBits, toNat_append_add]
  simp

@[simp] theorem countField_packR (op : BitVec 6) (rd rs1 rs2 rs3 : Reg) (n : BitVec 4) :
    countField (packR op rd rs1 rs2 rs3 (countBits n)) = n := by
  apply BitVec.eq_of_toNat_eq
  rw [toNat_countField, toNat_packR, toNat_countBits]
  omega

theorem bit0Field_eq (w : CommandWord) : bit0Field w = decide (w.toNat % 2 = 1) := by
  rw [bit0Field, BitVec.getLsbD, Nat.testBit_zero]

theorem bit1Field_eq (w : CommandWord) : bit1Field w = decide (w.toNat / 2 % 2 = 1) := by
  rw [bit1Field, BitVec.getLsbD, Nat.testBit_succ, Nat.testBit_zero]

/-- SCN's f field: h alone (R72). -/
theorem toNat_hostsOnlyBits (h : Bool) : (0#13 ++ BitVec.ofBool h : BitVec 14).toNat = h.toNat := by
  cases h <;> rfl

/-- BUDG's f field: PREF, H, S (R72). -/
theorem toNat_budgetBits (pref : BitVec 2) (hosts subnets : Bool) :
    (0#10 ++ pref ++ BitVec.ofBool hosts ++ BitVec.ofBool subnets : BitVec 14).toNat
      = pref.toNat * 4 + hosts.toNat * 2 + subnets.toNat := by
  simp only [toNat_append_add, BitVec.toNat_ofBool]
  simp
  omega

/-! ## Masks -/

/-- A word agrees with a row's match where the mask has a 1 exactly when every such bit does (30_encoding.md R71). -/
theorem and_eq_iff (w mask value : CommandWord) :
    w &&& mask = value ↔ ∀ i < 32, (w.getLsbD i && mask.getLsbD i) = value.getLsbD i := by
  constructor
  · rintro rfl i _
    exact (BitVec.getLsbD_and).symm
  · intro h
    apply BitVec.eq_of_getLsbD_eq
    intro i hi
    rw [BitVec.getLsbD_and, h i hi]

end Sys2Proof
end

