-- ==== Sys2Proof/Laws/State.lean ====
section
/-! SUPPORT. One lemma per field per update of the state, each true by rfl, so that no proof unfolds a record update. -/

namespace Sys2Proof.Machine

/-! ## `State.respond` -/

@[simp] theorem State.respond_regs (v : Word) (s : State) : (s.respond v).regs = s.regs := rfl
@[simp] theorem State.respond_fam (v : Word) (s : State) : (s.respond v).fam = s.fam := rfl
@[simp] theorem State.respond_err (v : Word) (s : State) : (s.respond v).err = s.err := rfl
@[simp] theorem State.respond_code (v : Word) (s : State) : (s.respond v).code = s.code := rfl
@[simp] theorem State.respond_eop (v : Word) (s : State) : (s.respond v).eop = s.eop := rfl
@[simp] theorem State.respond_enumValid (v : Word) (s : State) : (s.respond v).enumValid = s.enumValid := rfl
@[simp] theorem State.respond_enumP (v : Word) (s : State) : (s.respond v).enumP = s.enumP := rfl
@[simp] theorem State.respond_enumT (v : Word) (s : State) : (s.respond v).enumT = s.enumT := rfl
@[simp] theorem State.respond_enumBase (v : Word) (s : State) : (s.respond v).enumBase = s.enumBase := rfl
@[simp] theorem State.respond_busy (v : Word) (s : State) : (s.respond v).busy = false := rfl
@[simp] theorem State.respond_rsp (v : Word) (s : State) : (s.respond v).rsp = some ⟨0, v⟩ := rfl
@[simp] theorem State.respond_cmdWord (v : Word) (s : State) : (s.respond v).cmdWord = s.cmdWord := rfl
@[simp] theorem State.respond_cmdData (v : Word) (s : State) : (s.respond v).cmdData = s.cmdData := rfl
@[simp] theorem State.respond_wait (v : Word) (s : State) : (s.respond v).wait = s.wait := rfl
@[simp] theorem State.respond_inputs (v : Word) (s : State) : (s.respond v).inputs = s.inputs := rfl
@[simp] theorem State.respond_taken (v : Word) (s : State) : (s.respond v).taken = s.taken := rfl

/-! ## `State.succeed` -/

@[simp] theorem State.succeed_regs (rd : Reg) (v : Word) (s : State) : (s.succeed rd v).regs = s.regs.set rd v := rfl
@[simp] theorem State.succeed_fam (rd : Reg) (v : Word) (s : State) : (s.succeed rd v).fam = s.fam := rfl
@[simp] theorem State.succeed_err (rd : Reg) (v : Word) (s : State) : (s.succeed rd v).err = s.err := rfl
@[simp] theorem State.succeed_code (rd : Reg) (v : Word) (s : State) : (s.succeed rd v).code = s.code := rfl
@[simp] theorem State.succeed_eop (rd : Reg) (v : Word) (s : State) : (s.succeed rd v).eop = s.eop := rfl
@[simp] theorem State.succeed_enumValid (rd : Reg) (v : Word) (s : State) : (s.succeed rd v).enumValid = s.enumValid := rfl
@[simp] theorem State.succeed_enumP (rd : Reg) (v : Word) (s : State) : (s.succeed rd v).enumP = s.enumP := rfl
@[simp] theorem State.succeed_enumT (rd : Reg) (v : Word) (s : State) : (s.succeed rd v).enumT = s.enumT := rfl
@[simp] theorem State.succeed_enumBase (rd : Reg) (v : Word) (s : State) : (s.succeed rd v).enumBase = s.enumBase := rfl
@[simp] theorem State.succeed_busy (rd : Reg) (v : Word) (s : State) : (s.succeed rd v).busy = false := rfl
@[simp] theorem State.succeed_rsp (rd : Reg) (v : Word) (s : State) : (s.succeed rd v).rsp = some ⟨0, v⟩ := rfl
@[simp] theorem State.succeed_cmdWord (rd : Reg) (v : Word) (s : State) : (s.succeed rd v).cmdWord = s.cmdWord := rfl
@[simp] theorem State.succeed_cmdData (rd : Reg) (v : Word) (s : State) : (s.succeed rd v).cmdData = s.cmdData := rfl
@[simp] theorem State.succeed_wait (rd : Reg) (v : Word) (s : State) : (s.succeed rd v).wait = s.wait := rfl
@[simp] theorem State.succeed_inputs (rd : Reg) (v : Word) (s : State) : (s.succeed rd v).inputs = s.inputs := rfl
@[simp] theorem State.succeed_taken (rd : Reg) (v : Word) (s : State) : (s.succeed rd v).taken = s.taken := rfl

/-! ## `State.clearError` -/

@[simp] theorem State.clearError_regs (s : State) : (s.clearError).regs = s.regs := rfl
@[simp] theorem State.clearError_fam (s : State) : (s.clearError).fam = s.fam := rfl
@[simp] theorem State.clearError_err (s : State) : (s.clearError).err = false := rfl
@[simp] theorem State.clearError_code (s : State) : (s.clearError).code = 0 := rfl
@[simp] theorem State.clearError_eop (s : State) : (s.clearError).eop = 0 := rfl
@[simp] theorem State.clearError_enumValid (s : State) : (s.clearError).enumValid = s.enumValid := rfl
@[simp] theorem State.clearError_enumP (s : State) : (s.clearError).enumP = s.enumP := rfl
@[simp] theorem State.clearError_enumT (s : State) : (s.clearError).enumT = s.enumT := rfl
@[simp] theorem State.clearError_enumBase (s : State) : (s.clearError).enumBase = s.enumBase := rfl
@[simp] theorem State.clearError_busy (s : State) : (s.clearError).busy = s.busy := rfl
@[simp] theorem State.clearError_rsp (s : State) : (s.clearError).rsp = s.rsp := rfl
@[simp] theorem State.clearError_cmdWord (s : State) : (s.clearError).cmdWord = s.cmdWord := rfl
@[simp] theorem State.clearError_cmdData (s : State) : (s.clearError).cmdData = s.cmdData := rfl
@[simp] theorem State.clearError_wait (s : State) : (s.clearError).wait = s.wait := rfl
@[simp] theorem State.clearError_inputs (s : State) : (s.clearError).inputs = s.inputs := rfl
@[simp] theorem State.clearError_taken (s : State) : (s.clearError).taken = s.taken := rfl

/-! ## `State.recordError` -/

@[simp] theorem State.recordError_regs (e : ErrorCode) (s : State) : (s.recordError e).regs = s.regs := rfl
@[simp] theorem State.recordError_fam (e : ErrorCode) (s : State) : (s.recordError e).fam = s.fam := rfl
@[simp] theorem State.recordError_err (e : ErrorCode) (s : State) : (s.recordError e).err = true := rfl
@[simp] theorem State.recordError_code (e : ErrorCode) (s : State) : (s.recordError e).code = if s.err then s.code else e.number := rfl
@[simp] theorem State.recordError_eop (e : ErrorCode) (s : State) : (s.recordError e).eop = if s.err then s.eop else opField s.cmdWord := rfl
@[simp] theorem State.recordError_enumValid (e : ErrorCode) (s : State) : (s.recordError e).enumValid = s.enumValid := rfl
@[simp] theorem State.recordError_enumP (e : ErrorCode) (s : State) : (s.recordError e).enumP = s.enumP := rfl
@[simp] theorem State.recordError_enumT (e : ErrorCode) (s : State) : (s.recordError e).enumT = s.enumT := rfl
@[simp] theorem State.recordError_enumBase (e : ErrorCode) (s : State) : (s.recordError e).enumBase = s.enumBase := rfl
@[simp] theorem State.recordError_busy (e : ErrorCode) (s : State) : (s.recordError e).busy = s.busy := rfl
@[simp] theorem State.recordError_rsp (e : ErrorCode) (s : State) : (s.recordError e).rsp = s.rsp := rfl
@[simp] theorem State.recordError_cmdWord (e : ErrorCode) (s : State) : (s.recordError e).cmdWord = s.cmdWord := rfl
@[simp] theorem State.recordError_cmdData (e : ErrorCode) (s : State) : (s.recordError e).cmdData = s.cmdData := rfl
@[simp] theorem State.recordError_wait (e : ErrorCode) (s : State) : (s.recordError e).wait = s.wait := rfl
@[simp] theorem State.recordError_inputs (e : ErrorCode) (s : State) : (s.recordError e).inputs = s.inputs := rfl
@[simp] theorem State.recordError_taken (e : ErrorCode) (s : State) : (s.recordError e).taken = s.taken := rfl

/-! ## `State.raise` -/

@[simp] theorem State.raise_regs (e : ErrorCode) (s : State) : (s.raise e).regs = s.regs := rfl
@[simp] theorem State.raise_fam (e : ErrorCode) (s : State) : (s.raise e).fam = s.fam := rfl
@[simp] theorem State.raise_err (e : ErrorCode) (s : State) : (s.raise e).err = true := rfl
@[simp] theorem State.raise_code (e : ErrorCode) (s : State) : (s.raise e).code = if s.err then s.code else e.number := rfl
@[simp] theorem State.raise_eop (e : ErrorCode) (s : State) : (s.raise e).eop = if s.err then s.eop else opField s.cmdWord := rfl
@[simp] theorem State.raise_enumValid (e : ErrorCode) (s : State) : (s.raise e).enumValid = s.enumValid := rfl
@[simp] theorem State.raise_enumP (e : ErrorCode) (s : State) : (s.raise e).enumP = s.enumP := rfl
@[simp] theorem State.raise_enumT (e : ErrorCode) (s : State) : (s.raise e).enumT = s.enumT := rfl
@[simp] theorem State.raise_enumBase (e : ErrorCode) (s : State) : (s.raise e).enumBase = s.enumBase := rfl
@[simp] theorem State.raise_busy (e : ErrorCode) (s : State) : (s.raise e).busy = false := rfl
@[simp] theorem State.raise_rsp (e : ErrorCode) (s : State) : (s.raise e).rsp = some ⟨e.number, 0⟩ := rfl
@[simp] theorem State.raise_cmdWord (e : ErrorCode) (s : State) : (s.raise e).cmdWord = s.cmdWord := rfl
@[simp] theorem State.raise_cmdData (e : ErrorCode) (s : State) : (s.raise e).cmdData = s.cmdData := rfl
@[simp] theorem State.raise_wait (e : ErrorCode) (s : State) : (s.raise e).wait = s.wait := rfl
@[simp] theorem State.raise_inputs (e : ErrorCode) (s : State) : (s.raise e).inputs = s.inputs := rfl
@[simp] theorem State.raise_taken (e : ErrorCode) (s : State) : (s.raise e).taken = s.taken := rfl

/-! ## `State.writeCfg` -/

@[simp] theorem State.writeCfg_regs (v : Word) (s : State) : (s.writeCfg v).regs = s.regs := rfl
@[simp] theorem State.writeCfg_fam (v : Word) (s : State) : (s.writeCfg v).fam = familyOfBit (v.getLsbD 0) := rfl
@[simp] theorem State.writeCfg_err (v : Word) (s : State) : (s.writeCfg v).err = s.err := rfl
@[simp] theorem State.writeCfg_code (v : Word) (s : State) : (s.writeCfg v).code = s.code := rfl
@[simp] theorem State.writeCfg_eop (v : Word) (s : State) : (s.writeCfg v).eop = s.eop := rfl
@[simp] theorem State.writeCfg_enumValid (v : Word) (s : State) : (s.writeCfg v).enumValid = false := rfl
@[simp] theorem State.writeCfg_enumP (v : Word) (s : State) : (s.writeCfg v).enumP = s.enumP := rfl
@[simp] theorem State.writeCfg_enumT (v : Word) (s : State) : (s.writeCfg v).enumT = s.enumT := rfl
@[simp] theorem State.writeCfg_enumBase (v : Word) (s : State) : (s.writeCfg v).enumBase = s.enumBase := rfl
@[simp] theorem State.writeCfg_busy (v : Word) (s : State) : (s.writeCfg v).busy = s.busy := rfl
@[simp] theorem State.writeCfg_rsp (v : Word) (s : State) : (s.writeCfg v).rsp = s.rsp := rfl
@[simp] theorem State.writeCfg_cmdWord (v : Word) (s : State) : (s.writeCfg v).cmdWord = s.cmdWord := rfl
@[simp] theorem State.writeCfg_cmdData (v : Word) (s : State) : (s.writeCfg v).cmdData = s.cmdData := rfl
@[simp] theorem State.writeCfg_wait (v : Word) (s : State) : (s.writeCfg v).wait = s.wait := rfl
@[simp] theorem State.writeCfg_inputs (v : Word) (s : State) : (s.writeCfg v).inputs = s.inputs := rfl
@[simp] theorem State.writeCfg_taken (v : Word) (s : State) : (s.writeCfg v).taken = s.taken := rfl

/-! ## `State.setEnumeration` -/

@[simp] theorem State.setEnumeration_regs (e : Enumeration) (s : State) : (s.setEnumeration e).regs = s.regs := rfl
@[simp] theorem State.setEnumeration_fam (e : Enumeration) (s : State) : (s.setEnumeration e).fam = s.fam := rfl
@[simp] theorem State.setEnumeration_err (e : Enumeration) (s : State) : (s.setEnumeration e).err = s.err := rfl
@[simp] theorem State.setEnumeration_code (e : Enumeration) (s : State) : (s.setEnumeration e).code = s.code := rfl
@[simp] theorem State.setEnumeration_eop (e : Enumeration) (s : State) : (s.setEnumeration e).eop = s.eop := rfl
@[simp] theorem State.setEnumeration_enumValid (e : Enumeration) (s : State) : (s.setEnumeration e).enumValid = true := rfl
@[simp] theorem State.setEnumeration_enumP (e : Enumeration) (s : State) : (s.setEnumeration e).enumP = BitVec.ofNat 8 e.p := rfl
@[simp] theorem State.setEnumeration_enumT (e : Enumeration) (s : State) : (s.setEnumeration e).enumT = BitVec.ofNat 8 e.t := rfl
@[simp] theorem State.setEnumeration_enumBase (e : Enumeration) (s : State) : (s.setEnumeration e).enumBase = e.base := rfl
@[simp] theorem State.setEnumeration_busy (e : Enumeration) (s : State) : (s.setEnumeration e).busy = s.busy := rfl
@[simp] theorem State.setEnumeration_rsp (e : Enumeration) (s : State) : (s.setEnumeration e).rsp = s.rsp := rfl
@[simp] theorem State.setEnumeration_cmdWord (e : Enumeration) (s : State) : (s.setEnumeration e).cmdWord = s.cmdWord := rfl
@[simp] theorem State.setEnumeration_cmdData (e : Enumeration) (s : State) : (s.setEnumeration e).cmdData = s.cmdData := rfl
@[simp] theorem State.setEnumeration_wait (e : Enumeration) (s : State) : (s.setEnumeration e).wait = s.wait := rfl
@[simp] theorem State.setEnumeration_inputs (e : Enumeration) (s : State) : (s.setEnumeration e).inputs = s.inputs := rfl
@[simp] theorem State.setEnumeration_taken (e : Enumeration) (s : State) : (s.setEnumeration e).taken = s.taken := rfl

/-! ## `State.accept` -/

@[simp] theorem State.accept_regs (p : PortSample) (s : State) : (s.accept p).regs = s.regs := rfl
@[simp] theorem State.accept_fam (p : PortSample) (s : State) : (s.accept p).fam = s.fam := rfl
@[simp] theorem State.accept_err (p : PortSample) (s : State) : (s.accept p).err = s.err := rfl
@[simp] theorem State.accept_code (p : PortSample) (s : State) : (s.accept p).code = s.code := rfl
@[simp] theorem State.accept_eop (p : PortSample) (s : State) : (s.accept p).eop = s.eop := rfl
@[simp] theorem State.accept_enumValid (p : PortSample) (s : State) : (s.accept p).enumValid = s.enumValid := rfl
@[simp] theorem State.accept_enumP (p : PortSample) (s : State) : (s.accept p).enumP = s.enumP := rfl
@[simp] theorem State.accept_enumT (p : PortSample) (s : State) : (s.accept p).enumT = s.enumT := rfl
@[simp] theorem State.accept_enumBase (p : PortSample) (s : State) : (s.accept p).enumBase = s.enumBase := rfl
@[simp] theorem State.accept_busy (p : PortSample) (s : State) : (s.accept p).busy = true := rfl
@[simp] theorem State.accept_rsp (p : PortSample) (s : State) : (s.accept p).rsp = s.rsp := rfl
@[simp] theorem State.accept_cmdWord (p : PortSample) (s : State) : (s.accept p).cmdWord = p.cmdWord := rfl
@[simp] theorem State.accept_cmdData (p : PortSample) (s : State) : (s.accept p).cmdData = p.cmdData := rfl
@[simp] theorem State.accept_wait (p : PortSample) (s : State) : (s.accept p).wait = p.wait := rfl
@[simp] theorem State.accept_inputs (p : PortSample) (s : State) : (s.accept p).inputs = s.inputs := rfl
@[simp] theorem State.accept_taken (p : PortSample) (s : State) : (s.accept p).taken = s.taken := rfl

/-! ## `State.takeResponse` -/

@[simp] theorem State.takeResponse_regs (r : Response) (s : State) : (s.takeResponse r).regs = s.regs := rfl
@[simp] theorem State.takeResponse_fam (r : Response) (s : State) : (s.takeResponse r).fam = s.fam := rfl
@[simp] theorem State.takeResponse_err (r : Response) (s : State) : (s.takeResponse r).err = s.err := rfl
@[simp] theorem State.takeResponse_code (r : Response) (s : State) : (s.takeResponse r).code = s.code := rfl
@[simp] theorem State.takeResponse_eop (r : Response) (s : State) : (s.takeResponse r).eop = s.eop := rfl
@[simp] theorem State.takeResponse_enumValid (r : Response) (s : State) : (s.takeResponse r).enumValid = s.enumValid := rfl
@[simp] theorem State.takeResponse_enumP (r : Response) (s : State) : (s.takeResponse r).enumP = s.enumP := rfl
@[simp] theorem State.takeResponse_enumT (r : Response) (s : State) : (s.takeResponse r).enumT = s.enumT := rfl
@[simp] theorem State.takeResponse_enumBase (r : Response) (s : State) : (s.takeResponse r).enumBase = s.enumBase := rfl
@[simp] theorem State.takeResponse_busy (r : Response) (s : State) : (s.takeResponse r).busy = s.busy := rfl
@[simp] theorem State.takeResponse_rsp (r : Response) (s : State) : (s.takeResponse r).rsp = none := rfl
@[simp] theorem State.takeResponse_cmdWord (r : Response) (s : State) : (s.takeResponse r).cmdWord = s.cmdWord := rfl
@[simp] theorem State.takeResponse_cmdData (r : Response) (s : State) : (s.takeResponse r).cmdData = s.cmdData := rfl
@[simp] theorem State.takeResponse_wait (r : Response) (s : State) : (s.takeResponse r).wait = s.wait := rfl
@[simp] theorem State.takeResponse_inputs (r : Response) (s : State) : (s.takeResponse r).inputs = s.inputs := rfl
@[simp] theorem State.takeResponse_taken (r : Response) (s : State) : (s.takeResponse r).taken = s.taken ++ [r] := rfl

/-! ## `State.resetEdge` -/

@[simp] theorem State.resetEdge_regs (s : State) : s.resetEdge.regs = State.reset.regs := rfl
@[simp] theorem State.resetEdge_fam (s : State) : s.resetEdge.fam = State.reset.fam := rfl
@[simp] theorem State.resetEdge_err (s : State) : s.resetEdge.err = State.reset.err := rfl
@[simp] theorem State.resetEdge_code (s : State) : s.resetEdge.code = State.reset.code := rfl
@[simp] theorem State.resetEdge_eop (s : State) : s.resetEdge.eop = State.reset.eop := rfl
@[simp] theorem State.resetEdge_enumValid (s : State) : s.resetEdge.enumValid = State.reset.enumValid := rfl
@[simp] theorem State.resetEdge_enumP (s : State) : s.resetEdge.enumP = State.reset.enumP := rfl
@[simp] theorem State.resetEdge_enumT (s : State) : s.resetEdge.enumT = State.reset.enumT := rfl
@[simp] theorem State.resetEdge_enumBase (s : State) : s.resetEdge.enumBase = State.reset.enumBase := rfl
@[simp] theorem State.resetEdge_busy (s : State) : s.resetEdge.busy = State.reset.busy := rfl
@[simp] theorem State.resetEdge_rsp (s : State) : s.resetEdge.rsp = State.reset.rsp := rfl
@[simp] theorem State.resetEdge_cmdWord (s : State) : s.resetEdge.cmdWord = State.reset.cmdWord := rfl
@[simp] theorem State.resetEdge_cmdData (s : State) : s.resetEdge.cmdData = State.reset.cmdData := rfl
@[simp] theorem State.resetEdge_wait (s : State) : s.resetEdge.wait = State.reset.wait := rfl
@[simp] theorem State.resetEdge_inputs (s : State) : s.resetEdge.inputs = s.inputs := rfl
@[simp] theorem State.resetEdge_taken (s : State) : s.resetEdge.taken = s.taken := rfl

/-! ## Registers -/

/-- A register read after a write of the register file. -/
theorem State.reg_eq (s : State) (r : Reg) : s.reg r = s.regs[r] := rfl

/-- `State.reg` reads the register file only. -/
theorem State.reg_congr {s t : State} (h : t.regs = s.regs) (r : Reg) : t.reg r = s.reg r := by
  simp [State.reg, h]

@[simp] theorem State.reg_succeed_self (s : State) (rd : Reg) (v : Word) : (s.succeed rd v).reg rd = v := by
  simp [State.reg]

theorem State.reg_succeed_of_ne (s : State) {rd r : Reg} (v : Word) (h : r ≠ rd) :
    (s.succeed rd v).reg r = s.reg r := by
  have : (rd : Nat) ≠ r := fun e => h (Fin.ext e.symm)
  simp [State.reg, this]

@[simp] theorem State.reg_reset (r : Reg) : State.reset.reg r = 0 := by
  simp [State.reg, State.reset]

end Sys2Proof.Machine
end

