-- ==== Sys2Proof/Laws/Operands.lean ====
section
/-! SUPPORT. When an operand reads, and what it reads as (00_scope.md R11, R12; 30_encoding.md R88). -/

namespace Sys2Proof.Machine

/-! ## Vectors -/

theorem vecOf_ok {f : Family} {v : Word} (h : v.toNat < 2 ^ maxBits f) : vecOf f v = .ok v := by
  simp [vecOf, (wf_iff f v).2 h]

theorem vecOf_error {f : Family} {v : Word} (h : 2 ^ maxBits f ≤ v.toNat) : vecOf f v = .error .format := by
  have : wf f v = false := by
    rw [Bool.eq_false_iff]
    exact fun hw => absurd ((wf_iff f v).1 hw) (by omega)
  simp [vecOf, this]

/-- Everything a vector operand can do. -/
theorem vecOf_cases (f : Family) (v : Word) :
    (v.toNat < 2 ^ maxBits f ∧ vecOf f v = .ok v) ∨
    (2 ^ maxBits f ≤ v.toNat ∧ vecOf f v = .error .format) := by
  rcases Nat.lt_or_ge v.toNat (2 ^ maxBits f) with h | h
  · exact .inl ⟨h, vecOf_ok h⟩
  · exact .inr ⟨h, vecOf_error h⟩

/-! ## Prefixes -/

theorem prefixOf_ok {f : Family} {v : Word} {p : Nat} (h : p ≤ maxBits f) (hv : v.toNat = p) :
    prefixOf f v = .ok p := by
  have hm := maxBits_le f
  have hi : v.toInt = p := by rw [BitVec.toInt_eq_toNat_cond]; split <;> omega
  have hn : (v.extractLsb' 0 8).toNat = p := by
    rw [BitVec.extractLsb'_toNat, hv, Nat.shiftRight_zero]
    omega
  simp [prefixOf, hi, hn, h]

theorem prefixOf_error {f : Family} {v : Word} (h : v.toInt < 0 ∨ (maxBits f : Int) < v.toInt) :
    prefixOf f v = .error .range := by
  simp [prefixOf, h]

/-- Everything a prefix operand can do. -/
theorem prefixOf_cases (f : Family) (v : Word) :
    (v.toNat ≤ maxBits f ∧ prefixOf f v = .ok v.toNat) ∨
    ((v.toInt < 0 ∨ (maxBits f : Int) < v.toInt) ∧ prefixOf f v = .error .range) := by
  by_cases h : v.toInt < 0 ∨ (maxBits f : Int) < v.toInt
  · exact .inr ⟨h, prefixOf_error h⟩
  · refine .inl ⟨?_, prefixOf_ok ?_ rfl⟩ <;>
    · have hm := maxBits_le f
      have := v.isLt
      rw [BitVec.toInt_eq_toNat_cond] at h
      split at h <;> omega

/-! ## The family check -/

theorem State.familyOneOnly_ok {s : State} (h : s.fam = .family1) : s.familyOneOnly = .ok () := by
  simp [State.familyOneOnly, h]

theorem State.familyOneOnly_error {s : State} (h : s.fam = .family2) : s.familyOneOnly = .error .unsupported := by
  simp [State.familyOneOnly, h]

/-! ## BUDG's preference -/

theorem preferenceOf_three : preferenceOf 3#2 = .error .illegal := rfl

/-- A preference is read from every PREF but 3. -/
theorem preferenceOf_ok {pref : BitVec 2} (h : pref ≠ 3#2) : ∃ p, preferenceOf pref = .ok p := by
  have hc : pref = 0 ∨ pref = 1 ∨ pref = 2 ∨ pref = 3 := by clear h; revert pref; decide
  rcases hc with rfl | rfl | rfl | rfl
  · exact ⟨_, rfl⟩
  · exact ⟨_, rfl⟩
  · exact ⟨_, rfl⟩
  · exact absurd rfl h

end Sys2Proof.Machine
end

