-- ==== Sys2Proof/Laws/Ops.lean ====
section
/-! SUPPORT. What the shared operations do to a state, in the terms of the claims: the three ways a command ends, the
control register writes, and the bind of an operand with the rest of a command. -/

namespace Sys2Proof.Machine

open Sys2Proof.Safety

/-! ## Except -/

@[simp] theorem except_bind_ok {α β : Type} (a : α) (k : α → Except ErrorCode β) :
    (Except.ok a >>= k) = k a := rfl

@[simp] theorem except_bind_error {α β : Type} (e : ErrorCode) (k : α → Except ErrorCode β) :
    ((Except.error e : Except ErrorCode α) >>= k) = .error e := rfl

@[simp] theorem except_pure {α : Type} (a : α) : (pure a : Except ErrorCode α) = .ok a := rfl

@[simp] theorem except_throw {α : Type} (e : ErrorCode) : (throw e : Except ErrorCode α) = .error e := rfl

/-! ## The ends of a command -/

theorem State.writesOnly_succeed (s : State) (rd : Reg) (v : Word) : WritesOnly rd v s (s.succeed rd v) where
  result := by simp
  others := fun _ h => State.reg_succeed_of_ne s v h
  fam := rfl
  record := ⟨rfl, rfl, rfl⟩
  enumerator := ⟨rfl, rfl, rfl, rfl⟩
  ports := ⟨rfl, rfl, rfl, rfl, rfl⟩
  answer := ⟨rfl, rfl⟩

theorem State.answersOnly_respond (s : State) (v : Word) : AnswersOnly v s (s.respond v) where
  regs := fun _ => rfl
  fam := rfl
  record := ⟨rfl, rfl, rfl⟩
  enumerator := ⟨rfl, rfl, rfl, rfl⟩
  ports := ⟨rfl, rfl, rfl, rfl, rfl⟩
  answer := ⟨rfl, rfl⟩

theorem State.raised_raise (s : State) (e : ErrorCode) : Raised e s (s.raise e) where
  regs := fun _ => rfl
  fam := rfl
  enumerator := ⟨rfl, rfl, rfl, rfl⟩
  ports := ⟨rfl, rfl, rfl, rfl, rfl⟩
  err := rfl
  firstCode := fun h => by simp [h]
  firstEop := fun h => by simp [h, opField]
  keptCode := fun h => by simp [h]
  keptEop := fun h => by simp [h]
  answer := ⟨rfl, rfl⟩

theorem State.finish_ok (s : State) (rd : Reg) (v : Word) : s.finish rd (.ok v) = .next (s.succeed rd v) := rfl

theorem State.finish_error (s : State) (rd : Reg) (e : ErrorCode) : s.finish rd (.error e) = .next (s.raise e) := rfl

/-- Everything the end of a computing command can do. -/
theorem State.finish_cases (s : State) (rd : Reg) (x : Except ErrorCode Word) :
    (∃ v, x = .ok v ∧ s.finish rd x = .next (s.succeed rd v)) ∨
    (∃ e, x = .error e ∧ s.finish rd x = .next (s.raise e)) := by
  cases x with
  | ok v => exact .inl ⟨v, rfl, rfl⟩
  | error e => exact .inr ⟨e, rfl, rfl⟩

/-! ## Control register writes -/

theorem State.cfgWritten (s : State) (v : Word) : CfgWritten v s ((s.writeCfg v).respond 0) where
  fam := rfl
  enumValid := rfl
  enumP := rfl
  enumT := rfl
  enumBase := rfl
  regs := fun _ => rfl
  record := ⟨rfl, rfl, rfl⟩
  ports := ⟨rfl, rfl, rfl, rfl, rfl⟩
  answer := ⟨rfl, rfl⟩

theorem State.statusWritten (s : State) (v : Word) : StatusWritten v s ((s.writeStatus v).respond 0) := by
  cases h : v.getLsbD 0
  · have e : s.writeStatus v = s := if_neg (by rw [h]; decide)
    rw [e]
    exact ⟨fun h' => absurd (h.symm.trans h') (by decide), fun _ => ⟨rfl, rfl, rfl⟩, fun _ => rfl, rfl, ⟨rfl, rfl, rfl, rfl⟩,
      ⟨rfl, rfl, rfl, rfl, rfl⟩, ⟨rfl, rfl⟩⟩
  · have e : s.writeStatus v = s.clearError := if_pos h
    rw [e]
    exact ⟨fun _ => ⟨rfl, rfl, rfl⟩, fun h' => absurd (h.symm.trans h') (by decide), fun _ => rfl, rfl, ⟨rfl, rfl, rfl, rfl⟩,
      ⟨rfl, rfl, rfl, rfl, rfl⟩, ⟨rfl, rfl⟩⟩

/-- Everything a control register write can do (10_state.md R27). -/
theorem State.finishCsrWrite_cases (s : State) (n : BitVec 3) (v : Word) :
    (n = 0 ∧ s.finishCsrWrite n v = .next ((s.writeCfg v).respond 0)) ∨
    (n = 1 ∧ s.finishCsrWrite n v = .next ((s.writeStatus v).respond 0)) ∨
    (2 ≤ n.toNat ∧ s.finishCsrWrite n v = .next (s.raise .illegal)) := by
  have h : n = 0 ∨ n = 1 ∨ 2 ≤ n.toNat := by revert n; decide
  rcases h with rfl | rfl | h
  · exact .inl ⟨rfl, rfl⟩
  · exact .inr (.inl ⟨rfl, rfl⟩)
  · refine .inr (.inr ⟨h, ?_⟩)
    have : s.writeCsr n v = .error .illegal := by
      rw [State.writeCsr]
      split
      · omega
      · omega
      · rfl
    simp [State.finishCsrWrite, this]

/-! ## A configured enumerator -/

theorem State.setEnumeration_succeed_configured (s : State) (rd : Reg) (e : Enumeration) (v : Word)
    (hp : e.p < 256) (ht : e.t < 256) :
    Configured rd e.base.toNat e.p e.t v.toNat s ((s.setEnumeration e).succeed rd v) where
  enumValid := rfl
  enumP := by simp; omega
  enumT := by simp; omega
  enumBase := rfl
  result := by simp
  others := fun _ h => State.reg_succeed_of_ne _ v h
  fam := rfl
  record := ⟨rfl, rfl, rfl⟩
  ports := ⟨rfl, rfl, rfl, rfl, rfl⟩
  answer := ⟨rfl, by simp⟩

end Sys2Proof.Machine
end

