-- ==== Sys2Proof/Laws/Exec.lean ====
section
/-! SUPPORT. Everything a command can do, said once: every command ends in one of the six ways of `Ends`, and the errors
it can raise are those of 60_exceptions.md R241. -/

namespace Sys2Proof.Machine

open Sys2Proof.Safety

/-! ## Which errors a computation can raise -/

/-- Every error that x raises satisfies P. -/
def Errs (P : ErrorCode → Prop) {α : Type} (x : Except ErrorCode α) : Prop := ∀ e, x = .error e → P e

theorem Errs.ok {P : ErrorCode → Prop} {α : Type} (a : α) : Errs P (Except.ok a : Except ErrorCode α) :=
  fun _ h => by cases h

theorem Errs.error {P : ErrorCode → Prop} {α : Type} {e : ErrorCode} (h : P e) :
    Errs P (Except.error e : Except ErrorCode α) :=
  fun _ h' => by cases h'; exact h

theorem Errs.bind {P : ErrorCode → Prop} {α β : Type} {x : Except ErrorCode α} {k : α → Except ErrorCode β}
    (hx : Errs P x) (hk : ∀ a, Errs P (k a)) : Errs P (x >>= k) := by
  cases x with
  | ok a => exact hk a
  | error e => exact Errs.error (hx e rfl)

theorem Errs.ite {P : ErrorCode → Prop} {α : Type} {c : Prop} [Decidable c] {x y : Except ErrorCode α}
    (hx : Errs P x) (hy : Errs P y) : Errs P (if c then x else y) := by
  split
  · exact hx
  · exact hy

theorem Errs.check {P : ErrorCode → Prop} {c : Bool} {e : ErrorCode} (h : P e) : Errs P (check c e) :=
  Errs.ite (Errs.ok _) (Errs.error h)

/-- The errors a command can raise: never UsageError, UnsupportedError only from a family-1-only command in family 2. -/
def MayRaise (i : Instr) (s : State) (e : ErrorCode) : Prop :=
  e ≠ .usage ∧ (e = .unsupported → familyOneOnlyCommand i = true ∧ s.fam = .family2)

/-- The errors of operands and of a command's own checks. -/
def DataError (e : ErrorCode) : Prop := e ≠ .usage ∧ e ≠ .unsupported

theorem DataError.mayRaise {e : ErrorCode} (h : DataError e) (i : Instr) (s : State) : MayRaise i s e :=
  ⟨h.1, fun h' => absurd h' h.2⟩

theorem dataError_range : DataError .range := ⟨by decide, by decide⟩
theorem dataError_format : DataError .format := ⟨by decide, by decide⟩
theorem dataError_illegal : DataError .illegal := ⟨by decide, by decide⟩
theorem dataError_sequence : DataError .sequence := ⟨by decide, by decide⟩

theorem Errs.mayRaise {α : Type} {x : Except ErrorCode α} (h : Errs DataError x) (i : Instr) (s : State) :
    Errs (MayRaise i s) x := fun e he => (h e he).mayRaise i s

theorem State.vec_errs (s : State) (r : Reg) : Errs DataError (s.vec r) :=
  Errs.ite (Errs.ok _) (Errs.error dataError_format)

theorem State.pfx_errs (s : State) (r : Reg) : Errs DataError (s.pfx r) :=
  Errs.ite (Errs.error dataError_range) (Errs.ok _)

theorem State.familyOneOnly_errs {i : Instr} (h : familyOneOnlyCommand i = true) (s : State) :
    Errs (MayRaise i s) s.familyOneOnly := by
  cases hf : s.fam with
  | family1 => rw [State.familyOneOnly_ok hf]; exact Errs.ok _
  | family2 => rw [State.familyOneOnly_error hf]; exact Errs.error ⟨by decide, fun _ => ⟨h, hf⟩⟩

theorem State.addressAndPrefix_errs {i : Instr} (h : familyOneOnlyCommand i = true) (rs1 rs2 : Reg) (s : State) :
    Errs (MayRaise i s) (s.addressAndPrefix rs1 rs2) :=
  Errs.bind (s.familyOneOnly_errs h) fun _ => Errs.bind ((s.vec_errs rs1).mayRaise i s) fun _ =>
    Errs.bind ((s.pfx_errs rs2).mayRaise i s) fun _ => Errs.ok _

theorem State.readCsr_errs (n : BitVec 3) (s : State) : Errs DataError (s.readCsr n) := by
  rw [State.readCsr]
  split
  · exact Errs.ok _
  · exact Errs.ok _
  · exact Errs.ok _
  · exact Errs.ok _
  · exact Errs.ok _
  · exact Errs.error dataError_illegal

theorem decodeBlock_errs (f : Family) (l : BitVec 16) : Errs DataError (decodeBlock f l) := by
  cases f with
  | family1 =>
    exact Errs.ite (Errs.error dataError_format) (Errs.ite (Errs.error dataError_format)
      (Errs.ite (Errs.error dataError_format) (Errs.ok _)))
  | family2 => exact Errs.ok _

theorem joinBlocks_errs (f : Family) (lanes : Word) (n : Nat) : Errs DataError (joinBlocks f lanes n) := by
  induction n with
  | zero => exact Errs.ok _
  | succ n ih => exact Errs.bind ih fun _ => Errs.bind (decodeBlock_errs _ _) fun _ => Errs.ok _

theorem blocksToBits_errs (f : Family) (nb : Nat) (lanes : Word) : Errs DataError (blocksToBits f nb lanes) :=
  Errs.ite (Errs.error dataError_format) (Errs.ite (Errs.error dataError_format) (joinBlocks_errs _ _ _))

theorem preferenceOf_errs (pref : BitVec 2) : Errs DataError (preferenceOf pref) := by
  rw [preferenceOf]
  split
  · exact Errs.ok _
  · exact Errs.ok _
  · exact Errs.ok _
  · exact Errs.error dataError_illegal

theorem reconcile_errs (b : BitBudget) (avail : Nat) (single : Bool) (pref : Preference) :
    Errs DataError (b.reconcile avail single pref) :=
  Errs.ite (Errs.ok _) (Errs.ite (Errs.ite (Errs.error dataError_range) (Errs.ok _)) (Errs.ok _))

theorem requestedNetBits_errs (n : Option Nat) : Errs DataError (requestedNetBits n) := by
  cases n with
  | none => exact Errs.ok _
  | some n => exact Errs.ite (Errs.error dataError_range) (Errs.ok _)

theorem budgetTarget_errs (f : Family) (p : Nat) (subnets hosts : Option Nat) (pref : Preference) :
    Errs DataError (budgetTarget f p subnets hosts pref) := by
  exact Errs.bind (requestedNetBits_errs _) fun _ => Errs.bind (reconcile_errs _ _ _ _) fun _ =>
    Errs.bind (Errs.check dataError_range) fun _ => Errs.ok _

/-! ## The ends of a command -/

/-- The six ways a command i ends in state s. -/
inductive Ends (i : Instr) (s : State) : State → Prop where
  /-- A value was computed for rd. -/
  | wrote (rd : Reg) (v : Word) (hd : destination i = some rd) (hc : ∀ a b c d, i ≠ .subcfg a b c d) :
      Ends i s (s.succeed rd v)
  /-- NOP and RD. -/
  | answered (v : Word) (hd : destination i = none) (hw : csrWriteOf s i = none) (hn : i = .nop → v = 0)
      (hr : ∀ rs1, i = .rd rs1 → v = s.reg rs1) : Ends i s (s.respond v)
  /-- A CFG write. -/
  | wroteCfg (v : Word) (hw : csrWriteOf s i = some (0, v)) : Ends i s ((s.writeCfg v).respond 0)
  /-- A STATUS write. -/
  | wroteStatus (v : Word) (hw : csrWriteOf s i = some (1, v)) : Ends i s ((s.writeStatus v).respond 0)
  /-- SUBCFG stored a configuration. -/
  | configured (rd rs1 rs2 rs3 : Reg) (e : Enumeration) (hi : i = .subcfg rd rs1 rs2 rs3)
      (he : s.enumerationOf rs1 rs2 rs3 = .ok e) :
      Ends i s ((s.setEnumeration e).succeed rd (BitVec.ofNat 128 (2 ^ (e.t - e.p))))
  /-- An error. -/
  | raised (e : ErrorCode) (he : MayRaise i s e) : Ends i s (s.raise e)

/-- A command whose meaning is one computed result ends by writing it or by raising its error. -/
theorem ends_finish {i : Instr} {s : State} {rd : Reg} {x : Except ErrorCode Word} (hd : destination i = some rd)
    (hc : ∀ a b c d, i ≠ .subcfg a b c d) (hx : Errs (MayRaise i s) x) :
    ∃ t, s.finish rd x = .next t ∧ Ends i s t := by
  cases x with
  | ok v => exact ⟨_, rfl, .wrote rd v hd hc⟩
  | error e => exact ⟨_, rfl, .raised e (hx e rfl)⟩

theorem ends_finishCsrWrite {i : Instr} {s : State} {n : BitVec 3} {v : Word} (hw : csrWriteOf s i = some (n, v)) :
    ∃ t, s.finishCsrWrite n v = .next t ∧ Ends i s t := by
  rcases s.finishCsrWrite_cases n v with ⟨rfl, h⟩ | ⟨rfl, h⟩ | ⟨_, h⟩
  · exact ⟨_, h, .wroteCfg v hw⟩
  · exact ⟨_, h, .wroteStatus v hw⟩
  · exact ⟨_, h, .raised _ (dataError_illegal.mayRaise i s)⟩

/-- One operand, then a value. -/
theorem errs_vec_map (i : Instr) (s : State) (r : Reg) (k : Word → Word) :
    Errs (MayRaise i s) (s.vec r >>= fun v => pure (k v)) :=
  Errs.bind ((s.vec_errs r).mayRaise i s) fun _ => Errs.ok _

/-- An address and a prefix, then a value. -/
theorem errs_addressAndPrefix_bind {i : Instr} (h : familyOneOnlyCommand i = true) (s : State) (rs1 rs2 : Reg)
    {k : Word × Nat → Except ErrorCode Word} (hk : ∀ a, Errs (MayRaise i s) (k a)) :
    Errs (MayRaise i s) (s.addressAndPrefix rs1 rs2 >>= k) :=
  Errs.bind (s.addressAndPrefix_errs h rs1 rs2) hk

/-- Everything a command can do: it goes on, in one of the six ways. -/
theorem exec_ends (i : Instr) (s : State) : ∃ t, exec i s = .next t ∧ Ends i s t := by
  cases i with
  | nop => exact ⟨_, rfl, .answered 0 rfl rfl (fun _ => rfl) (fun _ h => by cases h)⟩
  | ldi rd imm => exact ⟨_, rfl, .wrote rd _ rfl (fun _ _ _ _ h => by cases h)⟩
  | wr rd => exact ⟨_, rfl, .wrote rd _ rfl (fun _ _ _ _ h => by cases h)⟩
  | rd rs1 => exact ⟨_, rfl, .answered _ rfl rfl (fun h => by cases h) (fun _ h => by cases h; rfl)⟩
  | mov rd rs1 => exact ⟨_, rfl, .wrote rd _ rfl (fun _ _ _ _ h => by cases h)⟩
  | csrr rd n => exact ends_finish rfl (fun _ _ _ _ h => by cases h) ((s.readCsr_errs n).mayRaise _ s)
  | csrw n rs1 => exact ends_finishCsrWrite rfl
  | csrwi n imm => exact ends_finishCsrWrite rfl
  | mask rd rs1 | wild rd rs1 =>
    exact ends_finish rfl (fun _ _ _ _ h => by cases h)
      (Errs.bind ((s.pfx_errs rs1).mayRaise _ s) fun _ => Errs.ok _)
  | m2p rd rs1 =>
    exact ends_finish rfl (fun _ _ _ _ h => by cases h) (Errs.bind (s.familyOneOnly_errs rfl) fun _ =>
      Errs.bind ((s.vec_errs rs1).mayRaise _ s) fun _ =>
        Errs.bind (Errs.mayRaise (Errs.ite (Errs.ok _) (Errs.error dataError_format)) _ s) fun _ => Errs.ok _)
  | b2v rd rs1 nb => exact ends_finish rfl (fun _ _ _ _ h => by cases h) ((blocksToBits_errs _ _ _).mayRaise _ s)
  | v2b rd rs1 | bshl rd rs1 k | bshr rd rs1 k | brol rd rs1 k | bror rd rs1 k | clz rd rs1 | clo rd rs1 =>
    exact ends_finish rfl (fun _ _ _ _ h => by cases h) (errs_vec_map _ s rs1 _)
  | lcp rd rs1 rs2 =>
    exact ends_finish rfl (fun _ _ _ _ h => by cases h)
      (Errs.bind ((s.vec_errs rs1).mayRaise _ s) fun _ => errs_vec_map _ s rs2 _)
  | net rd rs1 rs2 | bcast rd rs1 rs2 | isnet rd rs1 rs2 | isbc rd rs1 rs2 =>
    exact ends_finish rfl (fun _ _ _ _ h => by cases h) (errs_addressAndPrefix_bind rfl s rs1 rs2 fun _ => Errs.ok _)
  | first rd rs1 rs2 =>
    exact ends_finish rfl (fun _ _ _ _ h => by cases h) (errs_addressAndPrefix_bind rfl s rs1 rs2 fun _ =>
      Errs.mayRaise (Errs.ite (Errs.error dataError_range) (Errs.ok _)) _ s)
  | last rd rs1 rs2 =>
    exact ends_finish rfl (fun _ _ _ _ h => by cases h) (errs_addressAndPrefix_bind rfl s rs1 rs2 fun _ =>
      Errs.mayRaise (Errs.ite (Errs.error dataError_range) (Errs.ok _)) _ s)
  | hcnt rd rs2 =>
    exact ends_finish rfl (fun _ _ _ _ h => by cases h) (Errs.bind (s.familyOneOnly_errs rfl) fun _ =>
      Errs.bind ((s.pfx_errs rs2).mayRaise _ s) fun _ => Errs.ok _)
  | cont rd rs1 rs2 rs3 =>
    exact ends_finish rfl (fun _ _ _ _ h => by cases h) (errs_addressAndPrefix_bind rfl s rs1 rs2 fun _ =>
      errs_vec_map _ s rs3 _)
  | scn rd rs1 rs2 h =>
    exact ends_finish rfl (fun _ _ _ _ h => by cases h) (Errs.bind (s.familyOneOnly_errs rfl) fun _ =>
      Errs.bind ((s.vec_errs rs1).mayRaise _ s) fun _ => errs_vec_map _ s rs2 _)
  | subcfg rd rs1 rs2 rs3 =>
    show ∃ t, execSubcfg rd rs1 rs2 rs3 s = .next t ∧ _
    have he : Errs (MayRaise (.subcfg rd rs1 rs2 rs3) s) (s.enumerationOf rs1 rs2 rs3) :=
      Errs.bind (s.addressAndPrefix_errs rfl rs1 rs2) fun _ => Errs.bind ((s.pfx_errs rs3).mayRaise _ s) fun _ =>
        Errs.bind (Errs.check (dataError_range.mayRaise _ s)) fun _ => Errs.ok _
    rw [execSubcfg]
    cases hx : s.enumerationOf rs1 rs2 rs3 with
    | ok e => exact ⟨_, rfl, .configured rd rs1 rs2 rs3 e rfl hx⟩
    | error e => exact ⟨_, rfl, .raised e (he e hx)⟩
  | subn rd rs1 =>
    exact ends_finish rfl (fun _ _ _ _ h => by cases h) (Errs.bind (s.familyOneOnly_errs rfl) fun _ =>
      Errs.bind (Errs.check (dataError_sequence.mayRaise _ s)) fun _ =>
        Errs.bind (Errs.check (dataError_range.mayRaise _ s)) fun _ => Errs.ok _)
  | budg rd rs1 rs2 rs3 sub hst pref =>
    exact ends_finish rfl (fun _ _ _ _ h => by cases h) (Errs.bind ((preferenceOf_errs pref).mayRaise _ s) fun _ =>
      Errs.bind (s.familyOneOnly_errs rfl) fun _ => Errs.bind ((s.pfx_errs rs1).mayRaise _ s) fun _ =>
        Errs.bind ((budgetTarget_errs _ _ _ _ _).mayRaise _ s) fun _ => Errs.ok _)

/-- The same, for a known next state. -/
theorem exec_inv {i : Instr} {s t : State} (h : exec i s = .next t) : Ends i s t := by
  obtain ⟨t', h', he⟩ := exec_ends i s
  rw [h'] at h
  cases h
  exact he

end Sys2Proof.Machine
end

