-- ==== Sys2Proof/Laws/Results.lean ====
section
/-! SUPPORT. From the operands of a computing command to how it ends: the small lemmas that statements about results
cite. -/

namespace Sys2Proof.Safety

open Sys2Proof.Machine

/-- A command whose meaning is a computed result yields it. -/
theorem yields_of {i : Instr} {s : State} {rd : Reg} {x : Except ErrorCode Word} {v : Word}
    (h : exec i s = s.finish rd x) (hx : x = .ok v) : Yields i s rd v :=
  ⟨_, by rw [h, hx]; rfl, State.writesOnly_succeed s rd v⟩

/-- A command whose meaning is a computed result raises its error. -/
theorem raises_of {i : Instr} {s : State} {rd : Reg} {x : Except ErrorCode Word} {e : ErrorCode}
    (h : exec i s = s.finish rd x) (hx : x = .error e) : Raises i s e :=
  ⟨_, by rw [h, hx]; rfl, State.raised_raise s e⟩

/-- A command yields one value. -/
theorem Yields.inj {i : Instr} {s : State} {rd : Reg} {v w : Word} (hv : Yields i s rd v) (hw : Yields i s rd w) :
    v = w := by
  obtain ⟨t, ht, h⟩ := hv
  obtain ⟨u, hu, h'⟩ := hw
  rw [ht] at hu
  cases hu
  rw [← h.result, h'.result]

/-- A command that yields a value does not raise an error. -/
theorem Yields.not_raises {i : Instr} {s : State} {rd : Reg} {v : Word} {e : ErrorCode} (hv : Yields i s rd v)
    (hr : Raises i s e) : False := by
  obtain ⟨t, ht, h⟩ := hv
  obtain ⟨u, hu, h'⟩ := hr
  rw [ht] at hu
  cases hu
  have := h.answer.rsp.symm.trans h'.answer.rsp
  cases e <;> simp [ErrorCode.number] at this

/-! ## Operands -/

theorem HoldsVector.vec {s : State} {r : Reg} {a : Nat} (h : HoldsVector s r a) : s.vec r = .ok (s.reg r) :=
  vecOf_ok (by rw [h.2]; exact h.1)

theorem HoldsVector.lt {s : State} {r : Reg} {a : Nat} (h : HoldsVector s r a) :
    (s.reg r).toNat < 2 ^ maxBits s.fam := by rw [h.2]; exact h.1

theorem BadVector.vec {s : State} {r : Reg} (h : BadVector s r) : s.vec r = .error .format := vecOf_error h

theorem HoldsPrefix.pfx {s : State} {r : Reg} {p : Nat} (h : HoldsPrefix s r p) : s.pfx r = .ok p :=
  prefixOf_ok h.1 h.2

theorem BadPrefix.pfx {s : State} {r : Reg} (h : BadPrefix s r) : s.pfx r = .error .range := prefixOf_error h

theorem addressAndPrefix_ok {s : State} {rs1 rs2 : Reg} {a p : Nat} (hf : s.fam = .family1)
    (ha : HoldsVector s rs1 a) (hp : HoldsPrefix s rs2 p) :
    s.addressAndPrefix rs1 rs2 = .ok (s.reg rs1, p) := by
  simp [State.addressAndPrefix, State.familyOneOnly_ok hf, ha.vec, hp.pfx]

theorem addressAndPrefix_badPrefix {s : State} {rs1 rs2 : Reg} {a : Nat} (hf : s.fam = .family1)
    (ha : HoldsVector s rs1 a) (hp : BadPrefix s rs2) : s.addressAndPrefix rs1 rs2 = .error .range := by
  simp [State.addressAndPrefix, State.familyOneOnly_ok hf, ha.vec, hp.pfx]

theorem addressAndPrefix_badVector {s : State} {rs1 rs2 : Reg} (hf : s.fam = .family1) (ha : BadVector s rs1) :
    s.addressAndPrefix rs1 rs2 = .error .format := by
  simp [State.addressAndPrefix, State.familyOneOnly_ok hf, ha.vec]

/-- SUBCFG raises the error of its operands. -/
theorem subcfg_raises {s : State} {rd rs1 rs2 rs3 : Reg} {e : ErrorCode}
    (h : s.enumerationOf rs1 rs2 rs3 = .error e) : Raises (.subcfg rd rs1 rs2 rs3) s e :=
  ⟨s.raise e, by simp [exec, execSubcfg, h], State.raised_raise s e⟩

@[simp] theorem check_true (e : ErrorCode) : check true e = .ok () := rfl

@[simp] theorem check_false (e : ErrorCode) : check false e = .error e := rfl

/-- Zero extension to a register (30_encoding.md R72). -/
theorem zeroExtend_eq_ofNat {n : Nat} (v : BitVec n) : v.zeroExtend 128 = BitVec.ofNat 128 v.toNat :=
  BitVec.eq_of_toNat_eq (by simp)

end Sys2Proof.Safety
end

