-- ==== Sys2Proof/Laws/Codec.lean ====
section
/-! SUPPORT. The block codec as arithmetic (42_codec.md R140 to R144): one lane, one block, and the two loops. -/

namespace Sys2Proof.Machine

open Sys2Proof.Safety

/-! ## Lanes and blocks as numbers -/

theorem toNat_lane (f : Family) (j : Nat) (lanes : Word) :
    (lane f j lanes).toNat = lanes.toNat / 2 ^ (16 * (blockCount f - 1 - j)) % 2 ^ 16 := by
  rw [lane, BitVec.extractLsb'_toNat, Nat.shiftRight_eq_div_pow]

theorem block_eq (f : Family) (j : Nat) (v : Word) :
    block f j v = v.toNat / 2 ^ (maxBits f - (j + 1) * blockBits f) % 2 ^ blockBits f := by
  rw [block, BitVec.extractLsb'_toNat, Nat.shiftRight_eq_div_pow]

/-- Appending n bits: (v << n) OR b, while it fits. -/
theorem toNat_shiftLeft_or {v b : Word} {n : Nat} (hb : b.toNat < 2 ^ n) (h : v.toNat * 2 ^ n < 2 ^ 128) :
    (v <<< n ||| b).toNat = v.toNat * 2 ^ n + b.toNat := by
  rw [BitVec.toNat_or, BitVec.toNat_shiftLeft, Nat.shiftLeft_eq, Nat.mod_eq_of_lt h, Nat.mul_comm,
    ← Nat.two_pow_add_eq_or_of_lt hb]

/-! ## Decimal lanes (R141) -/

theorem decimalLane_lt {b : Nat} (h : b < 256) : decimalLane b < 2 ^ 16 := by unfold decimalLane; omega

/-- Every block decodes from its own lane. -/
theorem decodeBlock1_decimalLane {l : BitVec 16} {b : Nat} (hb : b < 256) (h : l.toNat = decimalLane b) :
    decodeBlock1 l = .ok b := by
  have all : ∀ b : Fin 256, decodeBlock1 (BitVec.ofNat 16 (decimalLane b.val)) = .ok b.val := by decide +kernel
  have e : l = BitVec.ofNat 16 (decimalLane b) := by
    have hl := l.isLt
    apply BitVec.eq_of_toNat_eq
    rw [BitVec.toNat_ofNat, h, Nat.mod_eq_of_lt (by omega)]
  rw [e]
  exact all ⟨b, hb⟩

/-- A lane decodes as written when its digits are decimal and its block fits. -/
theorem decodeBlock1_digits {l : BitVec 16} {d2 d1 d0 : Nat} (h : l.toNat = d2 * 256 + d1 * 16 + d0)
    (h1 : d1 ≤ 9) (h0 : d0 ≤ 9) : l.toNat = decimalLane (100 * d2 + 10 * d1 + d0) := by
  have e2 : (100 * d2 + 10 * d1 + d0) / 100 = d2 := by omega
  have e1 : (100 * d2 + 10 * d1 + d0) / 10 = 10 * d2 + d1 := by omega
  have e0 : (100 * d2 + 10 * d1 + d0) % 10 = d0 := by omega
  rw [decimalLane, e2, e1, e0, h]
  omega

/-- Everything a decimal lane can do. -/
theorem decodeBlock1_cases (l : BitVec 16) :
    (∃ b < 256, l.toNat = decimalLane b ∧ decodeBlock1 l = .ok b) ∨
    ((∀ b < 256, l.toNat ≠ decimalLane b) ∧ decodeBlock1 l = .error .format) := by
  by_cases h : ∃ b < 256, l.toNat = decimalLane b
  · obtain ⟨b, hb, h⟩ := h
    exact .inl ⟨b, hb, h, decodeBlock1_decimalLane hb h⟩
  · refine .inr ⟨fun b hb e => h ⟨b, hb, e⟩, ?_⟩
    have hl := l.isLt
    unfold decodeBlock1
    simp only [BitVec.extractLsb'_toNat, Nat.shiftRight_eq_div_pow]
    split_ifs with h1 h2 h3
    · rfl
    · rfl
    · rfl
    · obtain ⟨h2, h2', h2''⟩ := not_or.mp h2 |>.imp_right not_or.mp
      have hd : l.toNat = l.toNat / 2 ^ 8 % 2 ^ 4 * 256 + l.toNat / 2 ^ 4 % 2 ^ 4 * 16 + l.toNat / 2 ^ 0 % 2 ^ 4 := by
        omega
      exact absurd ⟨_, by omega, decodeBlock1_digits hd (by omega) (by omega)⟩ h

/-- encodeBlock1 writes the decimal lane of a block. -/
theorem toNat_encodeBlock1 {b : Nat} (h : b < 256) : (encodeBlock1 b).toNat = decimalLane b := by
  have all : ∀ b : Fin 256, (encodeBlock1 b.val).toNat = decimalLane b.val := by decide +kernel
  exact all ⟨b, h⟩

theorem toNat_encodeBlock2 {b : Nat} (h : b < 2 ^ 16) : (encodeBlock2 b).toNat = b := by
  rw [encodeBlock2, BitVec.toNat_ofNat, Nat.mod_eq_of_lt h]

/-! ## The loops -/

/-- One round of B2V's loop. -/
theorem joinBlocks_succ {f : Family} {lanes v : Word} {n b : Nat} (hv : joinBlocks f lanes n = .ok v)
    (hb : decodeBlock f (lane f n lanes) = .ok b) :
    joinBlocks f lanes (n + 1) = .ok (v <<< blockBits f ||| BitVec.ofNat 128 b) := by
  simp [joinBlocks, hv, hb]

/-- A lane that does not decode ends the loop. -/
theorem joinBlocks_error {f : Family} {lanes : Word} {n j : Nat} (hj : j < n)
    (h : decodeBlock f (lane f j lanes) = .error .format) : joinBlocks f lanes n = .error .format := by
  induction n with
  | zero => omega
  | succ n ih =>
    rw [joinBlocks]
    by_cases e : j = n
    · subst e
      cases hx : joinBlocks f lanes j with
      | ok v => simp [h]
      | error e =>
        have : ∀ n e, joinBlocks f lanes n = .error e → e = .format := by
          intro n
          induction n with
          | zero => intro e h; cases h
          | succ n ih =>
            intro e h
            rw [joinBlocks] at h
            cases hy : joinBlocks f lanes n with
            | error e' => rw [hy] at h; cases h; exact ih _ hy
            | ok v =>
              rw [hy] at h
              cases hz : decodeBlock f (lane f n lanes) with
              | ok b => simp [hz] at h
              | error e' =>
                simp [hz] at h
                subst h
                cases f with
                | family1 =>
                  rcases decodeBlock1_cases (lane .family1 n lanes) with ⟨_, _, _, hk⟩ | ⟨_, hk⟩
                  · rw [decodeBlock, hk] at hz; cases hz
                  · rw [decodeBlock, hk] at hz; cases hz; rfl
                | family2 => cases hz
        rw [this j e hx]
        rfl
    · rw [ih (by omega)]
      rfl

/-- Hexadecimal lanes join to the number they spell (R142). -/
theorem joinBlocks_family2 (lanes : Word) (n : Nat) (h : n ≤ 8) :
    joinBlocks .family2 lanes n = .ok (lanes >>> (16 * (8 - n))) := by
  induction n with
  | zero =>
    have : lanes >>> (16 * (8 - 0)) = 0#128 := by
      apply BitVec.eq_of_toNat_eq
      rw [BitVec.toNat_ushiftRight, Nat.shiftRight_eq_div_pow]
      exact Nat.div_eq_of_lt lanes.isLt
    rw [this, joinBlocks]
  | succ n ih =>
    rw [joinBlocks_succ (ih (by omega)) rfl]
    congr 1
    have hl := toNat_lane .family2 n lanes
    have hlt := lanes.isLt
    apply BitVec.eq_of_toNat_eq
    rw [toNat_shiftLeft_or]
    · rw [BitVec.toNat_ofNat, hl, BitVec.toNat_ushiftRight, BitVec.toNat_ushiftRight]
      simp only [Nat.shiftRight_eq_div_pow, blockBits, blockCount]
      have e : 16 * (8 - n) = 16 * (8 - (n + 1)) + 16 := by omega
      have e' : 8 - 1 - n = 8 - (n + 1) := by omega
      rw [e, e', Nat.pow_add, ← Nat.div_div_eq_div_mul]
      omega
    · rw [BitVec.toNat_ofNat, hl, blockBits]
      omega
    · rw [BitVec.toNat_ushiftRight, Nat.shiftRight_eq_div_pow, blockBits]
      have e : (2 : Nat) ^ 128 = 2 ^ (16 * (8 - n)) * 2 ^ (16 * n) := by rw [← Nat.pow_add]; congr 1; omega
      have h1 : 1 ≤ 8 - n := by omega
      have : lanes.toNat / 2 ^ (16 * (8 - n)) * 2 ^ 16 ≤ lanes.toNat / 2 ^ (16 * (8 - n)) * 2 ^ (16 * (8 - n)) :=
        Nat.mul_le_mul_left _ (Nat.pow_le_pow_right (by decide) (by omega))
      have := Nat.div_mul_le_self lanes.toNat (2 ^ (16 * (8 - n)))
      omega

/-- Hexadecimal lanes split from a vector are the vector (R142, R144). -/
theorem splitBlocks_family2 (v : Word) (n : Nat) (h : n ≤ 8) :
    splitBlocks .family2 v n = v >>> (16 * (8 - n)) := by
  induction n with
  | zero =>
    apply BitVec.eq_of_toNat_eq
    rw [BitVec.toNat_ushiftRight, Nat.shiftRight_eq_div_pow]
    exact (Nat.div_eq_of_lt v.isLt).symm
  | succ n ih =>
    have hb : block .family2 n v = v.toNat / 2 ^ (16 * (8 - (n + 1))) % 2 ^ 16 := by
      rw [block_eq, maxBits, blockBits, show 128 - (n + 1) * 16 = 16 * (8 - (n + 1)) by omega]
    have hlt := v.isLt
    have hk : (encodeBlock .family2 (block .family2 n v)).toNat = block .family2 n v :=
      toNat_encodeBlock2 (by rw [hb]; omega)
    rw [splitBlocks, ih (by omega)]
    apply BitVec.eq_of_toNat_eq
    rw [toNat_shiftLeft_or]
    · rw [zeroExtend_eq_ofNat, BitVec.toNat_ofNat, hk, hb, BitVec.toNat_ushiftRight, BitVec.toNat_ushiftRight]
      simp only [Nat.shiftRight_eq_div_pow]
      have e : 16 * (8 - n) = 16 * (8 - (n + 1)) + 16 := by omega
      rw [e, Nat.pow_add, ← Nat.div_div_eq_div_mul]
      omega
    · rw [zeroExtend_eq_ofNat, BitVec.toNat_ofNat, hk, hb]
      omega
    · rw [BitVec.toNat_ushiftRight, Nat.shiftRight_eq_div_pow]
      have : v.toNat / 2 ^ (16 * (8 - n)) * 2 ^ 16 ≤ v.toNat / 2 ^ (16 * (8 - n)) * 2 ^ (16 * (8 - n)) :=
        Nat.mul_le_mul_left _ (Nat.pow_le_pow_right (by decide) (by omega))
      have := Nat.div_mul_le_self v.toNat (2 ^ (16 * (8 - n)))
      omega

/-- One round with a decimal block. -/
theorem appendBlock {x b : Nat} (hx : x < 2 ^ 100) (hb : b < 256) :
    BitVec.ofNat 128 x <<< 8 ||| BitVec.ofNat 128 b = BitVec.ofNat 128 (x * 256 + b) := by
  apply BitVec.eq_of_toNat_eq
  have h1 : (BitVec.ofNat 128 x).toNat = x := by rw [BitVec.toNat_ofNat]; omega
  have h2 : (BitVec.ofNat 128 b).toNat = b := by rw [BitVec.toNat_ofNat]; omega
  rw [toNat_shiftLeft_or (by omega) (by omega), h1, h2, BitVec.toNat_ofNat]
  omega

/-- One round with a lane. -/
theorem appendLane {x : Nat} {l : BitVec 16} (hx : x < 2 ^ 100) :
    BitVec.ofNat 128 x <<< 16 ||| l.zeroExtend 128 = BitVec.ofNat 128 (x * 65536 + l.toNat) := by
  apply BitVec.eq_of_toNat_eq
  have hl := l.isLt
  have h1 : (BitVec.ofNat 128 x).toNat = x := by rw [BitVec.toNat_ofNat]; omega
  have h2 : (l.zeroExtend 128).toNat = l.toNat := by rw [zeroExtend_eq_ofNat, BitVec.toNat_ofNat]; omega
  rw [toNat_shiftLeft_or (by omega) (by omega), h1, h2, BitVec.toNat_ofNat]
  omega

/-! ## Whole lane vectors -/

/-- B2V's stray-lane check (42_codec.md R143). -/
theorem highLanes_eq_zero_iff (v : Word) : v.extractLsb' 64 64 = 0#64 ↔ v.toNat < 2 ^ 64 := by
  rw [← BitVec.toNat_inj, BitVec.extractLsb'_toNat, Nat.shiftRight_eq_div_pow]
  have := v.isLt
  simp
  omega

theorem decimalLanes_lt {a b c d : Nat} (ha : a < 256) (hb : b < 256) (hc : c < 256) (hd : d < 256) :
    decimalLanes a b c d < 2 ^ 64 := by
  have := decimalLane_lt ha
  have := decimalLane_lt hb
  have := decimalLane_lt hc
  have := decimalLane_lt hd
  unfold decimalLanes
  omega

/-- Four decimal lanes join to the vector of the four blocks. -/
theorem blocksToBits_decimal {v : Word} {a b c d : Nat} (ha : a < 256) (hb : b < 256) (hc : c < 256) (hd : d < 256)
    (h : v.toNat = decimalLanes a b c d) :
    blocksToBits .family1 4 v = .ok (BitVec.ofNat 128 (a * 2 ^ 24 + b * 2 ^ 16 + c * 2 ^ 8 + d)) := by
  have la := decimalLane_lt ha
  have lb := decimalLane_lt hb
  have lc := decimalLane_lt hc
  have ld := decimalLane_lt hd
  have e0 := toNat_lane .family1 0 v
  have e1 := toNat_lane .family1 1 v
  have e2 := toNat_lane .family1 2 v
  have e3 := toNat_lane .family1 3 v
  simp [blockCount] at e0 e1 e2 e3
  have z := (highLanes_eq_zero_iff v).2 (by rw [h]; exact decimalLanes_lt ha hb hc hd)
  unfold decimalLanes at h
  rw [blocksToBits, if_neg (by simp [blockCount]), if_neg (by simp [z])]
  have j1 := joinBlocks_succ (f := .family1) (lanes := v) (n := 0) rfl (decodeBlock1_decimalLane ha (by omega))
  have j2 := joinBlocks_succ (n := 1) j1 (decodeBlock1_decimalLane hb (by omega))
  have j3 := joinBlocks_succ (n := 2) j2 (decodeBlock1_decimalLane hc (by omega))
  have j4 := joinBlocks_succ (n := 3) j3 (decodeBlock1_decimalLane hd (by omega))
  show joinBlocks .family1 v 4 = _
  rw [j4]
  simp only [blockBits]
  rw [show (0#128 : Word) = BitVec.ofNat 128 0 from rfl, appendBlock (by omega) ha, appendBlock (by omega) hb,
    appendBlock (by omega) hc, appendBlock (by omega) hd,
    show (((0 * 256 + a) * 256 + b) * 256 + c) * 256 + d = a * 2 ^ 24 + b * 2 ^ 16 + c * 2 ^ 8 + d by omega]

/-- Any other lane vector is refused. -/
theorem blocksToBits_decimal_error {v : Word}
    (h : ∀ a b c d : Nat, a < 256 → b < 256 → c < 256 → d < 256 → v.toNat ≠ decimalLanes a b c d) :
    blocksToBits .family1 4 v = .error .format := by
  rw [blocksToBits, if_neg (by simp [blockCount])]
  split_ifs with h2
  · rfl
  · have z := (highLanes_eq_zero_iff v).1 (by simpa [blockCount] using h2)
    have e0 := toNat_lane .family1 0 v
    have e1 := toNat_lane .family1 1 v
    have e2 := toNat_lane .family1 2 v
    have e3 := toNat_lane .family1 3 v
    simp [blockCount] at e0 e1 e2 e3
    show joinBlocks .family1 v 4 = _
    rcases decodeBlock1_cases (lane .family1 0 v) with ⟨a, ha, ea, da⟩ | ⟨_, da⟩
    swap; · exact joinBlocks_error (j := 0) (by omega) da
    rcases decodeBlock1_cases (lane .family1 1 v) with ⟨b, hb, eb, db⟩ | ⟨_, db⟩
    swap; · exact joinBlocks_error (j := 1) (by omega) db
    rcases decodeBlock1_cases (lane .family1 2 v) with ⟨c, hc, ec, dc⟩ | ⟨_, dc⟩
    swap; · exact joinBlocks_error (j := 2) (by omega) dc
    rcases decodeBlock1_cases (lane .family1 3 v) with ⟨d, hd, ed, dd⟩ | ⟨_, dd⟩
    swap; · exact joinBlocks_error (j := 3) (by omega) dd
    refine absurd ?_ (h a b c d ha hb hc hd)
    unfold decimalLanes
    omega

/-- Eight hexadecimal lanes are the vector. -/
theorem blocksToBits_hexadecimal (v : Word) : blocksToBits .family2 8 v = .ok v := by
  rw [blocksToBits, if_neg (by decide), if_neg (by simp [blockCount])]
  show joinBlocks .family2 v 8 = _
  rw [joinBlocks_family2 _ _ (by omega)]
  simp

/-- A vector of four blocks splits into four decimal lanes. -/
theorem bitsToBlocks_decimal {v : Word} {a b c d : Nat} (ha : a < 256) (hb : b < 256) (hc : c < 256) (hd : d < 256)
    (h : v.toNat = a * 2 ^ 24 + b * 2 ^ 16 + c * 2 ^ 8 + d) :
    bitsToBlocks .family1 v = BitVec.ofNat 128 (decimalLanes a b c d) := by
  have la := decimalLane_lt ha
  have lb := decimalLane_lt hb
  have lc := decimalLane_lt hc
  have ld := decimalLane_lt hd
  have b0 : block .family1 0 v = a := by rw [block_eq]; simp [maxBits, blockBits]; omega
  have b1 : block .family1 1 v = b := by rw [block_eq]; simp [maxBits, blockBits]; omega
  have b2 : block .family1 2 v = c := by rw [block_eq]; simp [maxBits, blockBits]; omega
  have b3 : block .family1 3 v = d := by rw [block_eq]; simp [maxBits, blockBits]; omega
  show splitBlocks .family1 v 4 = _
  simp only [splitBlocks, b0, b1, b2, b3, encodeBlock]
  rw [show (0#128 : Word) = BitVec.ofNat 128 0 from rfl, appendLane (by omega), toNat_encodeBlock1 ha,
    appendLane (by omega), toNat_encodeBlock1 hb, appendLane (by omega), toNat_encodeBlock1 hc,
    appendLane (by omega), toNat_encodeBlock1 hd,
    show (((0 * 65536 + decimalLane a) * 65536 + decimalLane b) * 65536 + decimalLane c) * 65536 + decimalLane d
      = decimalLanes a b c d by unfold decimalLanes; omega]

/-- A vector's hexadecimal lanes are the vector. -/
theorem bitsToBlocks_hexadecimal (v : Word) : bitsToBlocks .family2 v = v := by
  show splitBlocks .family2 v 8 = _
  rw [splitBlocks_family2 _ _ (by omega)]
  simp

/-- The four blocks of a 32-bit vector. -/
theorem exists_blocks {v : Nat} (h : v < 2 ^ 32) :
    ∃ a b c d, a < 256 ∧ b < 256 ∧ c < 256 ∧ d < 256 ∧ v = a * 2 ^ 24 + b * 2 ^ 16 + c * 2 ^ 8 + d :=
  ⟨v / 2 ^ 24, v / 2 ^ 16 % 256, v / 2 ^ 8 % 256, v % 256, by omega, by omega, by omega, by omega, by omega⟩

end Sys2Proof.Machine
end

