-- ==== Sys2Proof/Laws/Edge.lean ====
section
/-! SUPPORT. Everything one rising edge can do, said once (10_state.md R40, 70_reset_and_hazards.md R270 to R277). -/

namespace Sys2Proof.Machine

open Sys2Proof.Safety

/-- The port sample of the next edge (log entry 2). -/
def State.nextSample (s : State) : PortSample := s.inputs.head?.getD .idle

/-- The state with that sample gone from the host's list. -/
def State.afterSample (s : State) : State := { s with inputs := s.inputs.tail }

@[simp] theorem State.afterSample_regs (s : State) : s.afterSample.regs = s.regs := rfl
@[simp] theorem State.afterSample_fam (s : State) : s.afterSample.fam = s.fam := rfl
@[simp] theorem State.afterSample_err (s : State) : s.afterSample.err = s.err := rfl
@[simp] theorem State.afterSample_code (s : State) : s.afterSample.code = s.code := rfl
@[simp] theorem State.afterSample_eop (s : State) : s.afterSample.eop = s.eop := rfl
@[simp] theorem State.afterSample_enumValid (s : State) : s.afterSample.enumValid = s.enumValid := rfl
@[simp] theorem State.afterSample_enumP (s : State) : s.afterSample.enumP = s.enumP := rfl
@[simp] theorem State.afterSample_enumT (s : State) : s.afterSample.enumT = s.enumT := rfl
@[simp] theorem State.afterSample_enumBase (s : State) : s.afterSample.enumBase = s.enumBase := rfl
@[simp] theorem State.afterSample_busy (s : State) : s.afterSample.busy = s.busy := rfl
@[simp] theorem State.afterSample_rsp (s : State) : s.afterSample.rsp = s.rsp := rfl
@[simp] theorem State.afterSample_cmdWord (s : State) : s.afterSample.cmdWord = s.cmdWord := rfl
@[simp] theorem State.afterSample_cmdData (s : State) : s.afterSample.cmdData = s.cmdData := rfl
@[simp] theorem State.afterSample_wait (s : State) : s.afterSample.wait = s.wait := rfl
@[simp] theorem State.afterSample_taken (s : State) : s.afterSample.taken = s.taken := rfl

@[simp] theorem State.afterSample_inputs (s : State) : s.afterSample.inputs = s.inputs.tail := rfl

/-- A step is a rising edge with the next sample. -/
theorem step_eq (s : State) : step s = risingEdge s.nextSample s.afterSample := by
  obtain ⟨regs, fam, err, code, eop, ev, ep, et, eb, busy, rsp, cw, cd, wait, inputs, taken⟩ := s
  cases inputs <;> rfl

theorem State.nextSample_cons (s : State) {p : PortSample} {rest : List PortSample} (h : s.inputs = p :: rest) :
    s.nextSample = p := by simp [State.nextSample, h]

theorem State.afterSample_cons (s : State) {p : PortSample} {rest : List PortSample} (h : s.inputs = p :: rest) :
    s.afterSample = { s with inputs := rest } := by simp [State.afterSample, h]

/-- An edge that is no reset edge: the sampled rst_n is 1, an ended list included. -/
theorem State.nextSample_rstN {s : State} (h : NoResetNext s) : s.nextSample.rstN = true := by
  unfold State.nextSample
  cases hi : s.inputs with
  | nil => rfl
  | cons p rest => exact h p (by simp [hi])

/-! ## The cases of an edge -/

theorem risingEdge_reset {p : PortSample} (h : p.rstN = false) (s : State) :
    risingEdge p s = .next s.resetEdge := by simp [risingEdge, h]

theorem risingEdge_pending {p : PortSample} (h : p.rstN = true) {s : State} {r : Response} (hr : s.rsp = some r) :
    risingEdge p s = .next (if p.rspReady then s.takeResponse r else s) := by simp [risingEdge, h, hr]

theorem risingEdge_busy {p : PortSample} (h : p.rstN = true) {s : State} (hr : s.rsp = none)
    (hb : s.busy = true) : risingEdge p s = advance s := by simp [risingEdge, h, hr, hb]

theorem risingEdge_offered {p : PortSample} (h : p.rstN = true) {s : State} (hr : s.rsp = none)
    (hb : s.busy = false) (hv : p.cmdValid = true) : risingEdge p s = advance (s.accept p) := by
  simp [risingEdge, h, hr, hb, hv]

theorem risingEdge_idle {p : PortSample} (h : p.rstN = true) {s : State} (hr : s.rsp = none)
    (hb : s.busy = false) (hv : p.cmdValid = false) : risingEdge p s = .next s := by
  simp [risingEdge, h, hr, hb, hv]

/-! ## The same of a step -/

theorem step_reset {s : State} {p : PortSample} {rest : List PortSample} (hi : s.inputs = p :: rest)
    (h : p.rstN = false) : step s = .next { s with inputs := rest }.resetEdge := by
  rw [step_eq, s.nextSample_cons hi, s.afterSample_cons hi, risingEdge_reset h]

theorem step_pending {s : State} {p : PortSample} {rest : List PortSample} {r : Response}
    (hi : s.inputs = p :: rest) (h : p.rstN = true) (hr : s.rsp = some r) :
    step s = .next (if p.rspReady then { s with inputs := rest }.takeResponse r else { s with inputs := rest }) := by
  rw [step_eq, s.nextSample_cons hi, s.afterSample_cons hi]
  exact risingEdge_pending h (s := { s with inputs := rest }) hr

theorem step_offered {s : State} {p : PortSample} {rest : List PortSample} (hi : s.inputs = p :: rest)
    (h : p.rstN = true) (hr : s.rsp = none) (hb : s.busy = false) (hv : p.cmdValid = true) :
    step s = advance ({ s with inputs := rest }.accept p) := by
  rw [step_eq, s.nextSample_cons hi, s.afterSample_cons hi]
  exact risingEdge_offered h (s := { s with inputs := rest }) hr hb hv

theorem step_busy {s : State} (h : NoResetNext s) (hr : s.rsp = none) (hb : s.busy = true) :
    step s = advance s.afterSample := by
  rw [step_eq]
  exact risingEdge_busy (State.nextSample_rstN h) (s := s.afterSample) hr hb

theorem step_idle {s : State} (h : s.nextSample.rstN = true) (hv : s.nextSample.cmdValid = false)
    (hr : s.rsp = none) (hb : s.busy = false) : step s = .next s.afterSample := by
  rw [step_eq]
  exact risingEdge_idle h (s := s.afterSample) hr hb hv

/-! ## Executing the accepted command -/

theorem advance_zero {s : State} (h : s.wait = 0) : advance s = runCommand s := by simp [advance, h]

theorem advance_succ {s : State} {n : Nat} (h : s.wait = n + 1) : advance s = .next { s with wait := n } := by
  simp [advance, h]

theorem runCommand_ok {s : State} {i : Instr} (h : decode s.cmdWord = .ok i) : runCommand s = exec i s := by
  simp [runCommand, h]

theorem runCommand_illegal {s : State} (h : ∀ i, decode s.cmdWord ≠ .ok i) :
    runCommand s = .next (s.raise .illegal) := by
  rw [runCommand]
  cases hd : decode s.cmdWord with
  | ok i => exact absurd hd (h i)
  | error e => rfl

/-- Everything an accepted command can do: decoded, it ends in one of the six ways; else it raises IllegalError. -/
theorem runCommand_cases (s : State) : ∃ t, runCommand s = .next t ∧
    ((∃ i, decode s.cmdWord = .ok i ∧ Ends i s t) ∨ t = s.raise .illegal) := by
  cases hd : decode s.cmdWord with
  | ok i =>
    obtain ⟨t, h, he⟩ := exec_ends i s
    exact ⟨t, (runCommand_ok hd).trans h, .inl ⟨i, rfl, he⟩⟩
  | error e => exact ⟨_, runCommand_illegal (fun i h => by rw [hd] at h; cases h), .inr rfl⟩

/-! ## Everything an edge can do -/

/-- The six things an edge does to a state. -/
inductive EdgeEffect (p : PortSample) (s : State) : State → Prop where
  | reset (h : p.rstN = false) : EdgeEffect p s s.resetEdge
  | took (r : Response) (hr : s.rsp = some r) (h : p.rspReady = true) : EdgeEffect p s (s.takeResponse r)
  | held (h : s.rsp ≠ none ∨ (s.busy = false ∧ p.cmdValid = false)) : EdgeEffect p s s
  | counted (a : State) (n : Nat) (ha : a = s ∧ s.busy = true ∨ a = s.accept p ∧ s.busy = false) (hr : s.rsp = none)
      (hw : a.wait = n + 1) : EdgeEffect p s { a with wait := n }
  | executed (a t : State) (i : Instr) (ha : a = s ∧ s.busy = true ∨ a = s.accept p ∧ s.busy = false)
      (hr : s.rsp = none) (hw : a.wait = 0) (hd : decode a.cmdWord = .ok i) (he : Ends i a t) : EdgeEffect p s t
  | illegal (a : State) (ha : a = s ∧ s.busy = true ∨ a = s.accept p ∧ s.busy = false) (hr : s.rsp = none)
      (hw : a.wait = 0) : EdgeEffect p s (a.raise .illegal)

/-- An edge of a busy unit, or of one that has just accepted a command. -/
theorem advance_effect {p : PortSample} {s a : State}
    (ha : a = s ∧ s.busy = true ∨ a = s.accept p ∧ s.busy = false) (hr : s.rsp = none) :
    ∃ t, advance a = .next t ∧ EdgeEffect p s t := by
  cases hw : a.wait with
  | zero =>
    obtain ⟨t, h, ⟨i, hd, he⟩ | rfl⟩ := runCommand_cases a
    · exact ⟨t, (advance_zero hw).trans h, .executed a t i ha hr hw hd he⟩
    · exact ⟨_, (advance_zero hw).trans h, .illegal a ha hr hw⟩
  | succ n => exact ⟨_, advance_succ hw, .counted a n ha hr hw⟩

/-- Every edge goes on, in one of the six ways. -/
theorem risingEdge_effect (p : PortSample) (s : State) : ∃ t, risingEdge p s = .next t ∧ EdgeEffect p s t := by
  cases hp : p.rstN with
  | false => exact ⟨_, risingEdge_reset hp s, .reset hp⟩
  | true =>
    cases hr : s.rsp with
    | some r =>
      cases hq : p.rspReady with
      | true => exact ⟨_, by rw [risingEdge_pending hp hr, hq]; rfl, .took r hr hq⟩
      | false => exact ⟨_, by rw [risingEdge_pending hp hr, hq]; rfl, .held (.inl (by simp [hr]))⟩
    | none =>
      cases hb : s.busy with
      | true =>
        rw [risingEdge_busy hp hr hb]
        exact advance_effect (.inl ⟨rfl, hb⟩) hr
      | false =>
        cases hv : p.cmdValid with
        | true =>
          rw [risingEdge_offered hp hr hb hv]
          exact advance_effect (.inr ⟨rfl, hb⟩) hr
        | false => exact ⟨_, risingEdge_idle hp hr hb hv, .held (.inr ⟨hb, hv⟩)⟩

/-- Every step goes on, and what it does is one of the six effects of its edge. -/
theorem step_effect (s : State) : ∃ t, step s = .next t ∧ EdgeEffect s.nextSample s.afterSample t := by
  rw [step_eq]
  exact risingEdge_effect _ _

/-- The same, for a known next state. -/
theorem step_inv {s t : State} (h : step s = .next t) : EdgeEffect s.nextSample s.afterSample t := by
  obtain ⟨t', h', he⟩ := step_effect s
  rw [h'] at h
  cases h
  exact he

/-! ## Runs -/

/-- One more step of a run. -/
theorem core_run_succ {n : Nat} {s t : State} (h : step s = .next t) :
    Host.Core.run core (n + 1) s = Host.Core.run core n t := by
  have : core.step s = .next t := h
  simp [Host.Core.run, this]

theorem core_run_zero (s : State) : Host.Core.run core 0 s = .next s := rfl

/-- A run of m steps, then of n. -/
theorem core_run_add (m : Nat) : ∀ {n : Nat} {s t : State}, Host.Core.run core m s = .next t →
    Host.Core.run core (m + n) s = Host.Core.run core n t := by
  induction m with
  | zero => intro n s t h; rw [core_run_zero] at h; cases h; rw [Nat.zero_add]
  | succ m ih =>
    intro n s t h
    obtain ⟨u, hu, _⟩ := step_effect s
    rw [core_run_succ hu] at h
    rw [show m + 1 + n = (m + n) + 1 by omega, core_run_succ hu]
    exact ih h

end Sys2Proof.Machine
end

