-- ==== Sys2Proof/Laws/Network.lean ====
section
/-! SUPPORT. Shifts, rotates and the network operations as arithmetic (42_codec.md R145 to R148, 43_scan.md R162,
44_network.md R180 to R188). -/

namespace Sys2Proof.Machine

open Sys2Proof.Safety

/-! ## Rotates -/

theorem toNat_and_ones (f : Family) (v : Word) : (v &&& ones (maxBits f)).toNat = v.toNat % 2 ^ maxBits f := by
  rw [BitVec.toNat_and, toNat_ones (maxBits_le f), Nat.and_two_pow_sub_one_eq_mod]

theorem rotateBits_eq (f : Family) (k : Nat) : rotateBits f k = k * blockBits f % maxBits f := by
  rw [rotateBits, ← blockCount_mul_blockBits, Nat.mul_mod_mul_right]

theorem rotateBits_lt (f : Family) (k : Nat) : rotateBits f k < maxBits f := by
  rw [rotateBits_eq]
  exact Nat.mod_lt _ (maxBits_pos f)

/-- Bit i of a vector rotated left. -/
theorem getLsbD_blockRotateLeft {f : Family} {k : Nat} {v : Word} (hv : v.toNat < 2 ^ maxBits f) {i : Nat}
    (hi : i < maxBits f) :
    (blockRotateLeft f k v).getLsbD i =
      v.getLsbD (if i < rotateBits f k then maxBits f + i - rotateBits f k else i - rotateBits f k) := by
  have hm := maxBits_le f
  have hs := rotateBits_lt f k
  rw [blockRotateLeft, BitVec.getLsbD_and, getLsbD_ones hm, BitVec.getLsbD_or, BitVec.getLsbD_shiftLeft,
    BitVec.getLsbD_ushiftRight]
  by_cases h : i < rotateBits f k
  · simp [h, hi]
    congr 1
    omega
  · rw [getLsbD_of_wf hv (i := maxBits f - rotateBits f k + i) (by omega)]
    simp [h, hi]
    omega

/-- Bit i of a vector rotated right. -/
theorem getLsbD_blockRotateRight {f : Family} {k : Nat} {v : Word} (hv : v.toNat < 2 ^ maxBits f) {i : Nat}
    (hi : i < maxBits f) :
    (blockRotateRight f k v).getLsbD i =
      v.getLsbD (if i + rotateBits f k < maxBits f then i + rotateBits f k
        else i + rotateBits f k - maxBits f) := by
  have hm := maxBits_le f
  have hs := rotateBits_lt f k
  rw [blockRotateRight, BitVec.getLsbD_and, getLsbD_ones hm, BitVec.getLsbD_or, BitVec.getLsbD_shiftLeft,
    BitVec.getLsbD_ushiftRight]
  by_cases h : i + rotateBits f k < maxBits f
  · simp [h, hi, show i < maxBits f - rotateBits f k by omega]
    congr 1
    omega
  · rw [getLsbD_of_wf hv (i := rotateBits f k + i) (by omega)]
    simp [h, hi, show ¬ i < maxBits f - rotateBits f k by omega, show i < 128 by omega]
    congr 1
    omega

/-! ## Scans -/

theorem leadingZeros_xor (m : Nat) (a b : Word) :
    leadingZeros m (a ^^^ b) = agreement ((List.range m).map fun i => a.getLsbD (m - 1 - i))
      ((List.range m).map fun i => b.getLsbD (m - 1 - i)) := by
  induction m with
  | zero => rfl
  | succ m ih =>
    rw [topBits_succ, topBits_succ, leadingZeros, ih, agreement, agreement, BitVec.getLsbD_xor]
    cases a.getLsbD m <;> cases b.getLsbD m <;> simp

/-- The leading zeros of an exclusive or are the leading places at which the two agree. -/
theorem clz_xor (f : Family) (a b : Word) : clz f (a ^^^ b) = agreement (bitString f a) (bitString f b) :=
  leadingZeros_xor _ a b

/-! ## Netmask validation -/

theorem takeWhile_replicate (p q : Nat) :
    ((List.replicate p true ++ List.replicate q false).takeWhile fun c => c).length = p := by
  induction p with
  | zero => cases q <;> simp [List.replicate_succ]
  | succ p ih => simp [List.replicate_succ]

theorem netmaskPrefix_netmask {f : Family} {p : Nat} (h : p ≤ maxBits f) : netmaskPrefix f (netmask f p) = .ok p := by
  have : clo f (netmask f p) = p := by rw [clo_eq, bitString_netmask f h, takeWhile_replicate]
  simp [netmaskPrefix, this]

/-! ## Boundaries in family 1 -/

theorem HoldsPrefix.le32 {s : State} {r : Reg} {p : Nat} (hf : s.fam = .family1) (h : HoldsPrefix s r p) : p ≤ 32 := by
  have := h.1
  rwa [hf] at this

theorem HoldsVector.lt32 {s : State} {r : Reg} {a : Nat} (hf : s.fam = .family1) (h : HoldsVector s r a) :
    (s.reg r).toNat < 2 ^ 32 := by
  have := h.lt
  rwa [hf] at this

theorem toNat_networkAddress {a : Word} {p : Nat} (ha : a.toNat < 2 ^ 32) (hp : p ≤ 32) :
    (networkAddress .family1 a p).toNat = networkOf a.toNat p := toNat_and_netmask .family1 ha hp

theorem toNat_broadcastAddress (a : Word) (p : Nat) :
    (broadcastAddress .family1 a p).toNat = broadcastOf a.toNat p := toNat_or_wildcard .family1 a p

theorem two_pow_split {p : Nat} (hp : p ≤ 32) : 2 ^ 32 = 2 ^ p * 2 ^ (32 - p) := by
  rw [← Nat.pow_add]
  congr 1
  omega

theorem networkOf_le (a p : Nat) : networkOf a p ≤ a := Nat.div_mul_le_self _ _

/-- An address is its network address plus its host bits. -/
theorem networkOf_add_mod (a p : Nat) : a = networkOf a p + a % 2 ^ (32 - p) := by
  have := Nat.div_add_mod' a (2 ^ (32 - p))
  unfold networkOf
  omega

theorem le_broadcastOf (a p : Nat) : a ≤ broadcastOf a p := by
  have := networkOf_add_mod a p
  have := Nat.mod_lt a (Nat.two_pow_pos (32 - p))
  unfold broadcastOf
  omega

theorem broadcastOf_lt {a p : Nat} (ha : a < 2 ^ 32) (hp : p ≤ 32) : broadcastOf a p < 2 ^ 32 := by
  have e := two_pow_split hp
  have h1 : a / 2 ^ (32 - p) < 2 ^ p := Nat.div_lt_of_lt_mul (by rw [Nat.mul_comm, ← e]; exact ha)
  have h2 : (a / 2 ^ (32 - p) + 1) * 2 ^ (32 - p) ≤ 2 ^ p * 2 ^ (32 - p) := Nat.mul_le_mul_right _ h1
  rw [Nat.add_mul, ← e] at h2
  have := Nat.two_pow_pos (32 - p)
  unfold broadcastOf networkOf
  omega

/-- Two addresses have one network address exactly when one lies between the other's boundaries. -/
theorem networkOf_eq_iff (a b p : Nat) : networkOf a p = networkOf b p ↔ networkOf a p ≤ b ∧ b ≤ broadcastOf a p := by
  have hz := Nat.two_pow_pos (32 - p)
  unfold broadcastOf networkOf
  generalize 2 ^ (32 - p) = z at *
  constructor
  · intro h
    have := Nat.div_add_mod' b z
    have := Nat.mod_lt b hz
    omega
  · rintro ⟨h1, h2⟩
    have : b / z = a / z := by
      apply Nat.div_eq_of_lt_le h1
      rw [Nat.add_mul]
      omega
    rw [this]

/-- The edges of SCN's back-off (44_network.md R188). -/
theorem edge_iff {v : Word} (hv : v.toNat < 2 ^ 32) {c : Nat} (hc : c ≤ 32) :
    edge .family1 v c = true ↔ v.toNat = networkOf v.toNat c ∨ v.toNat = broadcastOf v.toNat c := by
  rw [edge, isNetwork, isBroadcast, Bool.or_eq_true, beq_iff_eq, beq_iff_eq, ← BitVec.toNat_inj, ← BitVec.toNat_inj,
    toNat_networkAddress hv hc, toNat_broadcastAddress]

/-- Everything SCN's back-off does: it stops at the first candidate that is no edge, or at 0. -/
theorem backOff_spec (a b : Word) (c : Nat) :
    backOff .family1 a b c ≤ c ∧
    (0 < backOff .family1 a b c →
      (edge .family1 a (backOff .family1 a b c) || edge .family1 b (backOff .family1 a b c)) = false) ∧
    ∀ c', backOff .family1 a b c < c' → c' ≤ c → (edge .family1 a c' || edge .family1 b c') = true := by
  induction c with
  | zero => exact ⟨Nat.le_refl _, fun h => absurd h (by simp [backOff]), fun c' h h' => by omega⟩
  | succ c ih =>
    rw [backOff]
    split
    · next h =>
      refine ⟨by omega, ih.2.1, fun c' h1 h2 => ?_⟩
      by_cases e : c' = c + 1
      · subst e
        exact h
      · exact ih.2.2 c' h1 (by omega)
    · next h => exact ⟨by omega, fun _ => by simpa using h, fun c' h1 h2 => by omega⟩

/-- A register value known as a number. -/
theorem eq_ofNat {v : Word} {n : Nat} (h : v.toNat = n) : v = BitVec.ofNat 128 n := by
  rw [← h]
  simp

/-- A predicate result (10_state.md R25). -/
theorem boolWord_decide (c : Prop) [Decidable c] : boolWord (decide c) = if c then 1 else 0 := by
  by_cases h : c <;> simp [h, boolWord]

end Sys2Proof.Machine
end

