-- ==== Sys2Proof/Laws/PerInstr.lean ====
section
/-! SUPPORT. Facts about every command as syntax, one lemma per constructor. Family EncodeOpcode: the opcode field of the
encoding is the opcode of 30_encoding.md R75. -/

namespace Sys2Proof.Laws.EncodeOpcode

/-- Bits 31:26 of the command word are the command's opcode (30_encoding.md R70, R75). -/
def Statement (i : Instr) : Prop := opField (encode i) = i.opcode

theorem nop : Statement .nop := opField_packR _ _ _ _ _ _
theorem ldi (rd : Reg) (imm23 : BitVec 23) : Statement (.ldi rd imm23) := opField_packI _ _ _
theorem wr (rd : Reg) : Statement (.wr rd) := opField_packR _ _ _ _ _ _
theorem rd (rs1 : Reg) : Statement (.rd rs1) := opField_packR _ _ _ _ _ _
theorem mov (rd rs1 : Reg) : Statement (.mov rd rs1) := opField_packR _ _ _ _ _ _
theorem csrr (rd : Reg) (csr : BitVec 3) : Statement (.csrr rd csr) := opField_packC _ _ _ _ _
theorem csrw (csr : BitVec 3) (rs1 : Reg) : Statement (.csrw csr rs1) := opField_packC _ _ _ _ _
theorem csrwi (csr : BitVec 3) (imm11 : BitVec 11) : Statement (.csrwi csr imm11) := opField_packC _ _ _ _ _
theorem mask (rd rs1 : Reg) : Statement (.mask rd rs1) := opField_packR _ _ _ _ _ _
theorem wild (rd rs1 : Reg) : Statement (.wild rd rs1) := opField_packR _ _ _ _ _ _
theorem m2p (rd rs1 : Reg) : Statement (.m2p rd rs1) := opField_packR _ _ _ _ _ _
theorem b2v (rd rs1 : Reg) (nb : BitVec 4) : Statement (.b2v rd rs1 nb) := opField_packR _ _ _ _ _ _
theorem v2b (rd rs1 : Reg) : Statement (.v2b rd rs1) := opField_packR _ _ _ _ _ _
theorem bshl (rd rs1 : Reg) (k : BitVec 4) : Statement (.bshl rd rs1 k) := opField_packR _ _ _ _ _ _
theorem bshr (rd rs1 : Reg) (k : BitVec 4) : Statement (.bshr rd rs1 k) := opField_packR _ _ _ _ _ _
theorem brol (rd rs1 : Reg) (k : BitVec 4) : Statement (.brol rd rs1 k) := opField_packR _ _ _ _ _ _
theorem bror (rd rs1 : Reg) (k : BitVec 4) : Statement (.bror rd rs1 k) := opField_packR _ _ _ _ _ _
theorem clz (rd rs1 : Reg) : Statement (.clz rd rs1) := opField_packR _ _ _ _ _ _
theorem clo (rd rs1 : Reg) : Statement (.clo rd rs1) := opField_packR _ _ _ _ _ _
theorem lcp (rd rs1 rs2 : Reg) : Statement (.lcp rd rs1 rs2) := opField_packR _ _ _ _ _ _
theorem net (rd rs1 rs2 : Reg) : Statement (.net rd rs1 rs2) := opField_packR _ _ _ _ _ _
theorem bcast (rd rs1 rs2 : Reg) : Statement (.bcast rd rs1 rs2) := opField_packR _ _ _ _ _ _
theorem first (rd rs1 rs2 : Reg) : Statement (.first rd rs1 rs2) := opField_packR _ _ _ _ _ _
theorem last (rd rs1 rs2 : Reg) : Statement (.last rd rs1 rs2) := opField_packR _ _ _ _ _ _
theorem hcnt (rd rs2 : Reg) : Statement (.hcnt rd rs2) := opField_packR _ _ _ _ _ _
theorem isnet (rd rs1 rs2 : Reg) : Statement (.isnet rd rs1 rs2) := opField_packR _ _ _ _ _ _
theorem isbc (rd rs1 rs2 : Reg) : Statement (.isbc rd rs1 rs2) := opField_packR _ _ _ _ _ _
theorem cont (rd rs1 rs2 rs3 : Reg) : Statement (.cont rd rs1 rs2 rs3) := opField_packR _ _ _ _ _ _
theorem scn (rd rs1 rs2 : Reg) (h : Bool) : Statement (.scn rd rs1 rs2 h) := opField_packR _ _ _ _ _ _
theorem subcfg (rd rs1 rs2 rs3 : Reg) : Statement (.subcfg rd rs1 rs2 rs3) := opField_packR _ _ _ _ _ _
theorem subn (rd rs1 : Reg) : Statement (.subn rd rs1) := opField_packR _ _ _ _ _ _
theorem budg (rd rs1 rs2 rs3 : Reg) (subnets hosts : Bool) (pref : BitVec 2) : Statement (.budg rd rs1 rs2 rs3 subnets hosts pref) := opField_packR _ _ _ _ _ _

end Sys2Proof.Laws.EncodeOpcode
end

