-- ==== Sys2Proof/Laws/Subnet.lean ====
section
/-! SUPPORT. The enumerator and the budget as arithmetic (45_subnet.md R211 to R219). -/

namespace Sys2Proof.Machine

open Sys2Proof.Safety

/-! ## The enumerator -/

/-- Element i as a number, and where its subnet ends: inside the base network, inside the address space. -/
theorem toNat_element {s : State} (hi : Inv s) (hv : s.enumValid = true) {i : Word} (h : i.toNat < s.elementCount) :
    (s.element i).toNat = s.enumBase.toNat + i.toNat * 2 ^ (32 - s.enumT.toNat) ∧
    (s.element i).toNat + 2 ^ (32 - s.enumT.toNat) ≤ s.enumBase.toNat + 2 ^ (32 - s.enumP.toNat) ∧
    s.enumBase.toNat + 2 ^ (32 - s.enumP.toNat) ≤ 2 ^ 32 := by
  have hf := hi.enumFamily hv
  rcases hi.enumerator with h' | ⟨h1, h2, h3, h4⟩
  · rw [hv] at h'
    exact absurd h'.1 (by decide)
  unfold State.elementCount at h
  have e : 2 ^ (32 - s.enumP.toNat) = 2 ^ (s.enumT.toNat - s.enumP.toNat) * 2 ^ (32 - s.enumT.toNat) := by
    rw [← Nat.pow_add]
    congr 1
    omega
  have l1 : (i.toNat + 1) * 2 ^ (32 - s.enumT.toNat) ≤ 2 ^ (32 - s.enumP.toNat) := by
    rw [e]
    exact Nat.mul_le_mul_right _ h
  have l2 : s.enumBase.toNat + 2 ^ (32 - s.enumP.toNat) ≤ 2 ^ 32 := by
    obtain ⟨k, hk⟩ := h4
    have hs := two_pow_split (p := s.enumP.toNat) (by omega)
    rw [Nat.mul_comm] at hs
    rw [hk] at h3 ⊢
    rw [hs] at h3 ⊢
    rw [← Nat.mul_succ]
    exact Nat.mul_le_mul_left _ (Nat.lt_of_mul_lt_mul_left h3)
  rw [Nat.add_mul] at l1
  have hz := Nat.two_pow_pos (32 - s.enumT.toNat)
  have hn : (s.element i).toNat = s.enumBase.toNat + i.toNat * 2 ^ (32 - s.enumT.toNat) := by
    rw [State.element, hf, BitVec.toNat_add, BitVec.toNat_shiftLeft, Nat.shiftLeft_eq]
    show (s.enumBase.toNat + i.toNat * 2 ^ (32 - s.enumT.toNat) % 2 ^ 128) % 2 ^ 128 = _
    rw [Nat.mod_eq_of_lt (a := i.toNat * _) (by omega), Nat.mod_eq_of_lt (by omega)]
  exact ⟨hn, by omega, l2⟩

/-! ## The budget -/

/-- A request that fits, exactly or with x bits to spare. -/
theorem reconcile_surplus {n h x avail : Nat} (e : n + h + x = avail) (single : Bool) (pref : Preference) :
    BitBudget.reconcile ⟨n, h⟩ avail single pref = .ok (BitBudget.addSurplus ⟨n, h⟩ x pref) := by
  simp only [BitBudget.reconcile]
  split
  · rw [show avail - (n + h) = x by omega]
  · rw [if_neg (by omega)]
    have : x = 0 := by omega
    subst this
    cases pref <;> rfl

/-- With exactly one count requested a deficit is an error. -/
theorem reconcile_single_deficit {n h avail : Nat} (e : avail < n + h) (pref : Preference) :
    BitBudget.reconcile ⟨n, h⟩ avail true pref = .error .range := by
  simp only [BitBudget.reconcile]
  rw [if_neg (by omega), if_pos (by omega)]
  exact if_pos e

/-- With both or neither requested a deficit of d shrinks the budget. -/
theorem reconcile_deficit {n h d avail : Nat} (e : n + h = avail + d) (hd : 1 ≤ d) (pref : Preference) :
    BitBudget.reconcile ⟨n, h⟩ avail false pref =
      if avail < (BitBudget.shrinkDeficit ⟨n, h⟩ d pref).net + (BitBudget.shrinkDeficit ⟨n, h⟩ d pref).host
      then .error .range else .ok (BitBudget.shrinkDeficit ⟨n, h⟩ d pref) := by
  simp only [BitBudget.reconcile]
  rw [if_neg (by omega), if_pos (by omega), show n + h - avail = d by omega]
  rfl

theorem shrink_of_lt {n d : Nat} (h : d < n) : shrink n d = n - d := if_pos h

theorem shrink_of_le {n d : Nat} (h : n ≤ d) : shrink n d = n := if_neg (by omega)

/-- Hosts always want a bit. -/
theorem requestedHostBits_pos (n : Option Nat) : 1 ≤ requestedHostBits n := by
  cases n with
  | none => exact Nat.le_refl _
  | some n =>
    have := clog2_eq_zero_iff (n + 2)
    show 1 ≤ clog2 (n + 2)
    omega

/-- BUDG's last step: a budget with a subnet bit gives the target. -/
theorem target_of_pos {b : BitBudget} {p : Nat} (h : 0 < b.net) :
    (do check (decide (0 < b.net)) .range; return p + b.net : Except ErrorCode Nat) = .ok (p + b.net) := by
  simp [h]

/-- BUDG's last step without a subnet bit. -/
theorem target_of_zero {b : BitBudget} {p : Nat} (h : b.net = 0) :
    (do check (decide (0 < b.net)) .range; return p + b.net : Except ErrorCode Nat) = .error .range := by
  simp [h]

/-- BUDG with both counts or neither: the preference is PREF and the two wanted bit counts are reconciled. -/
theorem budgetTarget_both {f : Family} {p nb hb : Nat} {subnets hosts : Option Nat} (pref : Preference)
    (he : subnets.isSome = hosts.isSome) (hn : requestedNetBits subnets = .ok nb)
    (hh : requestedHostBits hosts = hb) :
    budgetTarget f p subnets hosts pref =
      (BitBudget.reconcile ⟨nb, hb⟩ (maxBits f - p) false pref >>= fun b => do
        check (decide (0 < b.net)) .range
        return p + b.net) := by
  have h1 : (subnets.isSome ^^ hosts.isSome) = false := by rw [he, Bool.xor_self]
  have h2 : preferenceInForce subnets.isSome hosts.isSome pref = pref := by
    rw [he]
    cases hosts.isSome <;> rfl
  simp only [budgetTarget, hn, hh, h1, h2, except_bind_ok]

end Sys2Proof.Machine
end

