-- ==== Sys2Proof/Tests/Slice0.lean ====
section
/-! SUPPORT. The model's own tests: well-formedness, decoding, one step of each command, and a witness for the hypotheses
of every statement. Expected values are those of the rules' examples and of 95_test_vectors.md. -/

namespace Sys2Proof.Tests

open Sys2Proof.Machine Sys2Proof.Safety

-- One test after another: a thread for each would ask for more memory than the check allows.
set_option Elab.async false

/-! ## Well-formedness (the one check: BUDG's PREF, 30_encoding.md R76) -/

theorem test_wellFormed_pref3 : Instr.wellFormed (.budg 2 1 0 3 false true 3) = false := rfl

theorem test_wellFormed_pref2 : Instr.wellFormed (.budg 2 1 0 3 false true 2) = true := rfl

/-! ## Decoding: for each command a word written out field by field from 30_encoding.md R70 to R75

Format R is op_rd_rs1_rs2_rs3_f, format I op_rd_imm23, format C op_rd_rs1_zero_imm11_csr. -/

theorem test_decode_nop : decode 0b000000_000_000_000_000_00000000000000#32 = .ok (.nop) := by decide
theorem test_decode_ldi : decode 0b000001_101_10000010010001101000101#32 = .ok (.ldi 5 0x412345) := by decide
theorem test_decode_wr : decode 0b000010_110_000_000_000_00000000000000#32 = .ok (.wr 6) := by decide
theorem test_decode_rd : decode 0b000011_000_110_000_000_00000000000000#32 = .ok (.rd 6) := by decide
theorem test_decode_mov : decode 0b000100_101_011_000_000_00000000000000#32 = .ok (.mov 5 3) := by decide
theorem test_decode_csrr : decode 0b000101_101_000_000000_00000000000_100#32 = .ok (.csrr 5 4) := by decide
theorem test_decode_csrw : decode 0b000110_000_110_000000_00000000000_001#32 = .ok (.csrw 1 6) := by decide
theorem test_decode_csrwi : decode 0b000111_000_000_000000_10101010101_011#32 = .ok (.csrwi 3 0x555) := by decide
theorem test_decode_mask : decode 0b001000_101_011_000_000_00000000000000#32 = .ok (.mask 5 3) := by decide
theorem test_decode_wild : decode 0b001001_101_011_000_000_00000000000000#32 = .ok (.wild 5 3) := by decide
theorem test_decode_m2p : decode 0b001010_101_011_000_000_00000000000000#32 = .ok (.m2p 5 3) := by decide
theorem test_decode_b2v : decode 0b010000_101_011_000_000_00000000001001#32 = .ok (.b2v 5 3 9) := by decide
theorem test_decode_v2b : decode 0b010001_101_011_000_000_00000000000000#32 = .ok (.v2b 5 3) := by decide
theorem test_decode_bshl : decode 0b010010_101_011_000_000_00000000001010#32 = .ok (.bshl 5 3 10) := by decide
theorem test_decode_bshr : decode 0b010011_101_011_000_000_00000000001010#32 = .ok (.bshr 5 3 10) := by decide
theorem test_decode_brol : decode 0b010100_101_011_000_000_00000000001010#32 = .ok (.brol 5 3 10) := by decide
theorem test_decode_bror : decode 0b010101_101_011_000_000_00000000001010#32 = .ok (.bror 5 3 10) := by decide
theorem test_decode_clz : decode 0b011000_101_011_000_000_00000000000000#32 = .ok (.clz 5 3) := by decide
theorem test_decode_clo : decode 0b011001_101_011_000_000_00000000000000#32 = .ok (.clo 5 3) := by decide
theorem test_decode_lcp : decode 0b011010_101_011_110_000_00000000000000#32 = .ok (.lcp 5 3 6) := by decide
theorem test_decode_net : decode 0b100000_101_011_110_000_00000000000000#32 = .ok (.net 5 3 6) := by decide
theorem test_decode_bcast : decode 0b100001_101_011_110_000_00000000000000#32 = .ok (.bcast 5 3 6) := by decide
theorem test_decode_first : decode 0b100010_101_011_110_000_00000000000000#32 = .ok (.first 5 3 6) := by decide
theorem test_decode_last : decode 0b100011_101_011_110_000_00000000000000#32 = .ok (.last 5 3 6) := by decide
theorem test_decode_hcnt : decode 0b100100_101_000_110_000_00000000000000#32 = .ok (.hcnt 5 6) := by decide
theorem test_decode_isnet : decode 0b100101_101_011_110_000_00000000000000#32 = .ok (.isnet 5 3 6) := by decide
theorem test_decode_isbc : decode 0b100110_101_011_110_000_00000000000000#32 = .ok (.isbc 5 3 6) := by decide
theorem test_decode_cont : decode 0b100111_101_011_110_001_00000000000000#32 = .ok (.cont 5 3 6 1) := by decide
theorem test_decode_scn : decode 0b101000_101_011_110_000_00000000000001#32 = .ok (.scn 5 3 6 true) := by decide
theorem test_decode_subcfg : decode 0b110000_101_011_110_001_00000000000000#32 = .ok (.subcfg 5 3 6 1) := by decide
theorem test_decode_subn : decode 0b110001_101_011_000_000_00000000000000#32 = .ok (.subn 5 3) := by decide
theorem test_decode_budg : decode 0b110010_101_011_110_001_00000000001001#32 = .ok (.budg 5 3 6 1 true false 2) := by decide

/-- Words that are no command (30_encoding.md R77; 95_test_vectors.md "Decode errors"). -/
theorem test_decode_illegal :
    decode 0x00000001 = .error .requiredZero ∧ decode 0x38000000 = .error .reservedOpcode ∧
    decode 0xFC000000 = .error .reservedOpcode ∧ decode 0x21100001 = .error .requiredZero ∧
    decode 0x0C240000 = .error .requiredZero ∧ decode 0xC910C00E = .error .reservedPref := by decide

/-- The encoder gives the words of the rules' examples. -/
theorem test_encode :
    encode (.ldi 1 24) = 0x04800018 ∧ encode (.csrwi 1 1) = 0x1C000009 ∧ encode (.hcnt 2 1) = 0x91020000 ∧
    encode (.cont 3 0 1 2) = 0x9D828000 ∧ encode (.scn 2 0 1 true) = 0xA1020001 ∧
    encode (.budg 2 1 0 3 false true 0) = 0xC910C002 := by decide

/-- The opcode table's numbering of bits is cmd_word's; a word with a bit above 31 is no command. -/
theorem test_decodeTableWord :
    decodeTableWord 32 0x21100000 = some (.mask 2 1) ∧ decodeTableWord 32 0x00000001 = none ∧
    decodeTableWord 40 0x121100000 = none := by decide

/-- The pseudo-instructions' words (30_encoding.md R81; 40_control.md R107, 44_network.md R188). -/
theorem test_pseudo :
    encode (expand .setfam2) = 0x1C000008 ∧ encode (expand .clrerr) = 0x1C000009 ∧
    encode (expand (.scnh 2 0 1)) = 0xA1020001 ∧ encode (expand (.li 1 24)) = 0x04800018 := by decide

/-- Assembler text (30_encoding.md R80). -/
theorem test_assembly :
    assembly (.budg 2 1 0 3 false true 0) = "budg r2, r1, r0, r3, 0, 1, 0" ∧
    assembly (.csrwi 0 1) = "csrwi cfg, 1" ∧ assembly (.csrr 7 1) = "csrr r7, status" ∧ assembly .nop = "nop" := by
  decide +kernel

/-! ## One step of each command -/

/-- An idle unit fresh from reset but for the family and R0 to R4. -/
def mk (f : Family) (r0 r1 r2 r3 r4 : Word) : State :=
  { State.reset with fam := f, regs := #v[r0, r1, r2, r3, r4, 0, 0, 0] }

/-- The unit after `subcfg r3, r0, r1, r2` of 192.168.0.0/16 at /18, with R4 = i (45_subnet.md R210). -/
def enumerating (i : Word) : State :=
  { mk .family1 0xC0A80000 16 18 4 i with enumValid := true, enumP := 16, enumT := 18, enumBase := 0xC0A80000 }

/-- One step with the command word offered: the response's status and data, and register r afterwards. -/
def ran (s : State) (word : Nat) (r : Reg) : Option (Nat × Nat × Nat) :=
  match step (s.withFetchWord 32 word) with
  | .next t => t.rsp.map fun q => (q.status.toNat, q.data.toNat, (t.reg r).toNat)
  | .fault _ => none
  | .refused _ => none

/-- The response that an outcome leaves pending. -/
def answerOf : Outcome → Option Response
  | .next t => t.rsp
  | .fault _ => none
  | .refused _ => none

/-- A control register after one step with the command word offered. -/
def csrAfter (s : State) (word : Nat) (n : BitVec 3) : Option Nat :=
  match step (s.withFetchWord 32 word) with
  | .next t => (t.readCsr n).toOption.map fun v => v.toNat
  | .fault _ => none
  | .refused _ => none

/-- L2-C1: nop with reset state. -/
theorem test_nop_C1 :
    ran (mk .family1 0 0 0 0 0) 0x00000000 0
      = some (0, 0, 0) := by
  decide +kernel

/-- L2-C2: ldi r1, 0x7FFFFF with reset state. -/
theorem test_ldi_C2 :
    ran (mk .family1 0 0 0 0 0) 0x04FFFFFF 1
      = some (0, 0x7FFFFF, 0x7FFFFF) := by
  decide +kernel

/-- L2-C3: wr r2 with reset state. -/
theorem test_wr_C3 :
    ran { mk .family1 0 0 0 0 0 with cmdData := 0xFFFFFFFFFFFFFFFFFFFFFFFFFFFFFFFF } 0x09000000 2
      = some (0, 0xFFFFFFFFFFFFFFFFFFFFFFFFFFFFFFFF, 0xFFFFFFFFFFFFFFFFFFFFFFFFFFFFFFFF) := by
  decide +kernel

/-- L2-C4: rd r2 with R2 = 0xc0a82a0a. -/
theorem test_rd_C4 :
    ran (mk .family1 0 0 0xC0A82A0A 0 0) 0x0C200000 2
      = some (0, 0xC0A82A0A, 0xC0A82A0A) := by
  decide +kernel

/-- L2-C5: mov r3, r0 with R0 = 0xc0a82a0a. -/
theorem test_mov_C5 :
    ran (mk .family1 0xC0A82A0A 0 0 0 0) 0x11800000 3
      = some (0, 0xC0A82A0A, 0xC0A82A0A) := by
  decide +kernel

/-- L2-C6: csrr r7, params with reset state. -/
theorem test_csrr_C6 :
    ran (mk .family1 0 0 0 0 0) 0x17800002 7
      = some (0, 0x40820, 0x40820) := by
  decide +kernel

/-- L2-C9: csrr r7, 5 with reset state. -/
theorem test_csrr_C9 :
    ran (mk .family1 0 0 0 0 0) 0x17800005 7
      = some (4, 0, 0) := by
  decide +kernel

/-- L2-C10: csrw params, r1 with R1 = 0x3. -/
theorem test_csrw_C10 :
    ran (mk .family1 0 3 0 0 0) 0x18100002 0
      = some (4, 0, 0) := by
  decide +kernel

/-- L2-C11: csrwi cfg, 1 with reset state. -/
theorem test_csrwi_C11 :
    ran (mk .family1 0 0 0 0 0) 0x1C000008 0
      = some (0, 0, 0) := by
  decide +kernel

/-- L2-M24: mask r2, r1 with R1 = 0x18. -/
theorem test_mask_M24 :
    ran (mk .family1 0 0x18 0 0 0) 0x21100000 2
      = some (0, 0xFFFFFF00, 0xFFFFFF00) := by
  decide +kernel

/-- L2-Mneg: mask r2, r1 with R1 = -1. -/
theorem test_mask_Mneg :
    ran (mk .family1 0 0xFFFFFFFFFFFFFFFFFFFFFFFFFFFFFFFF 0 0 0) 0x21100000 2
      = some (1, 0, 0) := by
  decide +kernel

/-- L2-W24: wild r2, r1 with R1 = 0x18. -/
theorem test_wild_W24 :
    ran (mk .family1 0 0x18 0 0 0) 0x25100000 2
      = some (0, 0xFF, 0xFF) := by
  decide +kernel

/-- L2-W32: wild r2, r1 with R1 = 0x20. -/
theorem test_wild_W32 :
    ran (mk .family1 0 0x20 0 0 0) 0x25100000 2
      = some (0, 0, 0) := by
  decide +kernel

/-- L2-P25: m2p r3, r2 with R2 = 0xffffff80. -/
theorem test_m2p_P25 :
    ran (mk .family1 0 0 0xFFFFFF80 0 0) 0x29A00000 3
      = some (0, 0x19, 0x19) := by
  decide +kernel

/-- L2-Pbad: m2p r3, r2 with R2 = 0xffffff01. -/
theorem test_m2p_Pbad :
    ran (mk .family1 0 0 0xFFFFFF01 0 0) 0x29A00000 3
      = some (2, 0, 0) := by
  decide +kernel

/-- L2-B1: b2v r1, r0, 4 with R0 = 0x192016800420010. -/
theorem test_b2v_B1 :
    ran (mk .family1 0x192016800420010 0 0 0 0) 0x40800004 1
      = some (0, 0xC0A82A0A, 0xC0A82A0A) := by
  decide +kernel

/-- L2-B3: b2v r1, r0, 4 with R0 = 0x256000000000000. -/
theorem test_b2v_B3 :
    ran (mk .family1 0x256000000000000 0 0 0 0) 0x40800004 1
      = some (2, 0, 0) := by
  decide +kernel

/-- L2-V1: v2b r2, r1 with R1 = 0xc0a82a0a. -/
theorem test_v2b_V1 :
    ran (mk .family1 0 0xC0A82A0A 0 0 0) 0x45100000 2
      = some (0, 0x192016800420010, 0x192016800420010) := by
  decide +kernel

/-- L2-V5: v2b r2, r1 with FAM=1; R1 = 0x20010db8000000000000000000000001. -/
theorem test_v2b_V5 :
    ran (mk .family2 0 0x20010DB8000000000000000000000001 0 0 0) 0x45100000 2
      = some (0, 0x20010DB8000000000000000000000001, 0x20010DB8000000000000000000000001) := by
  decide +kernel

/-- L2-SL1: bshl r2, r1, 1 with R1 = 0xc0a82a0a. -/
theorem test_bshl_SL1 :
    ran (mk .family1 0 0xC0A82A0A 0 0 0) 0x49100001 2
      = some (0, 0xA82A0A00, 0xA82A0A00) := by
  decide +kernel

/-- L2-SLw: bshl r2, r1, 1 with R1 = 0x10000000000. -/
theorem test_bshl_SLw :
    ran (mk .family1 0 0x10000000000 0 0 0) 0x49100001 2
      = some (2, 0, 0) := by
  decide +kernel

/-- L2-SR1: bshr r2, r1, 1 with R1 = 0xc0a82a0a. -/
theorem test_bshr_SR1 :
    ran (mk .family1 0 0xC0A82A0A 0 0 0) 0x4D100001 2
      = some (0, 0xC0A82A, 0xC0A82A) := by
  decide +kernel

/-- L2-SR6: bshr r2, r1, 7 with FAM=1; R1 = 0x20010db8000000000000000000000001. -/
theorem test_bshr_SR6 :
    ran (mk .family2 0 0x20010DB8000000000000000000000001 0 0 0) 0x4D100007 2
      = some (0, 0x2001, 0x2001) := by
  decide +kernel

/-- L2-RL5: brol r2, r1, 5 with R1 = 0xc0a82a0a. -/
theorem test_brol_RL5 :
    ran (mk .family1 0 0xC0A82A0A 0 0 0) 0x51100005 2
      = some (0, 0xA82A0AC0, 0xA82A0AC0) := by
  decide +kernel

/-- L2-RL6: brol r2, r1, 1 with FAM=1; R1 = 0x20010db8000000000000000000000001. -/
theorem test_brol_RL6 :
    ran (mk .family2 0 0x20010DB8000000000000000000000001 0 0 0) 0x51100001 2
      = some (0, 0xDB80000000000000000000000012001, 0xDB80000000000000000000000012001) := by
  decide +kernel

/-- L2-RR1: bror r2, r1, 1 with R1 = 0xc0a82a0a. -/
theorem test_bror_RR1 :
    ran (mk .family1 0 0xC0A82A0A 0 0 0) 0x55100001 2
      = some (0, 0xAC0A82A, 0xAC0A82A) := by
  decide +kernel

/-- L2-RR3: bror r2, r1, 3 with R1 = 0xc0a82a0a. -/
theorem test_bror_RR3 :
    ran (mk .family1 0 0xC0A82A0A 0 0 0) 0x55100003 2
      = some (0, 0xA82A0AC0, 0xA82A0AC0) := by
  decide +kernel

/-- L2-Z0: clz r2, r1 with R1 = 0x0. -/
theorem test_clz_Z0 :
    ran (mk .family1 0 0 0 0 0) 0x61100000 2
      = some (0, 0x20, 0x20) := by
  decide +kernel

/-- L2-Zf2: clz r2, r1 with FAM=1; R1 = 0x1. -/
theorem test_clz_Zf2 :
    ran (mk .family2 0 1 0 0 0) 0x61100000 2
      = some (0, 0x7F, 0x7F) := by
  decide +kernel

/-- L2-Offfff000: clo r2, r1 with R1 = 0xfffff000. -/
theorem test_clo_Offfff000 :
    ran (mk .family1 0 0xFFFFF000 0 0 0) 0x65100000 2
      = some (0, 0x14, 0x14) := by
  decide +kernel

/-- L2-O7fffffff: clo r2, r1 with R1 = 0x7fffffff. -/
theorem test_clo_O7fffffff :
    ran (mk .family1 0 0x7FFFFFFF 0 0 0) 0x65100000 2
      = some (0, 0, 0) := by
  decide +kernel

/-- L2-L1: lcp r2, r0, r1 with R0 = 0xc0a82a0a, R1 = 0xc0a82a0b. -/
theorem test_lcp_L1 :
    ran (mk .family1 0xC0A82A0A 0xC0A82A0B 0 0 0) 0x69020000 2
      = some (0, 0x1F, 0x1F) := by
  decide +kernel

/-- L2-L4: lcp r2, r0, r1 with R0 = 0xc0a82a0a, R1 = 0x100000000. -/
theorem test_lcp_L4 :
    ran (mk .family1 0xC0A82A0A 0x100000000 0 0 0) 0x69020000 2
      = some (2, 0, 0) := by
  decide +kernel

/-- L2-N24: net r2, r0, r1 with R0 = 0xc0a82a0a, R1 = 0x18. -/
theorem test_net_N24 :
    ran (mk .family1 0xC0A82A0A 0x18 0 0 0) 0x81020000 2
      = some (0, 0xC0A82A00, 0xC0A82A00) := by
  decide +kernel

/-- L2-Nw: net r2, r0, r1 with R0 = 0x100000000, R1 = 0x28. -/
theorem test_net_Nw :
    ran (mk .family1 0x100000000 0x28 0 0 0) 0x81020000 2
      = some (2, 0, 0) := by
  decide +kernel

/-- L2-BC31: bcast r2, r0, r1 with R0 = 0xc0a82a0a, R1 = 0x1f. -/
theorem test_bcast_BC31 :
    ran (mk .family1 0xC0A82A0A 0x1F 0 0 0) 0x85020000 2
      = some (0, 0xC0A82A0B, 0xC0A82A0B) := by
  decide +kernel

/-- L2-BC0: bcast r2, r0, r1 with R0 = 0xc0a82a0a, R1 = 0x0. -/
theorem test_bcast_BC0 :
    ran (mk .family1 0xC0A82A0A 0 0 0 0) 0x85020000 2
      = some (0, 0xFFFFFFFF, 0xFFFFFFFF) := by
  decide +kernel

/-- L2-FI31: first r2, r0, r1 with R0 = 0xc0a82a0a, R1 = 0x1f. -/
theorem test_first_FI31 :
    ran (mk .family1 0xC0A82A0A 0x1F 0 0 0) 0x89020000 2
      = some (0, 0xC0A82A0B, 0xC0A82A0B) := by
  decide +kernel

/-- L2-FIw: first r2, r0, r1 with R0 = 0xffffffff, R1 = 0x20. -/
theorem test_first_FIw :
    ran (mk .family1 0xFFFFFFFF 0x20 0 0 0) 0x89020000 2
      = some (1, 0, 0) := by
  decide +kernel

/-- L2-LA32: last r2, r0, r1 with R0 = 0xc0a82a0a, R1 = 0x20. -/
theorem test_last_LA32 :
    ran (mk .family1 0xC0A82A0A 0x20 0 0 0) 0x8D020000 2
      = some (0, 0xC0A82A09, 0xC0A82A09) := by
  decide +kernel

/-- L2-LAw: last r2, r0, r1 with R0 = 0x0, R1 = 0x20. -/
theorem test_last_LAw :
    ran (mk .family1 0 0x20 0 0 0) 0x8D020000 2
      = some (1, 0, 0) := by
  decide +kernel

/-- L2-H24: hcnt r2, r1 with R1 = 0x18. -/
theorem test_hcnt_H24 :
    ran (mk .family1 0 0x18 0 0 0) 0x91020000 2
      = some (0, 0xFE, 0xFE) := by
  decide +kernel

/-- L2-H32: hcnt r2, r1 with R1 = 0x20. -/
theorem test_hcnt_H32 :
    ran (mk .family1 0 0x20 0 0 0) 0x91020000 2
      = some (0, 0xFFFFFFFFFFFFFFFFFFFFFFFFFFFFFFFF, 0xFFFFFFFFFFFFFFFFFFFFFFFFFFFFFFFF) := by
  decide +kernel

/-- L2-IN1: isnet r2, r0, r1 with R0 = 0xc0a82a0a, R1 = 0x18. -/
theorem test_isnet_IN1 :
    ran (mk .family1 0xC0A82A0A 0x18 0 0 0) 0x95020000 2
      = some (0, 0, 0) := by
  decide +kernel

/-- L2-IB1: isbc r2, r0, r1 with R0 = 0xc0a82a0b, R1 = 0x1f. -/
theorem test_isbc_IB1 :
    ran (mk .family1 0xC0A82A0B 0x1F 0 0 0) 0x99020000 2
      = some (0, 1, 1) := by
  decide +kernel

/-- L2-IB2: isbc r2, r0, r1 with R0 = 0xc0a82a0a, R1 = 0x1f. -/
theorem test_isbc_IB2 :
    ran (mk .family1 0xC0A82A0A 0x1F 0 0 0) 0x99020000 2
      = some (0, 0, 0) := by
  decide +kernel

/-- L2-CT1: cont r3, r0, r1, r2 with R0 = 0xc0a80000, R1 = 0x10, R2 = 0xc0a90001. -/
theorem test_cont_CT1 :
    ran (mk .family1 0xC0A80000 0x10 0xC0A90001 0 0) 0x9D828000 3
      = some (0, 0, 0) := by
  decide +kernel

/-- L2-CT2: cont r3, r0, r1, r2 with R0 = 0xa000000, R1 = 0x0, R2 = 0xc0a90001. -/
theorem test_cont_CT2 :
    ran (mk .family1 0xA000000 0 0xC0A90001 0 0) 0x9D828000 3
      = some (0, 1, 1) := by
  decide +kernel

/-- L2-S2: scn r2, r0, r1, 1 with R0 = 0xc0a82a0a, R1 = 0xc0a82a0b. -/
theorem test_scn_S2 :
    ran (mk .family1 0xC0A82A0A 0xC0A82A0B 0 0 0) 0xA1020001 2
      = some (0, 0x1D, 0x1D) := by
  decide +kernel

/-- L2-S7: scn r2, r0, r1, 1 with R0 = 0xa000000, R1 = 0xa000001. -/
theorem test_scn_S7 :
    ran (mk .family1 0xA000000 0xA000001 0 0 0) 0xA1020001 2
      = some (0, 6, 6) := by
  decide +kernel

/-- L2-SC1: subcfg r3, r0, r1, r2 with R0 = 0xc0a80507, R1 = 0x10, R2 = 0x12. -/
theorem test_subcfg_SC1 :
    ran (mk .family1 0xC0A80507 0x10 0x12 0 0) 0xC1828000 3
      = some (0, 4, 4) := by
  decide +kernel

/-- L2-SC3: subcfg r3, r0, r1, r2 with R0 = 0x0, R1 = 0x10, R2 = 0x10. -/
theorem test_subcfg_SC3 :
    ran (mk .family1 0 0x10 0x10 0 0) 0xC1828000 3
      = some (1, 0, 0) := by
  decide +kernel

/-- L2-SN2: subn r5, r4 with R0 = 0xc0a80000, R1 = 0x10, R2 = 0x12, R4 = 0x2; after `subcfg r3, r0, r1, r2`. -/
theorem test_subn_SN2 :
    ran (enumerating 2) 0xC6C00000 5
      = some (0, 0xC0A88000, 0xC0A88000) := by
  decide +kernel

/-- L2-SNq: subn r5, r4 with R4 = 0x0. -/
theorem test_subn_SNq :
    ran (mk .family1 0 0 0 0 0) 0xC6C00000 5
      = some (6, 0, 0) := by
  decide +kernel

/-- L2-G10: budg r4, r1, r2, r3, 1, 1, 0 with R1 = 0x18, R2 = 0x100, R3 = 0x3e8. -/
theorem test_budg_G10 :
    ran (mk .family1 0 0x18 0x100 0x3E8 0) 0xCA14C003 4
      = some (0, 0x1B, 0x1B) := by
  decide +kernel

/-- L2-G17: budg r4, r1, r2, r3, 1, 0, 1 with R1 = 0x18, R2 = 0x40, R3 = 0x0. -/
theorem test_budg_G17 :
    ran (mk .family1 0 0x18 0x40 0 0) 0xCA14C005 4
      = some (0, 0x1E, 0x1E) := by
  decide +kernel

/-- R106's example: with R1 = 1, csrw cfg, r1 selects family 2. -/
theorem test_csrw_cfg : csrAfter (mk .family1 0 1 0 0 0) 0x18100000 0 = some 1 := by decide +kernel

/-- R107: csrwi cfg, 2 writes FAM = 0. -/
theorem test_csrwi_cfg2 : csrAfter (mk .family2 0 0 0 0 0) 0x1C000010 0 = some 0 := by decide +kernel

/-- R185's example: 192.168.42.0/24 is a network address. -/
theorem test_isnet_R185 : ran (mk .family1 0xC0A82A00 24 0 0 0) 0x95020000 2 = some (0, 1, 1) := by decide +kernel

/-- R210's stored configuration, as ENUMCFG reads it. -/
theorem test_subcfg_enumcfg : csrAfter (mk .family1 0xC0A80507 16 18 0 0) 0xC1828000 3 = some 0x11210 := by
  decide +kernel

/-- "Decode errors": STATUS after an illegal word, from reset. -/
theorem test_illegal_status :
    csrAfter State.reset 0x38000000 1 = some 0xE41 ∧ csrAfter State.reset 0xC910C00E 1 = some 0x3241 := by
  decide +kernel

/-- L2-E5: STATUS keeps the first error. -/
theorem test_first_error_kept :
    csrAfter { mk .family1 0 0 0xFFFFFF01 0 0 with err := true, code := 1, eop := 8 } 0x29A00000 1 = some 0x811 := by
  decide +kernel

/-- The source is also the destination: mask r1, r1. -/
theorem test_mask_same_register : ran (mk .family1 0 24 0 0 0) 0x20900000 1 = some (0, 0xFFFFFF00, 0xFFFFFF00) := by
  decide +kernel

/-! ## Witnesses: each statement's hypotheses are met together by the states and operands named here

`wit_<statement>` for Obligations.<Statement>; one for each clause where a statement has several. -/

/-- A port sample that offers a command with the given extra latency. -/
def offerOf (w : CommandWord) (wait : Nat) : PortSample :=
  { PortSample.idle with cmdValid := true, cmdWord := w, wait := wait }

/-- A unit with a command in flight: MASK r2, r1 with R1 = 24. -/
def inFlight (wait : Nat) (inputs : List PortSample) : State :=
  { mk .family1 0 24 0 0 0 with busy := true, cmdWord := 0x21100000, wait := wait, inputs := inputs }

/-- A unit whose MASK r2, r1 has been answered. -/
def answered (inputs : List PortSample) : State :=
  { mk .family1 0 24 0xFFFFFF00 0 0 with rsp := some ⟨0, 0xFFFFFF00⟩, inputs := inputs }

theorem wit_resetEdge : ∃ (s : State) (p : PortSample) (rest : List PortSample),
    s.inputs = p :: rest ∧ p.rstN = false ∧ s.busy = true :=
  ⟨inFlight 3 [{ PortSample.idle with rstN := false }], _, _, rfl, rfl, rfl⟩

theorem wit_stepExecutes_offered : ∃ (s : State) (p : PortSample) (rest : List PortSample) (i : Instr),
    s.inputs = p :: rest ∧ p.rstN = true ∧ p.cmdValid = true ∧ p.wait = 0 ∧ s.busy = false ∧ s.rsp = none ∧
    decode p.cmdWord = .ok i :=
  ⟨{ mk .family1 0 24 0 0 0 with inputs := [offerOf 0x21100000 0] }, _, _, .mask 2 1,
    rfl, rfl, rfl, rfl, rfl, rfl, by decide⟩

theorem wit_stepExecutes_inFlight : ∃ (s : State) (i : Instr),
    NoResetNext s ∧ s.busy = true ∧ s.rsp = none ∧ s.wait = 0 ∧ decode s.cmdWord = .ok i :=
  ⟨inFlight 0 [], .mask 2 1, (fun _ h => nomatch h), rfl, rfl, rfl, by decide⟩

theorem wit_stepExecutes_placed : ∃ (w : CommandWord) (i : Instr), decode w = .ok i :=
  ⟨0xFFFFFFFF#32 &&& 0x07FFFFFF#32, .ldi 7 0x7FFFFF, by decide⟩

theorem wit_latency_offered : ∃ (s : State) (p : PortSample) (rest : List PortSample) (n : Nat),
    s.inputs = p :: rest ∧ p.rstN = true ∧ p.cmdValid = true ∧ p.wait = n + 1 ∧ s.busy = false ∧ s.rsp = none :=
  ⟨{ mk .family1 0 24 0 0 0 with inputs := [offerOf 0x21100000 1] }, _, _, 0, rfl, rfl, rfl, rfl, rfl, rfl⟩

theorem wit_latency_inFlight : ∃ (s : State) (n : Nat),
    NoResetNext s ∧ s.busy = true ∧ s.rsp = none ∧ s.wait = n + 1 :=
  ⟨inFlight 1 [], 0, (fun _ h => nomatch h), rfl, rfl, rfl⟩

theorem wit_illegalWord : ∃ s : State, NoResetNext s ∧ s.busy = true ∧ s.rsp = none ∧ s.wait = 0 ∧
    ∀ i, decode s.cmdWord ≠ .ok i :=
  ⟨{ inFlight 0 [] with cmdWord := 0x00000001 }, (fun _ h => nomatch h), rfl, rfl, rfl, fun _ h => nomatch h⟩

theorem wit_commandNeedsReady : ∃ (s : State) (p q : PortSample),
    (s.outputs true).cmdReady = false ∧ p.rstN = q.rstN ∧ p.rspReady = q.rspReady ∧ p ≠ q :=
  ⟨answered [], offerOf 0x21100000 0, PortSample.idle, by decide, rfl, rfl, by decide⟩

theorem wit_response : ∃ (s : State) (p q : PortSample) (rest : List PortSample) (r : Response),
    s.inputs = p :: q :: rest ∧ p.rstN = true ∧ s.rsp = some r ∧ p.rspReady = false ∧ q.rspReady = true :=
  ⟨answered [PortSample.idle, { PortSample.idle with rspReady := true }], _, _, _, _, rfl, rfl, rfl, rfl, rfl⟩

theorem wit_idle : ∃ (n : Nat) (s : State), s.busy = false ∧ s.rsp = none ∧ 0 < n ∧ s.inputs ≠ [] ∧
    ∀ p ∈ s.inputs.take n, p.rstN = true ∧ p.cmdValid = false :=
  ⟨3, { mk .family1 0 24 0 0 0 with inputs := [PortSample.idle, PortSample.idle] }, rfl, rfl, by decide, by decide,
    by decide⟩

theorem wit_acceptedIsAnswered : ∃ (n : Nat) (s : State), s.busy = true ∧ s.rsp = none ∧ s.wait = n ∧
    ∀ p ∈ s.inputs.take (n + 1), p.rstN = true :=
  ⟨2, inFlight 2 [PortSample.idle], rfl, rfl, rfl, by decide⟩

/-- Three commands: SUBCFG with no extra latency, SUBN with two extra edges, and an illegal word. -/
def someIssues : List Issue := [⟨0xC1828000, 0, 0⟩, ⟨0xC6C00000, 0, 2⟩, ⟨0x00000001, 0, 1⟩]

theorem wit_handshake : ∃ (cs : List Issue) (s : State) (rest : List PortSample),
    s.busy = false ∧ s.rsp = none ∧ s.inputs = cs.flatMap Issue.samples ++ rest ∧ cs.length = 3 ∧
    (atomicRun (arch s) cs).2.map (fun r => r.status) = [0, 0, 4] :=
  ⟨someIssues, { mk .family1 0xC0A80000 16 18 0 2 with inputs := someIssues.flatMap Issue.samples ++ [] }, [],
    rfl, rfl, rfl, rfl, by decide +kernel⟩

theorem wit_invariant : ∃ s t : State, Inv s ∧ step s = .next t ∧ t.rsp ≠ none :=
  ⟨{ enumerating 2 with busy := true, cmdWord := 0xC6C00000 }, _,
    ⟨fun _ => ⟨rfl, rfl⟩, (fun h => nomatch h), fun _ => rfl, .inr (by decide +kernel), fun _ => rfl, (fun h => nomatch h),
      (fun _ h => nomatch h), (fun _ h => nomatch h), (fun _ h => nomatch h)⟩, rfl, by decide +kernel⟩

theorem wit_encoded : Instr.wellFormed (.budg 7 6 5 4 true true 2) = true := rfl

theorem wit_decoded : ∃ (w : CommandWord) (i : Instr), decode w = .ok i := ⟨0xCBF7400B, .budg 7 7 3 5 true true 2, by decide⟩

/-- A command that fails in the state given, with the first error and with one recorded before. -/
theorem wit_failing : ∃ (i : Instr) (s t u v : State) (q r : Response),
    exec i s = .next t ∧ t.rsp = some q ∧ q.status ≠ 0 ∧ s.err = false ∧
    exec i u = .next v ∧ v.rsp = some r ∧ r.status ≠ 0 ∧ u.err = true :=
  ⟨.mask 2 1, mk .family1 0 33 0 0 0, _, { mk .family1 0 33 0 0 0 with err := true, code := 2, eop := 0x0A }, _, _, _,
    rfl, rfl, by decide +kernel, rfl, rfl, rfl, by decide +kernel, rfl⟩

theorem wit_succeeding : ∃ (i : Instr) (s t : State) (r : Response),
    exec i s = .next t ∧ t.rsp = some r ∧ r.status = 0 ∧ destination i ≠ some 0 ∧
    (∀ v, csrWriteOf s i ≠ some (0, v)) ∧ (∀ v, csrWriteOf s i ≠ some (1, v)) ∧ ∀ rd a b c, i ≠ .subcfg rd a b c :=
  ⟨.mask 2 1, mk .family1 0 24 0 0 0, _, _, rfl, rfl, rfl, by decide, (fun _ h => nomatch h), (fun _ h => nomatch h),
    fun _ _ _ _ h => nomatch h⟩

theorem wit_statusClears : ∃ (i : Instr) (s t : State), exec i s = .next t ∧ s.err = true ∧ t.err = false :=
  ⟨.csrwi 1 1, { mk .family1 0 0 0 0 0 with err := true, code := 1, eop := 8 }, _, rfl, rfl, rfl⟩

theorem wit_enumeratorCleared : ∃ (i : Instr) (s t : State),
    exec i s = .next t ∧ s.enumValid = true ∧ t.enumValid = false ∧ ∀ rd a b c, i ≠ .subcfg rd a b c :=
  ⟨.csrwi 0 0, enumerating 0, _, rfl, rfl, rfl, fun _ _ _ _ h => nomatch h⟩

theorem wit_anyResponse : ∃ (i : Instr) (s t : State) (r : Response), exec i s = .next t ∧ t.rsp = some r :=
  ⟨.subn 5 4, enumerating 4, _, _, rfl, rfl⟩

theorem wit_familySupport : ∃ (i : Instr) (s t : State) (r : Response),
    i.wellFormed = true ∧ familyOneOnlyCommand i = true ∧ s.fam = .family2 ∧
    exec i s = .next t ∧ t.rsp = some r ∧ r.status = 5 :=
  ⟨.hcnt 2 1, mk .family2 0 64 0 0 0, _, _, rfl, rfl, rfl, rfl, rfl, rfl⟩

/-- Prefixes just outside [0, M]: M + 1 in both families, and a negative one. -/
theorem wit_badPrefix :
    BadPrefix (mk .family1 0 33 0 0 0) 1 ∧ BadPrefix (mk .family2 0 129 0 0 0) 1 ∧
    BadPrefix (mk .family1 0 0xFFFFFFFFFFFFFFFFFFFFFFFFFFFFFFFF 0 0 0) 1 ∧
    BadPrefix (mk .family2 0 0x80000000000000000000000000000000 0 0 0) 1 :=
  ⟨.inr (by decide +kernel), .inr (by decide +kernel), .inl (by decide +kernel), .inl (by decide +kernel)⟩

/-- NET to SUBCFG with the bad prefix in rs2. -/
theorem wit_badPrefix_second : ∃ s : State, s.fam = .family1 ∧ HoldsVector s 0 0xC0A82A0A ∧ BadPrefix s 1 :=
  ⟨mk .family1 0xC0A82A0A 33 0 0 0, rfl, ⟨by decide, by decide +kernel⟩, .inr (by decide +kernel)⟩

/-- SUBCFG with the bad prefix in rs3. -/
theorem wit_badPrefix_third : ∃ s : State,
    s.fam = .family1 ∧ HoldsVector s 0 0xFFFFFFFF ∧ HoldsPrefix s 1 32 ∧ BadPrefix s 2 :=
  ⟨mk .family1 0xFFFFFFFF 32 33 0 0, rfl, ⟨by decide, by decide +kernel⟩, ⟨by decide, by decide +kernel⟩, .inr (by decide +kernel)⟩

theorem wit_badPrefix_budg : ∃ (s : State) (pref : BitVec 2), s.fam = .family1 ∧ pref ≠ 3#2 ∧ BadPrefix s 1 :=
  ⟨mk .family1 0 33 0 0 0, 2, rfl, by decide, .inr (by decide +kernel)⟩

/-- The least register value with a bit above M - 1; family 2 has none. -/
theorem wit_badVector : BadVector (mk .family1 0x100000000 0 0 0 0) 0 := by unfold BadVector; decide +kernel

theorem wit_badVector_second : ∃ s : State, s.fam = .family1 ∧ BadVector s 1 ∧ ¬ BadVector s 0 :=
  ⟨mk .family1 0xFFFFFFFF 0x100000000 0 0 0, rfl, by unfold BadVector; decide +kernel, by unfold BadVector; decide +kernel⟩

theorem wit_badVector_third : ∃ s : State,
    s.fam = .family1 ∧ HoldsVector s 0 0xFFFFFFFF ∧ HoldsPrefix s 1 32 ∧ BadVector s 2 :=
  ⟨mk .family1 0xFFFFFFFF 32 0x100000000 0 0, rfl, ⟨by decide, by decide +kernel⟩, ⟨by decide, by decide +kernel⟩,
    by unfold BadVector; decide +kernel⟩

theorem wit_reservedCsr : ∃ n m : BitVec 3, n.toNat = 5 ∧ 5 ≤ n.toNat ∧ m.toNat = 2 ∧ 2 ≤ m.toNat := ⟨5, 2, by decide⟩

/-- The prefixes 0 and M of both families. -/
theorem wit_holdsPrefix :
    HoldsPrefix (mk .family1 0 0 0 0 0) 1 0 ∧ HoldsPrefix (mk .family1 0 32 0 0 0) 1 32 ∧
    HoldsPrefix (mk .family2 0 0 0 0 0) 1 0 ∧ HoldsPrefix (mk .family2 0 128 0 0 0) 1 128 :=
  ⟨⟨by decide, by decide +kernel⟩, ⟨by decide, by decide +kernel⟩, ⟨by decide, by decide +kernel⟩, ⟨by decide, by decide +kernel⟩⟩

/-- The least and the greatest vector of both families: the hypothesis of the shift, rotate and scan statements. -/
theorem wit_holdsVector :
    HoldsVector (mk .family1 0 0 0 0 0) 1 0 ∧ HoldsVector (mk .family1 0 0xFFFFFFFF 0 0 0) 1 0xFFFFFFFF ∧
    HoldsVector (mk .family2 0 0 0 0 0) 1 0 ∧
    HoldsVector (mk .family2 0 0xFFFFFFFFFFFFFFFFFFFFFFFFFFFFFFFF 0 0 0) 1 0xFFFFFFFFFFFFFFFFFFFFFFFFFFFFFFFF :=
  ⟨⟨by decide, by decide +kernel⟩, ⟨by decide, by decide +kernel⟩, ⟨by decide, by decide +kernel⟩, ⟨by decide, by decide +kernel⟩⟩

/-- BSHL and BSHR with k = NB. -/
theorem wit_blockShifts : ∃ (s : State) (k : BitVec 4),
    HoldsVector s 1 0xC0A82A0A ∧ blockCount s.fam ≤ k.toNat ∧ k.toNat ≤ blockCount s.fam :=
  ⟨mk .family1 0 0xC0A82A0A 0 0 0, 4, ⟨by decide, by decide +kernel⟩, by decide, by decide⟩

theorem wit_twoVectors : ∃ s : State, HoldsVector s 0 0xC0A82A0A ∧ HoldsVector s 1 0xC0A82A0B :=
  ⟨mk .family1 0xC0A82A0A 0xC0A82A0B 0 0 0, ⟨by decide, by decide +kernel⟩, ⟨by decide, by decide +kernel⟩⟩

/-- M2P, the accepted masks of p = 0 and p = 32. -/
theorem wit_m2p_valid : ∃ s : State, s.fam = .family1 ∧ HoldsVector s 1 0 ∧
    bitString .family1 (s.reg 1) = List.replicate 0 true ++ List.replicate 32 false ∧ HoldsVector s 2 0xFFFFFFFF ∧
    bitString .family1 (s.reg 2) = List.replicate 32 true ++ List.replicate 0 false :=
  ⟨mk .family1 0 0 0xFFFFFFFF 0 0, rfl, ⟨by decide, by decide +kernel⟩, by decide +kernel, ⟨by decide, by decide +kernel⟩, by decide +kernel⟩

/-- M2P, the refused pattern 0xFFFFFF01. -/
theorem wit_m2p_invalid : ∃ s : State, s.fam = .family1 ∧ HoldsVector s 1 0xFFFFFF01 ∧
    ∀ p, p ≤ 32 → bitString .family1 (s.reg 1) ≠ List.replicate p true ++ List.replicate (32 - p) false := by
  have all : ∀ p : Fin 33, bitString .family1 ((mk .family1 0 0xFFFFFF01 0 0 0).reg 1)
      ≠ List.replicate p.val true ++ List.replicate (32 - p.val) false := by decide +kernel
  exact ⟨mk .family1 0 0xFFFFFF01 0 0 0, rfl, ⟨by decide, by decide +kernel⟩, fun p h => all ⟨p, by omega⟩⟩

theorem wit_m2pUndoesMask : ∃ s t : State, s.fam = .family1 ∧ HoldsPrefix s 1 32 ∧ exec (.mask 2 1) s = .next t :=
  ⟨mk .family1 0 32 0 0 0, _, rfl, ⟨by decide, by decide +kernel⟩, rfl⟩

/-- B2V, family 1: the greatest block 255 in every place, and 0. -/
theorem wit_b2v_decimal : ∃ s : State, s.fam = .family1 ∧ (s.reg 0).toNat = decimalLanes 255 255 255 255 ∧
    (s.reg 1).toNat = decimalLanes 0 0 0 0 ∧ s.reg 0 = 0x0255025502550255 :=
  ⟨mk .family1 0x0255025502550255 0 0 0 0, rfl, by decide +kernel, by decide +kernel, by decide +kernel⟩

/-- B2V, family 1: the lane of block 256 is no decimal block, and a block count of 3 or 5 is wrong. -/
theorem wit_b2v_decimal_refused : ∃ (s : State) (n m : BitVec 4), s.fam = .family1 ∧ n ≠ 4 ∧ m ≠ 4 ∧
    ∀ a b c d : Nat, a < 256 → b < 256 → c < 256 → d < 256 → (s.reg 0).toNat ≠ decimalLanes a b c d := by
  refine ⟨mk .family1 0x0256000000000000 0 0 0 0, 3, 5, rfl, by decide, by decide, ?_⟩
  intro a b c d ha hb hc hd h
  have e : ((mk .family1 0x0256000000000000 0 0 0 0).reg 0).toNat = 0x0256000000000000 := by decide +kernel
  have := decimalLane_lt ha
  have := decimalLane_lt hb
  have := decimalLane_lt hc
  have := decimalLane_lt hd
  have k : ∀ x : Fin 256, decimalLane x.val ≠ 0x256 := by decide +kernel
  have := k ⟨a, ha⟩
  simp only at this
  rw [e] at h
  unfold decimalLanes at h
  omega

theorem wit_b2v_hexadecimal : ∃ (s : State) (n m : BitVec 4), s.fam = .family2 ∧ n = 8 ∧ m ≠ 8 :=
  ⟨mk .family2 0x20010DB8000000000000000000000001 0 0 0 0, 8, 4, rfl, rfl, by decide⟩

theorem wit_v2b : ∃ s : State, s.fam = .family1 ∧
    (s.reg 1).toNat = 255 * 2 ^ 24 + 255 * 2 ^ 16 + 255 * 2 ^ 8 + 255 ∧
    (s.reg 0).toNat = 0 * 2 ^ 24 + 0 * 2 ^ 16 + 0 * 2 ^ 8 + 0 :=
  ⟨mk .family1 0 0xFFFFFFFF 0 0 0, rfl, by decide +kernel, by decide +kernel⟩

theorem wit_v2b_family2 : (mk .family2 0 0 0 0 0).fam = .family2 := rfl

/-- Both round trips, in both families. -/
theorem wit_codecRoundTrips_vector : ∃ s t u v : State, (4#4).toNat = blockCount s.fam ∧ HoldsVector s 1 0xC0A82A0A ∧
    exec (.v2b 2 1) s = .next t ∧ (8#4).toNat = blockCount u.fam ∧ HoldsVector u 1 0xFFFF ∧ exec (.v2b 2 1) u = .next v :=
  ⟨mk .family1 0 0xC0A82A0A 0 0 0, _, mk .family2 0 0xFFFF 0 0 0, _, rfl, ⟨by decide, by decide +kernel⟩, rfl, rfl,
    ⟨by decide, by decide +kernel⟩, rfl⟩

theorem wit_codecRoundTrips_lanes : ∃ (s t : State) (r : Response), (4#4).toNat = blockCount s.fam ∧
    exec (.b2v 1 0 4) s = .next t ∧ t.rsp = some r ∧ r.status = 0 := by
  obtain ⟨t, ht, w⟩ : Yields (.b2v 1 0 4) (mk .family1 0x0192016800420010 0 0 0 0) 1 0xC0A82A0A :=
    yields_of (x := blocksToBits .family1 4 0x0192016800420010) rfl (by decide +kernel)
  exact ⟨_, t, _, rfl, ht, w.answer.rsp, rfl⟩

/-- An address and a prefix at both ends of its range: the hypotheses of NET to CONT. -/
theorem wit_addressAndPrefix : ∃ s : State, s.fam = .family1 ∧ HoldsVector s 0 0xFFFFFFFF ∧ HoldsPrefix s 1 0 ∧
    HoldsPrefix s 2 32 ∧ HoldsVector s 3 0xC0A82A0A :=
  ⟨mk .family1 0xFFFFFFFF 0 32 0xC0A82A0A 0, rfl, ⟨by decide, by decide +kernel⟩, ⟨by decide, by decide +kernel⟩,
    ⟨by decide, by decide +kernel⟩, ⟨by decide, by decide +kernel⟩⟩

/-- FIRST's and LAST's four clauses at their boundaries, all at /32. -/
theorem wit_firstLast :
    networkOf 0xFFFFFFFE 32 + 1 < 2 ^ 32 ∧ 2 ^ 32 ≤ networkOf 0xFFFFFFFF 32 + 1 ∧
    0 < broadcastOf 1 32 ∧ broadcastOf 0 32 = 0 := by decide +kernel

/-- FIRST's and LAST's register hypotheses at those values. -/
theorem wit_firstLast_operands :
    HoldsVector (mk .family1 0xFFFFFFFE 32 0xFFFFFFFF 1 0) 0 0xFFFFFFFE ∧
    HoldsVector (mk .family1 0xFFFFFFFE 32 0xFFFFFFFF 1 0) 2 0xFFFFFFFF ∧
    HoldsVector (mk .family1 0xFFFFFFFE 32 0xFFFFFFFF 1 0) 3 1 ∧
    HoldsVector (mk .family1 0xFFFFFFFE 32 0xFFFFFFFF 1 0) 4 0 ∧
    HoldsPrefix (mk .family1 0xFFFFFFFE 32 0xFFFFFFFF 1 0) 1 32 :=
  ⟨⟨by decide, by decide +kernel⟩, ⟨by decide, by decide +kernel⟩, ⟨by decide, by decide +kernel⟩,
    ⟨by decide, by decide +kernel⟩, ⟨by decide, by decide +kernel⟩⟩

/-- SCN: two addresses whose common prefix is 31; the candidates above the answer 29 exist, and so does 29 itself. -/
theorem wit_scn : ∃ s : State, s.fam = .family1 ∧ HoldsVector s 0 0xC0A82A0A ∧ HoldsVector s 1 0xC0A82A0B ∧
    31 = agreement (bitString .family1 (s.reg 0)) (bitString .family1 (s.reg 1)) :=
  ⟨mk .family1 0xC0A82A0A 0xC0A82A0B 0 0 0, rfl, ⟨by decide, by decide +kernel⟩, ⟨by decide, by decide +kernel⟩,
    by decide +kernel⟩

/-- NET and BCAST of 192.168.42.10/24 (44_network.md R180, R181). -/
theorem netBcast (s : State) (h : s = mk .family1 0xC0A82A0A 24 0 0 0) :
    Yields (.net 2 0 1) s 2 0xC0A82A00 ∧ Yields (.bcast 2 0 1) s 2 0xC0A82AFF := by
  have hf : s.fam = .family1 := by rw [h]; rfl
  have e : s.addressAndPrefix 0 1 = .ok (0xC0A82A0A, 24) := by rw [h]; decide +kernel
  refine ⟨yields_of rfl ?_, yields_of rfl ?_⟩
  · rw [e, hf]
    decide +kernel
  · rw [e, hf]
    decide +kernel

theorem wit_containment : ∃ s : State, s.fam = .family1 ∧ HoldsVector s 0 0xC0A82A0A ∧ HoldsPrefix s 1 24 ∧
    Yields (.net 2 0 1) s 2 0xC0A82A00 ∧ Yields (.bcast 2 0 1) s 2 0xC0A82AFF :=
  ⟨mk .family1 0xC0A82A0A 24 0 0 0, rfl, ⟨by decide, by decide +kernel⟩, ⟨by decide, by decide +kernel⟩,
    (netBcast _ rfl).1, (netBcast _ rfl).2⟩

/-- SUBCFG's two clauses where they meet: target = base + 1 and target = base; and the widest enumeration. -/
theorem wit_subcfg : ∃ s : State, s.fam = .family1 ∧ HoldsVector s 0 0xC0A80507 ∧ HoldsPrefix s 1 16 ∧
    HoldsPrefix s 2 17 ∧ HoldsPrefix s 3 0 ∧ HoldsPrefix s 4 32 ∧ 16 < 17 ∧ 16 ≤ 16 ∧ 0 < 32 :=
  ⟨mk .family1 0xC0A80507 16 17 0 32, rfl, ⟨by decide, by decide +kernel⟩, ⟨by decide, by decide +kernel⟩,
    ⟨by decide, by decide +kernel⟩, ⟨by decide, by decide +kernel⟩, ⟨by decide, by decide +kernel⟩, by decide, by decide,
    by decide⟩

theorem inv_enumerating (i : Word) : Inv (enumerating i) :=
  ⟨fun _ => ⟨rfl, rfl⟩, (fun h => nomatch h), fun _ => rfl,
    .inr (show 16 < 18 ∧ 18 ≤ 32 ∧ 0xC0A80000 < 2 ^ 32 ∧ 2 ^ (32 - 16) ∣ 0xC0A80000 by decide), (fun h => nomatch h), fun _ => rfl,
    (fun _ h => nomatch h), (fun _ h => nomatch h), (fun _ h => nomatch h)⟩

/-- SUBN's clauses: the last index, the first beyond it, and no enumeration. -/
theorem wit_subn_last : ∃ s : State, Inv s ∧ s.fam = .family1 ∧ s.enumValid = true ∧
    (s.reg 4).toNat + 1 = 2 ^ (s.enumT.toNat - s.enumP.toNat) :=
  ⟨enumerating 3, inv_enumerating 3, rfl, rfl, by decide +kernel⟩

theorem wit_subn_beyond : ∃ s : State, Inv s ∧ s.fam = .family1 ∧ s.enumValid = true ∧
    2 ^ (s.enumT.toNat - s.enumP.toNat) = (s.reg 4).toNat :=
  ⟨enumerating 4, inv_enumerating 4, rfl, rfl, by decide +kernel⟩

theorem wit_subn_unconfigured : ∃ s : State, Inv s ∧ s.fam = .family1 ∧ s.enumValid = false :=
  ⟨{ enumerating 0 with enumValid := false },
    ⟨fun _ => ⟨rfl, rfl⟩, (fun h => nomatch h), (fun h => nomatch h), .inr (by decide +kernel), (fun h => nomatch h),
      fun _ => rfl, (fun _ h => nomatch h), (fun _ h => nomatch h), (fun _ h => nomatch h)⟩, rfl, rfl⟩

/-- The elements' clauses: two indices below the count, the greater the last. -/
theorem wit_elements : ∃ (s : State) (i j : Word), Inv s ∧ s.enumValid = true ∧ i.toNat < j.toNat ∧
    j.toNat < s.elementCount ∧ j.toNat + 1 = s.elementCount :=
  ⟨enumerating 0, 0, 3, inv_enumerating 0, rfl, by decide +kernel, by decide +kernel, by decide +kernel⟩

theorem wit_subcfgThenSubn : ∃ s u : State, s.fam = .family1 ∧ HoldsVector s 0 0xC0A80507 ∧ HoldsPrefix s 1 16 ∧
    HoldsPrefix s 2 18 ∧ exec (.subcfg 3 0 1 2) s = .next u ∧ (u.reg 4).toNat < 2 ^ (18 - 16) := by
  have e : (mk .family1 0xC0A80507 16 18 0 3).enumerationOf 0 1 2 = .ok ⟨16, 18, 0xC0A80000⟩ := by decide +kernel
  have h : exec (.subcfg 3 0 1 2) (mk .family1 0xC0A80507 16 18 0 3)
      = .next (((mk .family1 0xC0A80507 16 18 0 3).setEnumeration ⟨16, 18, 0xC0A80000⟩).succeed 3
          (BitVec.ofNat 128 (2 ^ (18 - 16)))) := by
    simp only [exec, execSubcfg, e]
  exact ⟨_, _, rfl, ⟨by decide, by decide +kernel⟩, ⟨by decide, by decide +kernel⟩, ⟨by decide, by decide +kernel⟩, h,
    by decide +kernel⟩

theorem wit_clog2 : ∃ n k : Nat, 1 ≤ n ∧ n ≤ 2 ^ k ∧ n = 1 ∧ k = 0 := ⟨1, 0, by decide⟩

/-- BUDG, a host count alone, at its two clauses' boundary: 512 hosts fit below /21 and not below /22. -/
theorem wit_budg_hosts : ∃ s : State, s.fam = .family1 ∧ HoldsPrefix s 1 21 ∧ HoldsPrefix s 2 22 ∧
    10 = clog2 ((s.reg 3).toNat + 2) ∧ 21 + 1 + 10 ≤ 32 ∧ 32 < 22 + 1 + 10 :=
  ⟨mk .family1 0 21 22 512 0, rfl, ⟨by decide, by decide +kernel⟩, ⟨by decide, by decide +kernel⟩, by decide +kernel,
    by decide, by decide⟩

/-- BUDG, a subnet count alone: 2 subnets fit below /30 and not below /31; a count of 1 and of 0 is refused. -/
theorem wit_budg_subnets : ∃ s : State, s.fam = .family1 ∧ HoldsPrefix s 1 30 ∧ HoldsPrefix s 0 31 ∧
    2 ≤ (s.reg 2).toNat ∧ 1 = clog2 (s.reg 2).toNat ∧ 30 + 1 + 1 ≤ 32 ∧ 32 < 31 + 1 + 1 ∧
    (s.reg 3).toNat < 2 ∧ (s.reg 3).toNat = 1 ∧ (s.reg 4).toNat < 2 ∧ (s.reg 4).toNat = 0 :=
  ⟨mk .family1 31 30 2 1 0, rfl, ⟨by decide, by decide +kernel⟩, ⟨by decide, by decide +kernel⟩, by decide +kernel,
    by decide +kernel, by decide, by decide, by decide +kernel, by decide +kernel, by decide +kernel, by decide +kernel⟩

/-- BUDG, both counts or neither, a surplus of 2, and of 6. -/
theorem wit_budg_surplus : ∃ s : State, s.fam = .family1 ∧ HoldsPrefix s 1 24 ∧ 1 ≤ (s.reg 2).toNat ∧
    2 = clog2 (s.reg 2).toNat ∧ 4 = clog2 ((s.reg 3).toNat + 2) ∧ 24 + 2 + 4 + 2 = 32 ∧ 24 + 1 + 1 + 6 = 32 :=
  ⟨mk .family1 0 24 4 10 0, rfl, ⟨by decide, by decide +kernel⟩, by decide +kernel, by decide +kernel, by decide +kernel,
    by decide, by decide⟩

/-- BUDG, both counts, one subnet: no subnet bit without a surplus (8 bits for hosts), and one subnet bit with. -/
theorem wit_budg_surplus_none : ∃ s : State, s.fam = .family1 ∧ HoldsPrefix s 1 24 ∧ HoldsPrefix s 4 23 ∧
    1 ≤ (s.reg 2).toNat ∧ 0 = clog2 (s.reg 2).toNat ∧ 8 = clog2 ((s.reg 3).toNat + 2) ∧ 24 + 0 + 8 + 0 = 32 ∧
    23 + 0 + 8 + 1 = 32 :=
  ⟨mk .family1 0 24 1 254 23, rfl, ⟨by decide, by decide +kernel⟩, ⟨by decide, by decide +kernel⟩, by decide +kernel,
    by decide +kernel, by decide +kernel, by decide, by decide⟩

/-- BUDG, both counts, a deficit of 1 that either dimension can give. -/
theorem wit_budg_deficit : ∃ s : State, s.fam = .family1 ∧ HoldsPrefix s 1 24 ∧ 1 ≤ (s.reg 2).toNat ∧
    4 = clog2 (s.reg 2).toNat ∧ 5 = clog2 ((s.reg 3).toNat + 2) ∧ 24 + 4 + 5 = 32 + 1 ∧ 1 < 4 ∧ 1 < 5 ∧
    (1 - 1 / 2 < 4 ∧ 1 / 2 < 5) :=
  ⟨mk .family1 0 24 16 30 0, rfl, ⟨by decide, by decide +kernel⟩, by decide +kernel, by decide +kernel, by decide +kernel,
    by decide, by decide, by decide, by decide⟩

/-- BUDG, neither count at /31: a deficit of 1 that no dimension can give. -/
theorem wit_budg_deficit_refused : ∃ s : State, s.fam = .family1 ∧ HoldsPrefix s 1 31 ∧ 31 + 1 + 1 = 32 + 1 ∧
    1 ≤ 1 - 1 / 2 :=
  ⟨mk .family1 0 31 0 0 0, rfl, ⟨by decide, by decide +kernel⟩, by decide, by decide⟩

/-- BUDG, both counts, one subnet, short of bits: no subnet bit under PREF 1. -/
theorem wit_budg_deficit_noSubnets : ∃ s : State, s.fam = .family1 ∧ HoldsPrefix s 1 24 ∧ 1 ≤ (s.reg 2).toNat ∧
    0 = clog2 (s.reg 2).toNat ∧ 9 = clog2 ((s.reg 3).toNat + 2) ∧ 24 + 0 + 9 = 32 + 1 :=
  ⟨mk .family1 0 24 1 510 0, rfl, ⟨by decide, by decide +kernel⟩, by decide +kernel, by decide +kernel, by decide +kernel,
    by decide⟩

theorem wit_budg_zeroSubnets : ∃ (s : State) (pref : BitVec 2), s.fam = .family1 ∧ pref ≠ 3#2 ∧ HoldsPrefix s 1 24 ∧
    (s.reg 2).toNat = 0 :=
  ⟨mk .family1 0 24 0 0 0, 1, rfl, by decide, ⟨by decide, by decide +kernel⟩, by decide +kernel⟩

theorem wit_budg_room : ∃ (s t : State) (r : Response), HoldsPrefix s 1 30 ∧
    exec (.budg 4 1 2 3 false false 0) s = .next t ∧ t.rsp = some r ∧ r.status = 0 := by
  have k : answerOf (exec (.budg 4 1 2 3 false false 0) (mk .family1 0 30 0 0 0)) = some ⟨0, 31⟩ := by decide +kernel
  obtain ⟨t, ht, _⟩ := exec_ends (.budg 4 1 2 3 false false 0) (mk .family1 0 30 0 0 0)
  rw [ht] at k
  exact ⟨_, t, _, ⟨by decide, by decide +kernel⟩, ht, k, rfl⟩

end Sys2Proof.Tests
end

section
/-! Operands that do not read (00_scope.md R11, R12): the first one that fails, in the order of 60_exceptions.md R242,
decides the error of the command. -/

namespace Sys2Proof.Safety

open Sys2Proof.Machine

/-! ## The first failing read decides -/

/-- A failing read ends the computation, whatever comes after it. -/
theorem bind_eq_error {α β : Type} {x : Except ErrorCode α} {k : α → Except ErrorCode β} {e : ErrorCode}
    (hx : x = .error e) : (x >>= k) = .error e := by rw [hx, except_bind_error]

/-- After a read that succeeds, the rest of the computation decides. -/
theorem bind_eq_error_of_ok {α β : Type} {x : Except ErrorCode α} {k : α → Except ErrorCode β} {a : α} {e : ErrorCode}
    (hx : x = .ok a) (hk : k a = .error e) : (x >>= k) = .error e := by rw [hx, except_bind_ok, hk]

/-- A command raises the error of its first operand. -/
theorem raises_of_first {i : Instr} {s : State} {rd : Reg} {α : Type} {x : Except ErrorCode α}
    {k : α → Except ErrorCode Word} {e : ErrorCode} (h : exec i s = s.finish rd (x >>= k)) (hx : x = .error e) :
    Raises i s e :=
  raises_of h (bind_eq_error hx)

/-- A bad second vector raises FormatError whatever the first one is: a bad first one raises the same error. -/
theorem two_vectors_badSecond {s : State} {r₁ r₂ : Reg} {k : Word → Word → Except ErrorCode Word}
    (h : BadVector s r₂) : (s.vec r₁ >>= fun a => s.vec r₂ >>= k a) = .error .format := by
  obtain ⟨_, h₁⟩ | ⟨_, h₁⟩ := vecOf_cases s.fam (s.reg r₁)
  · exact bind_eq_error_of_ok h₁ (bind_eq_error h.vec)
  · exact bind_eq_error h₁

/-- The commands that read an address from rs1 and a prefix from rs2 raise the error of that read. -/
theorem raises_of_addressAndPrefix {s : State} {rs1 rs2 : Reg} {e : ErrorCode}
    (h : s.addressAndPrefix rs1 rs2 = .error e) (rd rs3 : Reg) :
    Raises (.net rd rs1 rs2) s e ∧ Raises (.bcast rd rs1 rs2) s e ∧
    Raises (.first rd rs1 rs2) s e ∧ Raises (.last rd rs1 rs2) s e ∧
    Raises (.isnet rd rs1 rs2) s e ∧ Raises (.isbc rd rs1 rs2) s e ∧
    Raises (.cont rd rs1 rs2 rs3) s e ∧ Raises (.subcfg rd rs1 rs2 rs3) s e :=
  ⟨raises_of_first rfl h, raises_of_first rfl h, raises_of_first rfl h, raises_of_first rfl h, raises_of_first rfl h,
    raises_of_first rfl h, raises_of_first rfl h, subcfg_raises (bind_eq_error h)⟩

/-- The commands of either family that read rs1 as their first vector. -/
theorem raises_of_badVector {s : State} {rs1 : Reg} (h : BadVector s rs1) (rd rs2 : Reg) (k : BitVec 4) :
    Raises (.v2b rd rs1) s .format ∧ Raises (.bshl rd rs1 k) s .format ∧ Raises (.bshr rd rs1 k) s .format ∧
    Raises (.brol rd rs1 k) s .format ∧ Raises (.bror rd rs1 k) s .format ∧ Raises (.clz rd rs1) s .format ∧
    Raises (.clo rd rs1) s .format ∧ Raises (.lcp rd rs1 rs2) s .format :=
  ⟨raises_of_first rfl h.vec, raises_of_first rfl h.vec, raises_of_first rfl h.vec, raises_of_first rfl h.vec,
    raises_of_first rfl h.vec, raises_of_first rfl h.vec, raises_of_first rfl h.vec, raises_of_first rfl h.vec⟩

/-! ## Commands that read past their first operand -/

theorem hcnt_raises_badPrefix {s : State} {rd rs2 : Reg} (hf : s.fam = .family1) (h : BadPrefix s rs2) :
    Raises (.hcnt rd rs2) s .range :=
  raises_of rfl (bind_eq_error_of_ok (State.familyOneOnly_ok hf) (bind_eq_error h.pfx))

theorem budg_raises_badPrefix {s : State} {rd rs1 rs2 rs3 : Reg} {sub hst : Bool} {pref : BitVec 2}
    (hf : s.fam = .family1) (hp : pref ≠ 3#2) (h : BadPrefix s rs1) :
    Raises (.budg rd rs1 rs2 rs3 sub hst pref) s .range := by
  obtain ⟨_, hq⟩ := preferenceOf_ok hp
  exact raises_of rfl
    (bind_eq_error_of_ok hq (bind_eq_error_of_ok (State.familyOneOnly_ok hf) (bind_eq_error h.pfx)))

theorem subcfg_raises_badTarget {s : State} {rd rs1 rs2 rs3 : Reg} {a p : Nat} (hf : s.fam = .family1)
    (ha : HoldsVector s rs1 a) (hp : HoldsPrefix s rs2 p) (h : BadPrefix s rs3) :
    Raises (.subcfg rd rs1 rs2 rs3) s .range :=
  subcfg_raises (bind_eq_error_of_ok (addressAndPrefix_ok hf ha hp) (bind_eq_error h.pfx))

theorem m2p_raises_badVector {s : State} {rd rs1 : Reg} (hf : s.fam = .family1) (h : BadVector s rs1) :
    Raises (.m2p rd rs1) s .format :=
  raises_of rfl (bind_eq_error_of_ok (State.familyOneOnly_ok hf) (bind_eq_error h.vec))

theorem lcp_raises_badSecond {s : State} {rd rs1 rs2 : Reg} (h : BadVector s rs2) :
    Raises (.lcp rd rs1 rs2) s .format :=
  raises_of rfl (two_vectors_badSecond h)

theorem scn_raises_badFirst {s : State} {rd rs1 rs2 : Reg} {h : Bool} (hf : s.fam = .family1) (hv : BadVector s rs1) :
    Raises (.scn rd rs1 rs2 h) s .format :=
  raises_of rfl (bind_eq_error_of_ok (State.familyOneOnly_ok hf) (bind_eq_error hv.vec))

theorem scn_raises_badSecond {s : State} {rd rs1 rs2 : Reg} {h : Bool} (hf : s.fam = .family1) (hv : BadVector s rs2) :
    Raises (.scn rd rs1 rs2 h) s .format :=
  raises_of rfl (bind_eq_error_of_ok (State.familyOneOnly_ok hf) (two_vectors_badSecond hv))

theorem cont_raises_badSecond {s : State} {rd rs1 rs2 rs3 : Reg} {a p : Nat} (hf : s.fam = .family1)
    (ha : HoldsVector s rs1 a) (hp : HoldsPrefix s rs2 p) (h : BadVector s rs3) :
    Raises (.cont rd rs1 rs2 rs3) s .format :=
  raises_of rfl (bind_eq_error_of_ok (addressAndPrefix_ok hf ha hp) (bind_eq_error h.vec))

/-! ## The obligations -/

/-- Settles O25: every command reaches its prefix read, since the reads before it succeed, and that read fails. -/
theorem prefixOutOfRangeRaisesRangeError : Obligations.PrefixOutOfRangeRaisesRangeError := by
  intro s rd rs1 rs2 rs3 sub hst pref
  refine ⟨fun h => ?onlyOperand, fun hf h => ?hcnt, fun hf a ha h => ?afterAddress, fun hf a p ha hp h => ?target,
    fun hf hp h => ?budg⟩
  case onlyOperand => exact ⟨raises_of_first rfl h.pfx, raises_of_first rfl h.pfx⟩
  case hcnt => exact hcnt_raises_badPrefix hf h
  case afterAddress => exact raises_of_addressAndPrefix (addressAndPrefix_badPrefix hf ha h) rd rs3
  case target => exact subcfg_raises_badTarget hf ha hp h
  case budg => exact budg_raises_badPrefix hf hp h

/-- Settles O26: the first vector is read before any operand that could raise another error, and a second one is reached
either after good reads or behind a bad vector, which raises the same FormatError. -/
theorem strayBitsRaiseFormatError : Obligations.StrayBitsRaiseFormatError := by
  intro s rd rs1 rs2 rs3 k h
  refine ⟨fun hv => ?anyFamily, fun hv => ?lcpSecond, fun hf hv => ?familyOne, fun hf hv => ?scnSecond,
    fun hf a p ha hp hv => ?contSecond⟩
  case anyFamily => exact raises_of_badVector hv rd rs2 k
  case lcpSecond => exact lcp_raises_badSecond hv
  case familyOne =>
    obtain ⟨net, bcast, first, last, isnet, isbc, cont, subcfg⟩ :=
      raises_of_addressAndPrefix (addressAndPrefix_badVector (rs2 := rs2) hf hv) rd rs3
    exact ⟨m2p_raises_badVector hf hv, net, bcast, first, last, isnet, isbc, cont, scn_raises_badFirst hf hv, subcfg⟩
  case scnSecond => exact scn_raises_badSecond hf hv
  case contSecond => exact cont_raises_badSecond hf ha hp hv

end Sys2Proof.Safety
end

section
/-! What one edge keeps (10_state.md R25, R32, R35, R37): every operation on the state keeps the invariant of the
unit, so every end of a command and every effect of an edge does. -/

namespace Sys2Proof.Safety

open Sys2Proof.Machine

/-! ## The codes of the errors -/

theorem errorCode_number_ne_zero (e : ErrorCode) : e.number ≠ 0 := by cases e <;> decide

/-- 60_exceptions.md R240: every code but UsageError's is one that the unit produces. -/
theorem legalStatus_number {e : ErrorCode} (h : e ≠ .usage) : legalStatus e.number = true := by
  cases e with
  | usage => exact absurd rfl h
  | range | format | illegal | unsupported | sequence => decide

theorem legalResponse_success (v : Word) : legalResponse ⟨0, v⟩ = true := by simp [legalResponse, legalStatus]

theorem legalResponse_error {e : ErrorCode} (h : e ≠ .usage) : legalResponse ⟨e.number, 0⟩ = true := by
  simp [legalResponse, legalStatus_number h]

/-! ## What SUBCFG accepts (45_subnet.md R210) -/

/-- A computation that succeeds has read its first operand. -/
theorem exists_of_bind_eq_ok {α β : Type} {x : Except ErrorCode α} {k : α → Except ErrorCode β} {b : β}
    (h : (x >>= k) = .ok b) : ∃ a, x = .ok a ∧ k a = .ok b := by
  cases x with
  | ok a => exact ⟨a, rfl, h⟩
  | error e => cases h

theorem family1_of_familyOneOnly_ok {s : State} (h : s.familyOneOnly = .ok ()) : s.fam = .family1 := by
  cases hf : s.fam with
  | family1 => rfl
  | family2 => rw [State.familyOneOnly_error hf] at h; cases h

theorem lt_of_vec_eq_ok {s : State} {r : Reg} {a : Word} (h : s.vec r = .ok a) : a.toNat < 2 ^ maxBits s.fam := by
  obtain ⟨hlt, h'⟩ | ⟨_, h'⟩ := vecOf_cases s.fam (s.reg r)
  · cases h'.symm.trans h; exact hlt
  · cases h'.symm.trans h

theorem le_of_pfx_eq_ok {s : State} {r : Reg} {p : Nat} (h : s.pfx r = .ok p) : p ≤ maxBits s.fam := by
  obtain ⟨hle, h'⟩ | ⟨_, h'⟩ := prefixOf_cases s.fam (s.reg r)
  · cases h'.symm.trans h; exact hle
  · cases h'.symm.trans h

theorem of_check_eq_ok {c : Bool} {e : ErrorCode} (h : check c e = .ok ()) : c = true := by
  cases c with
  | true => rfl
  | false => cases h

theorem addressAndPrefix_eq_ok {s : State} {rs1 rs2 : Reg} {ap : Word × Nat} (h : s.addressAndPrefix rs1 rs2 = .ok ap) :
    s.fam = .family1 ∧ ap.1.toNat < 2 ^ 32 ∧ ap.2 ≤ 32 := by
  obtain ⟨_, hfam, h⟩ := exists_of_bind_eq_ok h
  obtain ⟨a, ha, h⟩ := exists_of_bind_eq_ok h
  obtain ⟨p, hp, h⟩ := exists_of_bind_eq_ok h
  cases h
  have hf := family1_of_familyOneOnly_ok hfam
  have hlt := lt_of_vec_eq_ok ha
  have hle := le_of_pfx_eq_ok hp
  rw [hf] at hlt hle
  exact ⟨hf, hlt, hle⟩

/-- A configuration that SUBCFG accepts: in family 1, the target longer than the base, and ENUM_BASE a network
address of the base's length. -/
theorem enumerationOf_eq_ok {s : State} {rs1 rs2 rs3 : Reg} {e : Enumeration}
    (h : s.enumerationOf rs1 rs2 rs3 = .ok e) :
    s.fam = .family1 ∧ e.p < e.t ∧ e.t ≤ 32 ∧ e.base.toNat < 2 ^ 32 ∧ 2 ^ (32 - e.p) ∣ e.base.toNat := by
  obtain ⟨⟨a, p⟩, hap, h⟩ := exists_of_bind_eq_ok h
  obtain ⟨t, ht, h⟩ := exists_of_bind_eq_ok h
  obtain ⟨_, hpt, h⟩ := exists_of_bind_eq_ok h
  cases h
  obtain ⟨hf, ha, hp⟩ := addressAndPrefix_eq_ok hap
  have ht := le_of_pfx_eq_ok ht
  rw [hf] at ht ⊢
  have hbase := toNat_networkAddress ha hp
  refine ⟨rfl, of_decide_eq_true (of_check_eq_ok hpt), ht, ?_, ?_⟩
  · exact hbase ▸ (networkOf_le a.toNat p).trans_lt ha
  · exact hbase ▸ Dvd.intro_left (a.toNat / 2 ^ (32 - p)) rfl

theorem enumeratorSound_setEnumeration {s : State} {e : Enumeration} (hpt : e.p < e.t) (ht : e.t ≤ 32)
    (hlt : e.base.toNat < 2 ^ 32) (hdvd : 2 ^ (32 - e.p) ∣ e.base.toNat) : EnumeratorSound (s.setEnumeration e) := by
  have hp : (s.setEnumeration e).enumP.toNat = e.p := by simp; omega
  have ht' : (s.setEnumeration e).enumT.toNat = e.t := by simp; omega
  refine .inr ⟨by omega, by omega, hlt, ?_⟩
  rw [hp]
  exact hdvd

/-! ## Every operation on the state keeps the invariant -/

theorem inv_reset : Inv State.reset where
  recordClear _ := ⟨rfl, rfl⟩
  recordLegal h := by cases h
  enumFamily h := by cases h
  enumerator := .inl ⟨rfl, rfl, rfl, rfl⟩
  handshake h := by cases h
  idleWait _ := rfl
  pendingLegal _ h := by cases h
  pendingRecorded _ h := by cases h
  takenLegal _ h := by cases h

/-- The record of the responses taken is the host's, so it is the one field that a reset edge does not clear. -/
theorem Inv.resetEdge {s : State} (h : Inv s) : Inv s.resetEdge := { inv_reset with takenLegal := h.takenLegal }

theorem Inv.afterSample {s : State} (h : Inv s) : Inv s.afterSample := { h with }

theorem Inv.takeResponse {s : State} (h : Inv s) {r : Response} (hr : s.rsp = some r) : Inv (s.takeResponse r) :=
  { h with
    handshake := fun _ => rfl
    pendingLegal := fun _ h => by cases h
    pendingRecorded := fun _ h => by cases h
    takenLegal := by
      intro q hq
      obtain hq | hq := List.mem_append.mp hq
      · exact h.takenLegal q hq
      · rw [List.mem_singleton.mp hq]; exact h.pendingLegal r hr }

theorem Inv.accept {s : State} (h : Inv s) (hr : s.rsp = none) (p : PortSample) : Inv (s.accept p) :=
  { h with
    handshake := fun _ => hr
    idleWait := fun h => by cases h }

/-- A busy unit may have any count of edges left. -/
theorem Inv.setWait {s : State} (h : Inv s) (hb : s.busy = true) (n : Nat) : Inv { s with wait := n } :=
  { h with idleWait := fun hi => by cases hb.symm.trans hi }

theorem Inv.respond {s : State} (h : Inv s) (hw : s.wait = 0) (v : Word) : Inv (s.respond v) :=
  { h with
    handshake := fun hb => by cases hb
    idleWait := fun _ => hw
    pendingLegal := fun _ hr => by cases hr; exact legalResponse_success v
    pendingRecorded := fun _ hr hne => by cases hr; exact absurd rfl hne }

theorem Inv.setRegs {s : State} (h : Inv s) (regs : Vector Word 8) : Inv { s with regs := regs } := { h with }

theorem Inv.succeed {s : State} (h : Inv s) (hw : s.wait = 0) (rd : Reg) (v : Word) : Inv (s.succeed rd v) :=
  (h.setRegs (s.regs.set rd v)).respond hw v

/-- The first error since the last clear is recorded with its own code, a later one keeps the code that stands. -/
theorem Inv.raise {s : State} (h : Inv s) (hw : s.wait = 0) {e : ErrorCode} (he : e ≠ .usage) : Inv (s.raise e) where
  recordClear hc := by cases hc
  recordLegal _ := by
    rw [State.raise_code]
    split
    · next hs => exact h.recordLegal hs
    · exact ⟨legalStatus_number he, errorCode_number_ne_zero e⟩
  enumFamily := h.enumFamily
  enumerator := h.enumerator
  handshake hb := by cases hb
  idleWait _ := hw
  pendingLegal _ hr := by cases hr; exact legalResponse_error he
  pendingRecorded _ _ _ := rfl
  takenLegal := h.takenLegal

/-- A CFG write changes the family, so it ends a valid enumeration (10_state.md R31). -/
theorem Inv.writeCfg {s : State} (h : Inv s) (v : Word) : Inv (s.writeCfg v) :=
  { h with
    enumFamily := fun hv => by cases hv
    enumerator := h.enumerator.imp_left fun ⟨_, hpte⟩ => ⟨rfl, hpte⟩ }

/-- While a command executes no response is pending, so none is left whose error the clear would forget. -/
theorem Inv.clearError {s : State} (h : Inv s) (hr : s.rsp = none) : Inv s.clearError :=
  { h with
    recordClear := fun _ => ⟨rfl, rfl⟩
    recordLegal := fun hc => by cases hc
    pendingRecorded := fun r hp => by cases hr.symm.trans hp }

theorem Inv.writeStatus {s : State} (h : Inv s) (hr : s.rsp = none) (v : Word) : Inv (s.writeStatus v) := by
  unfold State.writeStatus
  split
  · exact h.clearError hr
  · exact h

theorem Inv.setEnumeration {s : State} (h : Inv s) {rs1 rs2 rs3 : Reg} {e : Enumeration}
    (he : s.enumerationOf rs1 rs2 rs3 = .ok e) : Inv (s.setEnumeration e) := by
  obtain ⟨hf, hpt, ht, hlt, hdvd⟩ := enumerationOf_eq_ok he
  exact { h with
    enumFamily := fun _ => hf
    enumerator := enumeratorSound_setEnumeration hpt ht hlt hdvd }

/-! ## Every command and every edge keep the invariant -/

theorem writeStatus_wait (v : Word) (s : State) : (s.writeStatus v).wait = s.wait := by
  unfold State.writeStatus
  split <;> rfl

theorem Inv.ends {i : Instr} {s t : State} (h : Inv s) (hr : s.rsp = none) (hw : s.wait = 0)
    (he : Ends i s t) : Inv t := by
  cases he with
  | wrote rd v => exact h.succeed hw rd v
  | answered v => exact h.respond hw v
  | wroteCfg v => exact (h.writeCfg v).respond hw 0
  | wroteStatus v => exact (h.writeStatus hr v).respond ((writeStatus_wait v s).trans hw) 0
  | configured rd _ _ _ e _ he => exact (h.setEnumeration he).succeed hw rd _
  | raised e he => exact h.raise hw he.1

/-- The command in flight at an edge: the one accepted before it, or the one accepted at it. -/
theorem inv_of_inFlight {p : PortSample} {s a : State} (h : Inv s) (hr : s.rsp = none)
    (ha : a = s ∧ s.busy = true ∨ a = s.accept p ∧ s.busy = false) : Inv a ∧ a.rsp = none ∧ a.busy = true := by
  obtain ⟨rfl, hb⟩ | ⟨rfl, _⟩ := ha
  · exact ⟨h, hr, hb⟩
  · exact ⟨h.accept hr p, hr, rfl⟩

theorem Inv.edgeEffect {p : PortSample} {s t : State} (h : Inv s) (he : EdgeEffect p s t) : Inv t := by
  cases he with
  | reset _ => exact h.resetEdge
  | took r hr _ => exact h.takeResponse hr
  | held _ => exact h
  | counted a n ha hr _ =>
    obtain ⟨hinv, _, hb⟩ := inv_of_inFlight h hr ha
    exact hinv.setWait hb n
  | executed a _ i ha hr hw _ he =>
    obtain ⟨hinv, hra, _⟩ := inv_of_inFlight h hr ha
    exact hinv.ends hra hw he
  | illegal a ha hr hw =>
    obtain ⟨hinv, _, _⟩ := inv_of_inFlight h hr ha
    exact hinv.raise hw (by decide)

/-! ## The obligations -/

/-- Settles O12: every element that the invariant speaks of is clear after reset. -/
theorem resetMeetsTheInvariant : Obligations.ResetMeetsTheInvariant := inv_reset

/-- Settles O13: each of the six effects of an edge keeps the invariant, a command's through the way it ends. -/
theorem stepKeepsTheInvariant : Obligations.StepKeepsTheInvariant := by
  intro s t h hst
  exact h.afterSample.edgeEffect (step_inv hst)

end Sys2Proof.Safety
end

section
/-! What a command leaves unchanged (10_state.md R23, R25, R31, R33, R35): from the six ways a command ends. -/

namespace Sys2Proof.Safety

open Sys2Proof.Machine

/-! ## Which elements each end of a command keeps -/

/-- Every command keeps the register file but for rd, and the sampled command and the host's side. -/
theorem ends_frame {i : Instr} {s t : State} (he : Ends i s t) :
    (∀ x, destination i ≠ some x → t.reg x = s.reg x) ∧ SamePorts s t := by
  cases he with
  | wrote rd v hd =>
    have h := State.writesOnly_succeed s rd v
    exact ⟨fun x hx => h.others x fun hxd => hx (hxd ▸ hd), h.ports⟩
  | answered v =>
    have h := State.answersOnly_respond s v
    exact ⟨fun x _ => h.regs x, h.ports⟩
  | wroteCfg v =>
    have h := State.cfgWritten s v
    exact ⟨fun x _ => h.regs x, h.ports⟩
  | wroteStatus v =>
    have h := State.statusWritten s v
    exact ⟨fun x _ => h.regs x, h.ports⟩
  | configured rd _ _ _ e hi =>
    have hd : destination i = some rd := hi ▸ rfl
    exact ⟨fun x hx => State.reg_succeed_of_ne (s.setEnumeration e) _ fun hxd => hx (hxd ▸ hd),
      ⟨rfl, rfl, rfl, rfl, rfl⟩⟩
  | raised e =>
    have h := State.raised_raise s e
    exact ⟨fun x _ => h.regs x, h.ports⟩

/-- Only a CFG write changes the family. -/
theorem ends_fam {i : Instr} {s t : State} (he : Ends i s t) (hw : ∀ v, csrWriteOf s i ≠ some (0, v)) :
    t.fam = s.fam := by
  cases he with
  | wrote rd v => rfl
  | answered v => rfl
  | wroteCfg v hcfg => exact absurd hcfg (hw v)
  | wroteStatus v => exact (State.statusWritten s v).fam
  | configured => rfl
  | raised e => rfl

/-- Only a STATUS write and an error change the STATUS record. -/
theorem ends_record {i : Instr} {s t : State} (he : Ends i s t) (hw : ∀ v, csrWriteOf s i ≠ some (1, v)) :
    SameRecord s t ∨ ∃ e, t = s.raise e := by
  cases he with
  | wrote rd v => exact .inl ⟨rfl, rfl, rfl⟩
  | answered v => exact .inl ⟨rfl, rfl, rfl⟩
  | wroteCfg v => exact .inl ⟨rfl, rfl, rfl⟩
  | wroteStatus v hstatus => exact absurd hstatus (hw v)
  | configured => exact .inl ⟨rfl, rfl, rfl⟩
  | raised e => exact .inr ⟨e, rfl⟩

/-- Only a CFG write and SUBCFG change the enumerator. -/
theorem ends_enumerator {i : Instr} {s t : State} (he : Ends i s t) :
    SameEnumerator s t ∨ (∃ v, csrWriteOf s i = some (0, v) ∧ CfgWritten v s t) ∨
      ((∃ rd a b c, i = .subcfg rd a b c) ∧ t.enumValid = true) := by
  cases he with
  | wrote rd v => exact .inl ⟨rfl, rfl, rfl, rfl⟩
  | answered v => exact .inl ⟨rfl, rfl, rfl, rfl⟩
  | wroteCfg v hw => exact .inr (.inl ⟨v, hw, State.cfgWritten s v⟩)
  | wroteStatus v => exact .inl (State.statusWritten s v).enumerator
  | configured rd a b c e hi => exact .inr (.inr ⟨⟨rd, a, b, c, hi⟩, rfl⟩)
  | raised e => exact .inl ⟨rfl, rfl, rfl, rfl⟩

/-- A command that answers with an error has set STATUS.ERR. -/
theorem ends_err_of_error {i : Instr} {s t : State} (he : Ends i s t) {r : Response} (hr : t.rsp = some r)
    (hne : r.status ≠ 0) : t.err = true := by
  cases he with
  | wrote | answered | wroteCfg | wroteStatus | configured => cases hr; exact absurd rfl hne
  | raised e => rfl

/-- A STATUS write clears ERR only by bit 0. -/
theorem bit0_of_writeStatus_clears {v : Word} {s : State} (hs : s.err = true) (ht : (s.writeStatus v).err = false) :
    v.getLsbD 0 = true := by
  unfold State.writeStatus at ht
  split at ht
  · assumption
  · cases hs.symm.trans ht

theorem raise_rsp_status_ne_zero {s : State} {e : ErrorCode} {r : Response} (hr : (s.raise e).rsp = some r) :
    r.status ≠ 0 := by
  cases hr
  exact errorCode_number_ne_zero e

/-! ## The obligations -/

/-- Settles O20, an element at a time; an error is no success, so its record is no exception here. -/
theorem succeedingCommandFrame : Obligations.SucceedingCommandFrame := by
  intro i s t r hex hr hok
  have he := exec_inv hex
  obtain ⟨hregs, hports⟩ := ends_frame he
  refine ⟨hregs, hports, fun hw => ends_fam he hw, fun hw => ?record, fun hw hi => ?enumerator⟩
  case record =>
    obtain hsame | ⟨e, rfl⟩ := ends_record he hw
    · exact hsame
    · exact absurd hok (raise_rsp_status_ne_zero hr)
  case enumerator =>
    obtain hsame | ⟨v, hcfg, _⟩ | ⟨⟨rd, a, b, c, hsub⟩, _⟩ := ends_enumerator he
    · exact hsame
    · exact absurd hcfg (hw v)
    · exact absurd hsub (hi rd a b c)

/-- Settles O21: ERR falls only where the record is rewritten, and an error sets it. -/
theorem onlyStatusWriteClearsTheErrorFlag : Obligations.OnlyStatusWriteClearsTheErrorFlag := by
  intro i s t hex
  have he := exec_inv hex
  refine ⟨fun r hr hne => ends_err_of_error he hr hne, fun hs ht => ?_⟩
  cases he with
  | wroteStatus v hw => exact ⟨v, hw, bit0_of_writeStatus_clears hs ht⟩
  | wrote | answered | wroteCfg | configured => cases hs.symm.trans ht
  | raised e => cases ht

/-- Settles O22: an end of a command that changes the enumerator is a CFG write or SUBCFG's. -/
theorem onlySubcfgConfiguresTheEnumerator : Obligations.OnlySubcfgConfiguresTheEnumerator := by
  intro i s t hex
  obtain hsame | ⟨v, hw, hcfg⟩ | ⟨⟨rd, a, b, c, hsub⟩, hset⟩ := ends_enumerator (exec_inv hex)
  · refine ⟨fun _ => ⟨hsame.enumP, hsame.enumT, hsame.enumBase, fun ht => hsame.enumValid ▸ ht⟩, fun hs ht => ?_⟩
    cases (hsame.enumValid.trans hs).symm.trans ht
  · exact ⟨fun _ => ⟨hcfg.enumP, hcfg.enumT, hcfg.enumBase, fun ht => by cases hcfg.enumValid.symm.trans ht⟩,
      fun _ _ => ⟨v, hw⟩⟩
  · exact ⟨fun hi => absurd hsub (hi rd a b c), fun _ ht => by cases hset.symm.trans ht⟩

end Sys2Proof.Safety
end

section
/-! The elements after reset, the response handshake and the control register writes (10_state.md R27, R31, R33, R37,
R40, R41). -/

namespace Sys2Proof.Safety

open Sys2Proof.Machine

/-! ## The ports -/

theorem cmdReady_iff (s : State) : s.cmdReady true = true ↔ s.busy = false ∧ s.rsp = none := by
  simp [State.cmdReady]

theorem rspValid_iff (s : State) : (s.outputs true).rspValid = true ↔ ∃ r, s.rsp = some r := by
  simp [State.outputs, Option.isSome_iff_exists]

/-- While cmd_ready is 0 the unit is answering or busy, and neither looks at the offer (10_state.md R40). -/
theorem risingEdge_congr_of_not_ready {s : State} (h : s.cmdReady true = false) {p q : PortSample}
    (hrst : p.rstN = q.rstN) (hrsp : p.rspReady = q.rspReady) : risingEdge p s = risingEdge q s := by
  cases hq : q.rstN with
  | false => rw [risingEdge_reset (hrst.trans hq), risingEdge_reset hq]
  | true =>
    have hp := hrst.trans hq
    cases hr : s.rsp with
    | some r => rw [risingEdge_pending hp hr, risingEdge_pending hq hr, hrsp]
    | none =>
      have hb : s.busy = true := by simpa [State.cmdReady, hr] using h
      rw [risingEdge_busy hp hr hb, risingEdge_busy hq hr hb]

theorem step_withInputs (s : State) (p : PortSample) (rest : List PortSample) :
    step { s with inputs := p :: rest } = risingEdge p { s with inputs := rest } := rfl

/-! ## Control registers -/

/-- CSRR of a reserved number (10_state.md R27). -/
theorem readCsr_reserved {n : BitVec 3} (h : 5 ≤ n.toNat) (s : State) : s.readCsr n = .error .illegal := by
  have hn : n = 5 ∨ n = 6 ∨ n = 7 := by revert n; decide
  obtain rfl | rfl | rfl := hn <;> rfl

/-- A write of a reserved or read-only number (10_state.md R27). -/
theorem finishCsrWrite_reserved {n : BitVec 3} (h : 2 ≤ n.toNat) (v : Word) (s : State) :
    s.finishCsrWrite n v = .next (s.raise .illegal) := by
  obtain ⟨rfl, _⟩ | ⟨rfl, _⟩ | ⟨_, hw⟩ := s.finishCsrWrite_cases n v
  · exact absurd h (by decide)
  · exact absurd h (by decide)
  · exact hw

/-! ## The obligations -/

/-- Settles O1: the registers by one lemma, every other element and control register by evaluation. -/
theorem resetClearsEveryElement : Obligations.ResetClearsEveryElement :=
  ⟨State.reg_reset, by decide⟩

/-- Settles O6: the ports as their definitions give them, and an edge that does not look at the offer. -/
theorem commandNeedsReady : Obligations.CommandNeedsReady := by
  refine ⟨cmdReady_iff, rspValid_iff, fun s p q rest hnot hrst hrsp => ?_⟩
  rw [step_withInputs, step_withInputs]
  exact risingEdge_congr_of_not_ready (s := { s with inputs := rest }) hnot hrst hrsp

/-- Settles O7: an edge with a response pending looks at rsp_ready alone. -/
theorem responseIsTakenExactlyOnce : Obligations.ResponseIsTakenExactlyOnce := by
  intro s p rest r hi hrst hr
  have hstep := step_pending hi hrst hr
  refine ⟨fun hready => ?taken, fun hready => ?held⟩
  case taken => rw [hstep, if_pos hready]; rfl
  case held => rw [hstep, if_neg (by simp [hready])]

/-- Settles O30: the reads and the writes that R27 refuses. -/
theorem reservedControlRegistersRaiseIllegalError : Obligations.ReservedControlRegistersRaiseIllegalError := by
  intro s rd rs1 n imm
  refine ⟨fun h => raises_of rfl (readCsr_reserved h s), fun h => ⟨?csrw, ?csrwi⟩⟩
  case csrw => exact ⟨_, finishCsrWrite_reserved h _ s, State.raised_raise s .illegal⟩
  case csrwi => exact ⟨_, finishCsrWrite_reserved h _ s, State.raised_raise s .illegal⟩

/-- Settles O31, for the register's value and for the zero-extended immediate. -/
theorem cfgWriteSelectsTheFamily : Obligations.CfgWriteSelectsTheFamily := by
  intro s
  refine ⟨fun rs1 => ⟨_, rfl, State.cfgWritten s (s.reg rs1)⟩, fun imm => ⟨_, rfl, ?_⟩⟩
  rw [← zeroExtend_eq_ofNat]
  exact State.cfgWritten s (imm.zeroExtend 128)

/-- Settles O32, for the register's value and for the zero-extended immediate. -/
theorem statusWriteClearsTheRecord : Obligations.StatusWriteClearsTheRecord := by
  intro s
  refine ⟨fun rs1 => ⟨_, rfl, State.statusWritten s (s.reg rs1)⟩, fun imm => ⟨_, rfl, ?_⟩⟩
  rw [← zeroExtend_eq_ofNat]
  exact State.statusWritten s (imm.zeroExtend 128)

end Sys2Proof.Safety
end

section
/-! The step as the execution of a decoded command, and what the command answers (20_memory.md R53, R55; 10_state.md R40;
60_exceptions.md R245). -/

namespace Sys2Proof.Safety

open Sys2Proof.Machine

/-! ## Runs go on -/

/-- 20_memory.md R53: the step is total, so a run of any length is. -/
theorem exists_core_run (n : Nat) : ∀ s : State, ∃ t, Host.Core.run core n s = .next t := by
  induction n with
  | zero => exact fun s => ⟨s, core_run_zero s⟩
  | succ n ih =>
    intro s
    obtain ⟨u, hu, _⟩ := step_effect s
    rw [core_run_succ hu]
    exact ih u

/-! ## The edge that completes a command -/

/-- An offer accepted with the least latency executes at its own edge. -/
theorem step_offered_exec {s : State} {p : PortSample} {rest : List PortSample} {i : Instr} (hi : s.inputs = p :: rest)
    (hrst : p.rstN = true) (hv : p.cmdValid = true) (hw : p.wait = 0) (hb : s.busy = false) (hr : s.rsp = none)
    (hd : decode p.cmdWord = .ok i) : step s = exec i ({ s with inputs := rest }.accept p) := by
  rw [step_offered hi hrst hr hb hv, advance_zero hw]
  exact runCommand_ok hd

/-- A command in flight whose latency has run out executes at the next edge. -/
theorem step_busy_exec {s : State} {i : Instr} (hn : NoResetNext s) (hb : s.busy = true) (hr : s.rsp = none)
    (hw : s.wait = 0) (hd : decode s.cmdWord = .ok i) : step s = exec i s.afterSample := by
  rw [step_busy hn hr hb, advance_zero (s := s.afterSample) hw]
  exact runCommand_ok hd

/-- A 32-bit word placed by its number is the word offered next. -/
theorem withFetchWord_toNat (s : State) (w : CommandWord) : s.withFetchWord 32 w.toNat = s.offerNext w := by
  rw [State.withFetchWord, Nat.mod_eq_of_lt w.isLt, BitVec.ofNat_toNat, BitVec.setWidth_eq]

/-! ## The response data of a success -/

/-- The data that 20_memory.md R55 requires of a success: the value of x[rd], x[rs1] for RD, else 0. -/
def ResponseData (i : Instr) (s t : State) (v : Word) : Prop :=
  (∀ rd, destination i = some rd → v = t.reg rd) ∧ (∀ rs1, i = .rd rs1 → v = s.reg rs1) ∧
  (i = .nop → v = 0) ∧ (∀ n w, csrWriteOf s i = some (n, w) → v = 0)

/-- A control register write has no destination register. -/
theorem destination_of_csrWriteOf {s : State} {i : Instr} {nv : BitVec 3 × Word} (h : csrWriteOf s i = some nv) :
    destination i = none := by
  cases i with
  | csrw | csrwi => rfl
  | _ => cases h

theorem responseData_of_destination {i : Instr} {s t : State} {rd : Reg} (hd : destination i = some rd) :
    ResponseData i s t (t.reg rd) := by
  refine ⟨fun rd' hd' => ?_, fun rs1 hi => ?_, fun hi => ?_, fun n w hw => ?_⟩
  · rw [Option.some.inj (hd.symm.trans hd')]
  · cases hi; cases hd
  · cases hi; cases hd
  · cases hd.symm.trans (destination_of_csrWriteOf hw)

theorem responseData_of_csrWriteOf {i : Instr} {s : State} (t : State) {nv : BitVec 3 × Word}
    (hw : csrWriteOf s i = some nv) : ResponseData i s t 0 := by
  refine ⟨fun rd hd => ?_, fun rs1 hi => ?_, fun _ => rfl, fun _ _ _ => rfl⟩
  · cases hd.symm.trans (destination_of_csrWriteOf hw)
  · cases hi; cases hw

/-- Each of the six ways a command ends answers: five with the data of a success, one with an error (R55). -/
theorem ends_answers {i : Instr} {s t : State} (he : Ends i s t) :
    (∃ v, Answers 0 v t ∧ ResponseData i s t v) ∨ ∃ e : ErrorCode, Raised e s t := by
  cases he with
  | wrote rd v hd =>
    have hdata : ResponseData i s (s.succeed rd v) ((s.succeed rd v).reg rd) := responseData_of_destination hd
    rw [State.reg_succeed_self] at hdata
    exact .inl ⟨v, (State.writesOnly_succeed s rd v).answer, hdata⟩
  | answered v hd hw hn hr =>
    exact .inl ⟨v, (State.answersOnly_respond s v).answer, fun rd h => (by cases hd.symm.trans h), hr, hn,
      fun n w h => (by cases hw.symm.trans h)⟩
  | wroteCfg v hw => exact .inl ⟨0, (State.cfgWritten s v).answer, responseData_of_csrWriteOf _ hw⟩
  | wroteStatus v hw => exact .inl ⟨0, (State.statusWritten s v).answer, responseData_of_csrWriteOf _ hw⟩
  | configured rd rs1 rs2 rs3 e hi =>
    refine .inl ⟨_, ⟨rfl, ?_⟩, responseData_of_destination (rd := rd) (hi ▸ rfl)⟩
    rw [State.succeed_rsp, State.reg_succeed_self]
  | raised e => exact .inr ⟨e, State.raised_raise s e⟩

/-! ## The obligations -/

/-- Settles O3: each of the three situations is an edge whose command has no latency left; a word placed by withFetchWord
is an offer with the least latency. -/
theorem stepExecutesTheDecodedCommand : Obligations.StepExecutesTheDecodedCommand := by
  refine ⟨fun s p rest i hi hrst hv hw hb hr hd => ?offered, fun s i hn hb hr hw hd => ?inFlight,
    fun s w i hd => ?placed⟩
  case offered =>
    rw [step_offered_exec hi hrst hv hw hb hr hd, State.accept, hw]
  case inFlight => exact step_busy_exec hn hb hr hw hd
  case placed =>
    rw [withFetchWord_toNat]
    exact step_offered_exec (s := s.offerNext w) rfl rfl rfl rfl rfl rfl hd

/-- Settles O10: every edge has one of its six effects, and a run is a sequence of edges. -/
theorem unitNeverStops : Obligations.UnitNeverStops := by
  refine ⟨fun s => ?_, exists_core_run⟩
  obtain ⟨t, ht, _⟩ := step_effect s
  exact ⟨t, ht⟩

/-- Settles O18, from the ways a command ends: the status is 0 exactly in those that succeed. -/
theorem everyCommandAnswers : Obligations.EveryCommandAnswers := by
  intro i s
  obtain ⟨t, ht, he⟩ := exec_ends i s
  obtain ⟨v, hans, hdata⟩ | ⟨e, hraised⟩ := ends_answers he
  · exact ⟨t, ⟨0, v⟩, ht, hans.busy, hans.rsp, fun _ => hdata, fun hne => absurd rfl hne⟩
  · exact ⟨t, ⟨e.number, 0⟩, ht, hraised.answer.busy, hraised.answer.rsp,
      fun h0 => absurd h0 (errorCode_number_ne_zero e), fun _ => ⟨rfl, e, rfl, hraised⟩⟩

end Sys2Proof.Safety
end

section
/-! Commands driven through the handshake are atomic steps (20_memory.md R53, R56; 70_reset_and_hazards.md R277, R278).
A command reads the architectural state and the sampled command only, so the state that carries the host's ports answers
as the bare `accepted` state of the atomic step does; and the edges of a latency only count down. -/

namespace Sys2Proof.Safety

open Sys2Proof.Machine

/-! ## A command does not read the host's side -/

/-- The state with the host's ports left out: what an atomic step is given. -/
def bare (s : State) : State := accepted (arch s) s.cmdWord s.cmdData

/-- Two ends of a command that agree in the architectural state and the response. -/
structure SameResult (t u : State) : Prop where
  arch : arch u = arch t
  rsp : u.rsp = t.rsp

/-- An outcome of a command and one that agrees with it. -/
def SameOutcome (x y : Outcome) : Prop := ∃ t u, x = .next t ∧ y = .next u ∧ SameResult t u

theorem sameResult_respond (v : Word) {s u : State} (h : arch u = arch s) :
    SameResult (s.respond v) (u.respond v) := ⟨h, rfl⟩

theorem sameResult_succeed (rd : Reg) (v : Word) (s : State) : SameResult (s.succeed rd v) ((bare s).succeed rd v) :=
  ⟨rfl, rfl⟩

theorem sameResult_raise (e : ErrorCode) (s : State) : SameResult (s.raise e) ((bare s).raise e) := ⟨rfl, rfl⟩

theorem arch_writeStatus_bare (v : Word) (s : State) : arch ((bare s).writeStatus v) = arch (s.writeStatus v) := by
  unfold State.writeStatus
  split <;> rfl

/-- A computed result ends a command alike in both states. -/
theorem finish_bare (s : State) (rd : Reg) (x : Except ErrorCode Word) :
    SameOutcome (s.finish rd x) ((bare s).finish rd x) := by
  cases x with
  | ok v => exact ⟨_, _, rfl, rfl, sameResult_succeed rd v s⟩
  | error e => exact ⟨_, _, rfl, rfl, sameResult_raise e s⟩

theorem finishCsrWrite_bare (s : State) (n : BitVec 3) (v : Word) :
    SameOutcome (s.finishCsrWrite n v) ((bare s).finishCsrWrite n v) := by
  obtain ⟨rfl, _⟩ | ⟨rfl, _⟩ | ⟨hn, _⟩ := s.finishCsrWrite_cases n v
  · exact ⟨_, _, rfl, rfl, sameResult_respond 0 rfl⟩
  · exact ⟨_, _, rfl, rfl, sameResult_respond 0 (arch_writeStatus_bare v s)⟩
  · exact ⟨_, _, finishCsrWrite_reserved hn v s, finishCsrWrite_reserved hn v (bare s), sameResult_raise .illegal s⟩

theorem execSubcfg_bare (rd rs1 rs2 rs3 : Reg) (s : State) :
    SameOutcome (execSubcfg rd rs1 rs2 rs3 s) (execSubcfg rd rs1 rs2 rs3 (bare s)) := by
  have hbare : (bare s).enumerationOf rs1 rs2 rs3 = s.enumerationOf rs1 rs2 rs3 := rfl
  rw [execSubcfg, execSubcfg, hbare]
  cases s.enumerationOf rs1 rs2 rs3 with
  | ok e => exact ⟨_, _, rfl, rfl, ⟨rfl, rfl⟩⟩
  | error e => exact ⟨_, _, rfl, rfl, sameResult_raise e s⟩

/-- Every command ends alike in both states: what it computes reads nothing of the host's side. -/
theorem exec_bare (i : Instr) (s : State) : SameOutcome (exec i s) (exec i (bare s)) := by
  cases i with
  | nop => exact ⟨_, _, rfl, rfl, sameResult_respond 0 rfl⟩
  | rd rs1 => exact ⟨_, _, rfl, rfl, sameResult_respond (s.reg rs1) rfl⟩
  | ldi rd | wr rd | mov rd => exact ⟨_, _, rfl, rfl, sameResult_succeed rd _ s⟩
  | csrw n rs1 | csrwi n => exact finishCsrWrite_bare s n _
  | subcfg rd rs1 rs2 rs3 => exact execSubcfg_bare rd rs1 rs2 rs3 s
  | csrr rd | mask rd | wild rd | m2p rd | b2v rd | v2b rd | bshl rd | bshr rd | brol rd | bror rd | clz rd | clo rd
  | lcp rd | net rd | bcast rd | first rd | last rd | hcnt rd | isnet rd | isbc rd | cont rd | scn rd | subn rd
  | budg rd => exact finish_bare s rd _

/-- The accepted word, legal or not, ends alike in both states. -/
theorem runCommand_bare (s : State) : SameOutcome (runCommand s) (runCommand (bare s)) := by
  cases hd : decode s.cmdWord with
  | ok i =>
    rw [runCommand_ok hd, runCommand_ok (s := bare s) hd]
    exact exec_bare i s
  | error e =>
    have hill : ∀ i, decode s.cmdWord ≠ .ok i := fun i hi => by cases hd.symm.trans hi
    exact ⟨_, _, runCommand_illegal hill, runCommand_illegal (s := bare s) hill, sameResult_raise .illegal s⟩

/-- The command in flight is the atomic step of its word and data on the architectural state. -/
theorem atomicStep_of_runCommand {s t : State} {r : Response} (ht : runCommand s = .next t) (hr : t.rsp = some r) :
    atomicStep (arch s) s.cmdWord s.cmdData = (arch t, r) := by
  obtain ⟨t', u, ht', hu, hsame⟩ := runCommand_bare s
  cases ht.symm.trans ht'
  have hu' : runCommand (accepted (arch s) s.cmdWord s.cmdData) = .next u := hu
  simp only [atomicStep, hu', hsame.arch, hsame.rsp, hr, Option.getD_some]

/-- The accepted word answers, and leaves the host's side as it was. -/
theorem runCommand_answers (s : State) :
    ∃ t r, runCommand s = .next t ∧ t.busy = false ∧ t.rsp = some r ∧ SamePorts s t := by
  obtain ⟨t, ht, ⟨i, _, he⟩ | rfl⟩ := runCommand_cases s
  · obtain ⟨v, hans, _⟩ | ⟨e, hraised⟩ := ends_answers he
    · exact ⟨t, _, ht, hans.busy, hans.rsp, (ends_frame he).2⟩
    · exact ⟨t, _, ht, hraised.answer.busy, hraised.answer.rsp, hraised.ports⟩
  · exact ⟨_, _, ht, rfl, rfl, (State.raised_raise s .illegal).ports⟩

/-! ## The edges of a latency -/

/-- From the edge that accepts a command, or goes on with it, over the idle edges of its latency: the edge after them
executes the command. -/
theorem core_run_latency {n : Nat} : ∀ {s a t : State} {rest : List PortSample}, step s = advance a →
    a.busy = true → a.rsp = none → a.wait = n → a.inputs = List.replicate n .idle ++ rest →
    runCommand { a with wait := 0, inputs := rest } = .next t → Host.Core.run core (n + 1) s = .next t := by
  induction n with
  | zero =>
    intro s a t rest hs _ _ hw hi ht
    have hrest : a.inputs = rest := hi
    have ha : { a with wait := 0, inputs := rest } = a := by rw [← hw, ← hrest]
    rw [ha, ← advance_zero hw, ← hs] at ht
    rw [core_run_succ ht, core_run_zero]
  | succ n ih =>
    intro s a t rest hs hb hr hw hi ht
    rw [advance_succ hw] at hs
    have hidle : a.inputs = .idle :: (List.replicate n .idle ++ rest) := by rw [hi, List.replicate_succ, List.cons_append]
    have hn : NoResetNext { a with wait := n } := by
      intro p hp
      rw [hidle] at hp
      cases hp
      rfl
    rw [core_run_succ hs]
    refine ih (step_busy hn hr hb) hb hr rfl ?_ ht
    rw [State.afterSample_inputs]
    exact congrArg List.tail hidle

/-! ## One command through the handshake -/

/-- The offer that begins the port samples of a command. -/
def Issue.offer (c : Issue) : PortSample :=
  { PortSample.idle with cmdValid := true, cmdWord := c.word, cmdData := c.data, wait := c.wait }

/-- The edge at which the host takes a response and does nothing else. -/
def taking : PortSample := { PortSample.idle with rspReady := true }

theorem Issue.samples_append (c : Issue) (rest : List PortSample) :
    c.samples ++ rest = c.offer :: (List.replicate c.wait PortSample.idle ++ taking :: rest) := by
  simp [Issue.samples, Issue.offer, taking]

/-- The unit at the edge that executes the command: its latency has run out, and the host takes the response next. -/
def Issue.due (c : Issue) (s : State) (rest : List PortSample) : State :=
  { s with busy := true, cmdWord := c.word, cmdData := c.data, wait := 0, inputs := taking :: rest }

/-- A unit between two commands, with the samples that the host still drives. -/
structure IdleUnit (inputs : List PortSample) (s : State) : Prop where
  busy : s.busy = false
  rsp : s.rsp = none
  inputs : s.inputs = inputs

/-- The edges of one command are its atomic step: from an idle unit to an idle unit, one response taken. -/
theorem core_run_issue (c : Issue) {s : State} {rest : List PortSample} (h : IdleUnit (c.samples ++ rest) s) :
    ∃ t, Host.Core.run core c.edges s = .next t ∧ IdleUnit rest t ∧
      arch t = (atomicStep (arch s) c.word c.data).1 ∧
      t.taken = s.taken ++ [(atomicStep (arch s) c.word c.data).2] := by
  have hi := h.inputs.trans (c.samples_append rest)
  have haccept := step_offered hi rfl h.rsp h.busy rfl
  obtain ⟨t, r, ht, hb, hr, hports⟩ := runCommand_answers (c.due s rest)
  have hatomic : atomicStep (arch s) c.word c.data = (arch t, r) :=
    atomicStep_of_runCommand (s := c.due s rest) ht hr
  have hanswered : Host.Core.run core (c.wait + 1) s = .next t :=
    core_run_latency haccept rfl h.rsp rfl rfl ht
  have htaken : step t = .next ({ t with inputs := rest }.takeResponse r) := step_pending hports.inputs rfl hr
  refine ⟨{ t with inputs := rest }.takeResponse r, ?_, ⟨hb, rfl, rfl⟩, ?_, ?_⟩
  · rw [show c.edges = c.wait + 1 + 1 from rfl, core_run_add _ hanswered, core_run_succ htaken, core_run_zero]
  · rw [hatomic]; rfl
  · rw [hatomic, State.takeResponse_taken, hports.taken]; rfl

/-! ## A sequence of commands -/

theorem atomicRun_cons (a : Arch) (c : Issue) (cs : List Issue) :
    atomicRun a (c :: cs) = ((atomicRun (atomicStep a c.word c.data).1 cs).1,
      (atomicStep a c.word c.data).2 :: (atomicRun (atomicStep a c.word c.data).1 cs).2) := rfl

/-- One response for each command (10_state.md R37). -/
theorem atomicRun_length (cs : List Issue) : ∀ a : Arch, (atomicRun a cs).2.length = cs.length := by
  induction cs with
  | nil => exact fun _ => rfl
  | cons c cs ih =>
    intro a
    rw [atomicRun_cons, List.length_cons, List.length_cons, ih]

/-- The edges of a sequence of commands are the sequence of their atomic steps. -/
theorem core_run_issues (cs : List Issue) : ∀ {s : State} {rest : List PortSample},
    IdleUnit (cs.flatMap Issue.samples ++ rest) s →
    ∃ t, Host.Core.run core (cs.map Issue.edges).sum s = .next t ∧ IdleUnit rest t ∧
      arch t = (atomicRun (arch s) cs).1 ∧ t.taken = s.taken ++ (atomicRun (arch s) cs).2 := by
  induction cs with
  | nil => exact fun {s _} h => ⟨s, core_run_zero s, h, rfl, (List.append_nil _).symm⟩
  | cons c cs ih =>
    intro s rest h
    rw [List.flatMap_cons, List.append_assoc] at h
    obtain ⟨u, hu, hidle, huarch, hutaken⟩ := core_run_issue c h
    obtain ⟨t, ht, htidle, htarch, httaken⟩ := ih hidle
    refine ⟨t, ?_, htidle, ?_, ?_⟩
    · rw [List.map_cons, List.sum_cons, core_run_add c.edges hu, ht]
    · rw [htarch, huarch, atomicRun_cons]
    · rw [httaken, hutaken, huarch, atomicRun_cons, List.append_assoc, List.singleton_append]

/-! ## The obligation -/

/-- Settles O11, by induction on the sequence: the edges of each command are its atomic step. -/
theorem handshakeRunsAreAtomicRuns : Obligations.HandshakeRunsAreAtomicRuns := by
  intro cs s rest hb hr hi
  obtain ⟨t, ht, hidle, harch, htaken⟩ := core_run_issues cs ⟨hb, hr, hi⟩
  exact ⟨t, ht, harch, htaken, atomicRun_length cs (arch s), hidle.busy, hidle.rsp, hidle.inputs⟩

end Sys2Proof.Safety
end

section
/-! A command word and its fields (30_encoding.md R70, R71): a word is its six fields, and it matches the mask of a row
exactly when it has the row's opcode and is zero in every bit that the row does not use. -/

namespace Sys2Proof

/-! ## A word is its fields -/

/-- The low 14 bits: f of format R, imm11 and csr of format C (30_encoding.md R70). -/
def lowField (w : CommandWord) : BitVec 14 := w.extractLsb' 0 14

theorem toNat_lowField (w : CommandWord) : (lowField w).toNat = w.toNat % 2 ^ 14 := by
  rw [lowField, BitVec.extractLsb'_toNat, Nat.shiftRight_zero]

@[simp] theorem lowField_packR (op : BitVec 6) (rd rs1 rs2 rs3 : Reg) (f : BitVec 14) :
    lowField (packR op rd rs1 rs2 rs3 f) = f := by
  apply BitVec.eq_of_toNat_eq
  rw [toNat_lowField, toNat_packR]
  omega

/-- A word is packed from its own fields. -/
theorem packR_fields (w : CommandWord) :
    packR (opField w) (rdField w) (rs1Field w) (rs2Field w) (rs3Field w) (lowField w) = w := by
  apply BitVec.eq_of_toNat_eq
  rw [toNat_packR, toNat_opField, val_rdField, val_rs1Field, val_rs2Field, val_rs3Field, toNat_lowField]
  omega

/-- A word is a packed one exactly when it agrees with it in every field. -/
theorem eq_packR_iff {op : BitVec 6} {rd rs1 rs2 rs3 : Reg} {f : BitVec 14} {w : CommandWord} :
    w = packR op rd rs1 rs2 rs3 f ↔ opField w = op ∧ rdField w = rd ∧ rs1Field w = rs1 ∧ rs2Field w = rs2 ∧
      rs3Field w = rs3 ∧ lowField w = f := by
  constructor
  · rintro rfl
    simp
  · rintro ⟨rfl, rfl, rfl, rfl, rfl, rfl⟩
    exact (packR_fields w).symm

/-! ## The fields of a masked word -/

theorem opField_and (v w : CommandWord) : opField (v &&& w) = opField v &&& opField w := BitVec.extractLsb'_and

theorem lowField_and (v w : CommandWord) : lowField (v &&& w) = lowField v &&& lowField w := BitVec.extractLsb'_and

theorem toFin_extractLsb'_and (v w : CommandWord) (start len : Nat) :
    ((v &&& w).extractLsb' start len).toFin = (v.extractLsb' start len).toFin &&& (w.extractLsb' start len).toFin := by
  rw [BitVec.extractLsb'_and, BitVec.toFin_and]

theorem rdField_and (v w : CommandWord) : rdField (v &&& w) = rdField v &&& rdField w :=
  toFin_extractLsb'_and v w 23 3

theorem rs1Field_and (v w : CommandWord) : rs1Field (v &&& w) = rs1Field v &&& rs1Field w :=
  toFin_extractLsb'_and v w 20 3

theorem rs2Field_and (v w : CommandWord) : rs2Field (v &&& w) = rs2Field v &&& rs2Field w :=
  toFin_extractLsb'_and v w 17 3

theorem rs3Field_and (v w : CommandWord) : rs3Field (v &&& w) = rs3Field v &&& rs3Field w :=
  toFin_extractLsb'_and v w 14 3

/-! ## The layout of a row -/

/-- Which bits of its words a row of the opcode map uses (30_encoding.md R71, R72): a row uses a register field as a
whole or not at all, and of the low 14 bits the lowest ones. Immediates count as the register fields that they cover. -/
structure Layout where
  op : BitVec 6
  rd : Bool
  rs1 : Bool
  rs2 : Bool
  rs3 : Bool
  low : Nat

/-- The mask of a register field: its three bits where it is not used. -/
def regMask (used : Bool) : Reg := if used then 0 else 7

/-- The mask of the low 14 bits when the `low` lowest ones are used. -/
def lowMask (low : Nat) : BitVec 14 := BitVec.allOnes 14 <<< low

/-- The mask of a row: the opcode and every bit that is not used (30_encoding.md R71). -/
def Layout.mask (l : Layout) : CommandWord :=
  packR (BitVec.allOnes 6) (regMask l.rd) (regMask l.rs1) (regMask l.rs2) (regMask l.rs3) (lowMask l.low)

/-- The match of a row: its opcode, and zeros (30_encoding.md R71). -/
def Layout.value (l : Layout) : CommandWord := packR l.op 0 0 0 0 0

/-- The word has the row's opcode and is zero in every bit that the row does not use. -/
structure Layout.Fits (l : Layout) (w : CommandWord) : Prop where
  op : opField w = l.op
  rd : l.rd = false → rdField w = 0
  rs1 : l.rs1 = false → rs1Field w = 0
  rs2 : l.rs2 = false → rs2Field w = 0
  rs3 : l.rs3 = false → rs3Field w = 0
  low : (lowField w).toNat < 2 ^ l.low

theorem Layout.fits_iff {l : Layout} {w : CommandWord} : l.Fits w ↔ opField w = l.op ∧ (l.rd = false → rdField w = 0) ∧
    (l.rs1 = false → rs1Field w = 0) ∧ (l.rs2 = false → rs2Field w = 0) ∧ (l.rs3 = false → rs3Field w = 0) ∧
    (lowField w).toNat < 2 ^ l.low :=
  ⟨fun ⟨hop, hrd, hrs1, hrs2, hrs3, hlow⟩ => ⟨hop, hrd, hrs1, hrs2, hrs3, hlow⟩,
    fun ⟨hop, hrd, hrs1, hrs2, hrs3, hlow⟩ => ⟨hop, hrd, hrs1, hrs2, hrs3, hlow⟩⟩

theorem and_regMask_eq_zero_iff {r : Reg} {used : Bool} : r &&& regMask used = 0 ↔ (used = false → r = 0) := by
  decide +revert

theorem and_lowMask_eq_zero_iff {f : BitVec 14} {low : Nat} : f &&& lowMask low = 0 ↔ f.toNat < 2 ^ low := by
  have hle := Nat.div_mul_le_self f.toNat (2 ^ low)
  rw [lowMask, ← BitVec.shiftLeft_ushiftRight, ← BitVec.toNat_inj, BitVec.toNat_shiftLeft, BitVec.toNat_ushiftRight,
    Nat.shiftRight_eq_div_pow, Nat.shiftLeft_eq, Nat.mod_eq_of_lt (hle.trans_lt f.isLt)]
  simp [Nat.div_eq_zero_iff]

/-- Masking a word and comparing it with the row's match is a check of each field (30_encoding.md R71, R76). -/
theorem Layout.and_mask_eq_value_iff (l : Layout) (w : CommandWord) : w &&& l.mask = l.value ↔ l.Fits w := by
  rw [Layout.value, eq_packR_iff, opField_and, rdField_and, rs1Field_and, rs2Field_and, rs3Field_and, lowField_and,
    Layout.fits_iff]
  simp only [Layout.mask, opField_packR, rdField_packR, rs1Field_packR, rs2Field_packR, rs3Field_packR, lowField_packR,
    BitVec.and_allOnes, and_regMask_eq_zero_iff, and_lowMask_eq_zero_iff]

end Sys2Proof
end

section
/-! The opcode map as a table of rows (30_encoding.md R75): each row has its layout and the command that its words stand
for, and a word fits a row exactly when it is the encoding of that command. The decoder looks the row up by the
opcode. -/

namespace Sys2Proof

/-! ## The low bits that a row uses -/

theorem toNat_bit0Field (w : CommandWord) : (bit0Field w).toNat = w.toNat % 2 := by
  rw [bit0Field, BitVec.getLsbD, Nat.toNat_testBit, Nat.pow_zero, Nat.div_one]

theorem toNat_bit1Field (w : CommandWord) : (bit1Field w).toNat = w.toNat / 2 % 2 := by
  rw [bit1Field, BitVec.getLsbD, Nat.toNat_testBit, Nat.pow_one]

theorem lowField_eq_zero_iff {w : CommandWord} : lowField w = 0 ↔ (lowField w).toNat < 2 ^ 0 := by
  rw [← BitVec.toNat_inj]
  exact Nat.lt_one_iff.symm

theorem lowField_eq_count_iff {w : CommandWord} :
    lowField w = countBits (countField w) ↔ (lowField w).toNat < 2 ^ 4 := by
  rw [← BitVec.toNat_inj, toNat_countBits, toNat_countField, toNat_lowField]
  omega

theorem lowField_eq_csr_iff {w : CommandWord} : lowField w = 0#11 ++ csrField w ↔ (lowField w).toNat < 2 ^ 3 := by
  rw [← BitVec.toNat_inj, toNat_append_add, toNat_csrField, toNat_lowField, BitVec.toNat_ofNat]
  omega

theorem lowField_eq_imm11_csr_iff {w : CommandWord} :
    lowField w = imm11Field w ++ csrField w ↔ (lowField w).toNat < 2 ^ 14 := by
  rw [← BitVec.toNat_inj, toNat_append_add, toNat_csrField, toNat_lowField, toNat_imm11Field]
  omega

theorem lowField_eq_hostsOnly_iff {w : CommandWord} :
    lowField w = 0#13 ++ BitVec.ofBool (bit0Field w) ↔ (lowField w).toNat < 2 ^ 1 := by
  rw [← BitVec.toNat_inj, toNat_hostsOnlyBits, toNat_bit0Field, toNat_lowField]
  omega

theorem lowField_eq_budget_iff {w : CommandWord} :
    lowField w = 0#10 ++ prefField w ++ BitVec.ofBool (bit1Field w) ++ BitVec.ofBool (bit0Field w) ↔
      (lowField w).toNat < 2 ^ 4 := by
  rw [← BitVec.toNat_inj, toNat_budgetBits, toNat_bit0Field, toNat_bit1Field, toNat_prefField, toNat_lowField]
  omega

/-! ## Formats C and I -/

theorem packC_eq_packR (op : BitVec 6) (rd rs1 : Reg) (imm11 : BitVec 11) (csr : BitVec 3) :
    packC op rd rs1 imm11 csr = packR op rd rs1 0 0 (imm11 ++ csr) := by
  apply BitVec.eq_of_toNat_eq
  rw [toNat_packC, toNat_packR, toNat_append_add]
  simp only [Fin.val_zero]
  omega

theorem eq_packI_iff {op : BitVec 6} {rd : Reg} {imm23 : BitVec 23} {w : CommandWord} :
    w = packI op rd imm23 ↔ opField w = op ∧ rdField w = rd ∧ imm23Field w = imm23 := by
  constructor
  · rintro rfl
    simp
  · rintro ⟨rfl, rfl, rfl⟩
    apply BitVec.eq_of_toNat_eq
    rw [toNat_packI, toNat_opField, val_rdField, toNat_imm23Field]
    omega

/-! ## Words that fit a layout -/

/-- A register field as a layout encodes it: zero where it is not used (30_encoding.md R71). -/
def keep (used : Bool) (r : Reg) : Reg := if used then r else 0

theorem eq_keep_iff {used : Bool} {r : Reg} : r = keep used r ↔ (used = false → r = 0) := by
  cases used with
  | true => exact iff_of_true rfl fun h => by cases h
  | false => exact ⟨fun h _ => h, fun h => h rfl⟩

/-- A word fits a layout exactly when it is the word of its used fields, the unused ones zero. -/
theorem Layout.fits_iff_eq_encode {l : Layout} {w : CommandWord} {i : Instr} {f : BitVec 14}
    (hi : encode i = packR l.op (keep l.rd (rdField w)) (keep l.rs1 (rs1Field w)) (keep l.rs2 (rs2Field w))
      (keep l.rs3 (rs3Field w)) f)
    (hlow : lowField w = f ↔ (lowField w).toNat < 2 ^ l.low) : l.Fits w ↔ w = encode i := by
  rw [hi, eq_packR_iff, hlow, eq_keep_iff, eq_keep_iff, eq_keep_iff, eq_keep_iff, Layout.fits_iff]

/-! ## Rows -/

/-- A row of the opcode map: its layout, and the command that a word of the row stands for. -/
structure Row extends Layout where
  build : CommandWord → Instr
  fits_iff_eq_encode : ∀ w, toLayout.Fits w ↔ w = encode (build w)

/-- The rows whose operands are rd and rs1. -/
def Row.twoRegs (op : BitVec 6) (c : Reg → Reg → Instr) (hc : ∀ rd rs1, encode (c rd rs1) = packR op rd rs1 0 0 0) :
    Row where
  op := op
  rd := true
  rs1 := true
  rs2 := false
  rs3 := false
  low := 0
  build w := c (rdField w) (rs1Field w)
  fits_iff_eq_encode _ := Layout.fits_iff_eq_encode (hc _ _) lowField_eq_zero_iff

/-- The rows whose operands are rd, rs1 and a block count or amount. -/
def Row.twoRegsCount (op : BitVec 6) (c : Reg → Reg → BitVec 4 → Instr)
    (hc : ∀ rd rs1 n, encode (c rd rs1 n) = packR op rd rs1 0 0 (countBits n)) : Row where
  op := op
  rd := true
  rs1 := true
  rs2 := false
  rs3 := false
  low := 4
  build w := c (rdField w) (rs1Field w) (countField w)
  fits_iff_eq_encode _ := Layout.fits_iff_eq_encode (hc _ _ _) lowField_eq_count_iff

/-- The rows whose operands are rd, rs1 and rs2. -/
def Row.threeRegs (op : BitVec 6) (c : Reg → Reg → Reg → Instr)
    (hc : ∀ rd rs1 rs2, encode (c rd rs1 rs2) = packR op rd rs1 rs2 0 0) : Row where
  op := op
  rd := true
  rs1 := true
  rs2 := true
  rs3 := false
  low := 0
  build w := c (rdField w) (rs1Field w) (rs2Field w)
  fits_iff_eq_encode _ := Layout.fits_iff_eq_encode (hc _ _ _) lowField_eq_zero_iff

/-- The rows whose operands are rd, rs1, rs2 and rs3. -/
def Row.fourRegs (op : BitVec 6) (c : Reg → Reg → Reg → Reg → Instr)
    (hc : ∀ rd rs1 rs2 rs3, encode (c rd rs1 rs2 rs3) = packR op rd rs1 rs2 rs3 0) : Row where
  op := op
  rd := true
  rs1 := true
  rs2 := true
  rs3 := true
  low := 0
  build w := c (rdField w) (rs1Field w) (rs2Field w) (rs3Field w)
  fits_iff_eq_encode _ := Layout.fits_iff_eq_encode (hc _ _ _ _) lowField_eq_zero_iff

/-- LDI's immediate covers all three source register fields and the low field. -/
theorem fits_ldi (w : CommandWord) :
    (Layout.mk 0x01 true true true true 14).Fits w ↔ w = encode (.ldi (rdField w) (imm23Field w)) := by
  rw [encode, eq_packI_iff]
  exact ⟨fun h => ⟨h.op, rfl, rfl⟩, fun ⟨hop, _, _⟩ =>
    ⟨hop, nofun, nofun, nofun, nofun, (lowField w).isLt⟩⟩

/-- The row of an opcode (30_encoding.md R75). -/
def rowOf : Nat → Option Row
  | 0x00 => some ⟨⟨0x00, false, false, false, false, 0⟩, fun _ => .nop,
      fun _ => Layout.fits_iff_eq_encode rfl lowField_eq_zero_iff⟩
  | 0x01 => some ⟨⟨0x01, true, true, true, true, 14⟩, fun w => .ldi (rdField w) (imm23Field w), fits_ldi⟩
  | 0x02 => some ⟨⟨0x02, true, false, false, false, 0⟩, fun w => .wr (rdField w),
      fun _ => Layout.fits_iff_eq_encode rfl lowField_eq_zero_iff⟩
  | 0x03 => some ⟨⟨0x03, false, true, false, false, 0⟩, fun w => .rd (rs1Field w),
      fun _ => Layout.fits_iff_eq_encode rfl lowField_eq_zero_iff⟩
  | 0x04 => some (.twoRegs 0x04 .mov fun _ _ => rfl)
  | 0x05 => some ⟨⟨0x05, true, false, false, false, 3⟩, fun w => .csrr (rdField w) (csrField w),
      fun _ => Layout.fits_iff_eq_encode (packC_eq_packR _ _ _ _ _) lowField_eq_csr_iff⟩
  | 0x06 => some ⟨⟨0x06, false, true, false, false, 3⟩, fun w => .csrw (csrField w) (rs1Field w),
      fun _ => Layout.fits_iff_eq_encode (packC_eq_packR _ _ _ _ _) lowField_eq_csr_iff⟩
  | 0x07 => some ⟨⟨0x07, false, false, false, false, 14⟩, fun w => .csrwi (csrField w) (imm11Field w),
      fun _ => Layout.fits_iff_eq_encode (packC_eq_packR _ _ _ _ _) lowField_eq_imm11_csr_iff⟩
  | 0x08 => some (.twoRegs 0x08 .mask fun _ _ => rfl)
  | 0x09 => some (.twoRegs 0x09 .wild fun _ _ => rfl)
  | 0x0A => some (.twoRegs 0x0A .m2p fun _ _ => rfl)
  | 0x10 => some (.twoRegsCount 0x10 .b2v fun _ _ _ => rfl)
  | 0x11 => some (.twoRegs 0x11 .v2b fun _ _ => rfl)
  | 0x12 => some (.twoRegsCount 0x12 .bshl fun _ _ _ => rfl)
  | 0x13 => some (.twoRegsCount 0x13 .bshr fun _ _ _ => rfl)
  | 0x14 => some (.twoRegsCount 0x14 .brol fun _ _ _ => rfl)
  | 0x15 => some (.twoRegsCount 0x15 .bror fun _ _ _ => rfl)
  | 0x18 => some (.twoRegs 0x18 .clz fun _ _ => rfl)
  | 0x19 => some (.twoRegs 0x19 .clo fun _ _ => rfl)
  | 0x1A => some (.threeRegs 0x1A .lcp fun _ _ _ => rfl)
  | 0x20 => some (.threeRegs 0x20 .net fun _ _ _ => rfl)
  | 0x21 => some (.threeRegs 0x21 .bcast fun _ _ _ => rfl)
  | 0x22 => some (.threeRegs 0x22 .first fun _ _ _ => rfl)
  | 0x23 => some (.threeRegs 0x23 .last fun _ _ _ => rfl)
  | 0x24 => some ⟨⟨0x24, true, false, true, false, 0⟩, fun w => .hcnt (rdField w) (rs2Field w),
      fun _ => Layout.fits_iff_eq_encode rfl lowField_eq_zero_iff⟩
  | 0x25 => some (.threeRegs 0x25 .isnet fun _ _ _ => rfl)
  | 0x26 => some (.threeRegs 0x26 .isbc fun _ _ _ => rfl)
  | 0x27 => some (.fourRegs 0x27 .cont fun _ _ _ _ => rfl)
  | 0x28 => some ⟨⟨0x28, true, true, true, false, 1⟩,
      fun w => .scn (rdField w) (rs1Field w) (rs2Field w) (bit0Field w),
      fun _ => Layout.fits_iff_eq_encode rfl lowField_eq_hostsOnly_iff⟩
  | 0x30 => some (.fourRegs 0x30 .subcfg fun _ _ _ _ => rfl)
  | 0x31 => some (.twoRegs 0x31 .subn fun _ _ => rfl)
  | 0x32 => some ⟨⟨0x32, true, true, true, true, 4⟩,
      fun w => .budg (rdField w) (rs1Field w) (rs2Field w) (rs3Field w) (bit0Field w) (bit1Field w) (prefField w),
      fun _ => Layout.fits_iff_eq_encode rfl lowField_eq_budget_iff⟩
  | _ => none

/-! ## Decoding by rows -/

/-- What the decoder answers once it has found the row (30_encoding.md R76). -/
def Row.decode (r : Row) (w : CommandWord) : Except DecodeError Instr :=
  if w &&& r.mask = r.value then
    if (r.build w).wellFormed then .ok (r.build w) else .error .reservedPref
  else .error .requiredZero

theorem Row.decode_eq_ok_iff {r : Row} {w : CommandWord} {i : Instr} :
    r.decode w = .ok i ↔ r.Fits w ∧ r.build w = i ∧ i.wellFormed = true := by
  rw [Row.decode, ← r.and_mask_eq_value_iff]
  split
  case isTrue hmask =>
    split
    case isTrue hwf =>
      exact ⟨fun h => (by cases h; exact ⟨hmask, rfl, hwf⟩), fun ⟨_, hi, _⟩ => congrArg _ hi⟩
    case isFalse hwf => exact ⟨nofun, fun ⟨_, hi, h⟩ => absurd (hi ▸ h) hwf⟩
  case isFalse hmask => exact ⟨nofun, fun ⟨h, _⟩ => absurd h hmask⟩

/-- BUDG's value check is the well-formedness of its command. -/
theorem checkPref_decodeRow {w mask value : CommandWord} {i : Instr} (h : i.wellFormed = (prefField w != 3#2)) :
    checkPref w (decodeRow w mask value i) = if w &&& mask = value then
      if i.wellFormed then .ok i else .error .reservedPref else .error .requiredZero := by
  rw [checkPref, decodeRow, h]
  by_cases hpref : prefField w = 3#2
  · rw [if_pos hpref, hpref]
    split <;> rfl
  · rw [if_neg hpref, bne_iff_ne.mpr hpref]
    rfl

/-- The decoder looks the row up by the opcode. Each of its arms is that row's; BUDG's, the last but one, has a check of
its own, and the last one answers the reserved opcodes. -/
theorem decode_eq_rowOf (w : CommandWord) :
    decode w = (rowOf (opField w).toNat).elim (.error .reservedOpcode) (·.decode w) := by
  unfold decode
  generalize (opField w).toNat = n
  split
  case h_32 => exact checkPref_decodeRow rfl
  case h_33 => simp [rowOf, *]
  all_goals rfl

theorem decode_eq_ok_iff {w : CommandWord} {i : Instr} : decode w = .ok i ↔
    ∃ r, rowOf (opField w).toNat = some r ∧ r.Fits w ∧ r.build w = i ∧ i.wellFormed = true := by
  rw [decode_eq_rowOf]
  cases rowOf (opField w).toNat with
  | none => exact ⟨nofun, nofun⟩
  | some r => simp [Row.decode_eq_ok_iff]

/-- A row stands under its own opcode. -/
theorem toNat_op_of_rowOf {n : Nat} {r : Row} (h : rowOf n = some r) : r.op.toNat = n := by
  unfold rowOf at h
  split at h <;> cases h <;> rfl

/-! ## Every command has a row -/

theorem Row.build_twoRegs {op : BitVec 6} {c : Reg → Reg → Instr}
    {hc : ∀ rd rs1, encode (c rd rs1) = packR op rd rs1 0 0 0} (rd rs1 : Reg) :
    (Row.twoRegs op c hc).build (encode (c rd rs1)) = c rd rs1 := by simp [Row.twoRegs, hc]

theorem Row.build_twoRegsCount {op : BitVec 6} {c : Reg → Reg → BitVec 4 → Instr}
    {hc : ∀ rd rs1 n, encode (c rd rs1 n) = packR op rd rs1 0 0 (countBits n)} (rd rs1 : Reg) (n : BitVec 4) :
    (Row.twoRegsCount op c hc).build (encode (c rd rs1 n)) = c rd rs1 n := by simp [Row.twoRegsCount, hc]

theorem Row.build_threeRegs {op : BitVec 6} {c : Reg → Reg → Reg → Instr}
    {hc : ∀ rd rs1 rs2, encode (c rd rs1 rs2) = packR op rd rs1 rs2 0 0} (rd rs1 rs2 : Reg) :
    (Row.threeRegs op c hc).build (encode (c rd rs1 rs2)) = c rd rs1 rs2 := by simp [Row.threeRegs, hc]

theorem Row.build_fourRegs {op : BitVec 6} {c : Reg → Reg → Reg → Reg → Instr}
    {hc : ∀ rd rs1 rs2 rs3, encode (c rd rs1 rs2 rs3) = packR op rd rs1 rs2 rs3 0} (rd rs1 rs2 rs3 : Reg) :
    (Row.fourRegs op c hc).build (encode (c rd rs1 rs2 rs3)) = c rd rs1 rs2 rs3 := by simp [Row.fourRegs, hc]

theorem bool_eq_of_toNat_eq {a b : Bool} (h : a.toNat = b.toNat) : a = b := by
  rw [← Bool.ofNat_toNat a, h, Bool.ofNat_toNat]

@[simp] theorem bit0Field_packR_hostsOnly (op : BitVec 6) (rd rs1 rs2 rs3 : Reg) (h : Bool) :
    bit0Field (packR op rd rs1 rs2 rs3 (0#13 ++ BitVec.ofBool h)) = h := by
  have hh := h.toNat_lt
  apply bool_eq_of_toNat_eq
  rw [toNat_bit0Field, toNat_packR, toNat_hostsOnlyBits]
  omega

/-- BUDG's three small fields read as packed (30_encoding.md R72). -/
theorem budgetFields_packR (op : BitVec 6) (rd rs1 rs2 rs3 : Reg) (pref : BitVec 2) (hosts subnets : Bool) :
    let w := packR op rd rs1 rs2 rs3 (0#10 ++ pref ++ BitVec.ofBool hosts ++ BitVec.ofBool subnets)
    bit0Field w = subnets ∧ bit1Field w = hosts ∧ prefField w = pref := by
  have hs := subnets.toNat_lt
  have hh := hosts.toNat_lt
  refine ⟨bool_eq_of_toNat_eq ?_, bool_eq_of_toNat_eq ?_, BitVec.eq_of_toNat_eq ?_⟩
  · rw [toNat_bit0Field, toNat_packR, toNat_budgetBits]
    omega
  · rw [toNat_bit1Field, toNat_packR, toNat_budgetBits]
    omega
  · rw [toNat_prefField, toNat_packR, toNat_budgetBits]
    omega

/-- The row of a command's opcode builds that command from its word. -/
theorem exists_row (i : Instr) : ∃ r, rowOf i.opcode.toNat = some r ∧ r.build (encode i) = i := by
  cases i with
  | nop => exact ⟨_, rfl, rfl⟩
  | ldi rd imm23 => exact ⟨_, rfl, by simp [encode]⟩
  | mov rd rs1 | mask rd rs1 | wild rd rs1 | m2p rd rs1 | v2b rd rs1 | clz rd rs1 | clo rd rs1 | subn rd rs1 =>
    exact ⟨_, rfl, Row.build_twoRegs rd rs1⟩
  | b2v rd rs1 n | bshl rd rs1 n | bshr rd rs1 n | brol rd rs1 n | bror rd rs1 n =>
    exact ⟨_, rfl, Row.build_twoRegsCount rd rs1 n⟩
  | lcp rd rs1 rs2 | net rd rs1 rs2 | bcast rd rs1 rs2 | first rd rs1 rs2 | last rd rs1 rs2 | isnet rd rs1 rs2
  | isbc rd rs1 rs2 => exact ⟨_, rfl, Row.build_threeRegs rd rs1 rs2⟩
  | cont rd rs1 rs2 rs3 | subcfg rd rs1 rs2 rs3 => exact ⟨_, rfl, Row.build_fourRegs rd rs1 rs2 rs3⟩
  | wr | rd | csrr | csrw | csrwi | hcnt => exact ⟨_, rfl, by simp [encode]⟩
  | scn => exact ⟨_, rfl, by simp [encode]⟩
  | budg rd rs1 rs2 rs3 => exact ⟨_, rfl, by simp [encode, budgetFields_packR]⟩

/-! ## The encoding -/

/-- A row that builds a command from its word is one that the word fits. -/
theorem Row.fits_encode {r : Row} {i : Instr} (h : r.build (encode i) = i) : r.Fits (encode i) :=
  (r.fits_iff_eq_encode _).mpr (by rw [h])

theorem opField_encode (i : Instr) : opField (encode i) = i.opcode := by
  obtain ⟨r, hrow, hbuild⟩ := exists_row i
  rw [(Row.fits_encode hbuild).op, ← BitVec.toNat_inj, toNat_op_of_rowOf hrow]

/-- A command is well formed exactly when its word is not BUDG's with PREF = 3 (30_encoding.md R76). -/
theorem wellFormed_iff_encode (i : Instr) :
    i.wellFormed = true ↔ ¬(opField (encode i) = 0x32#6 ∧ prefField (encode i) = 3#2) := by
  rw [opField_encode]
  cases i with
  | budg => simp [Instr.wellFormed, Instr.opcode, encode, budgetFields_packR]
  | _ => exact iff_of_true rfl fun h => absurd h.1 (by simp [Instr.opcode])

/-! ## The opcode map -/

/-- The masks and matches of 30_encoding.md R75 are those of the rows. -/
theorem opcodeMap_eq :
    Safety.opcodeMap = ((List.range 64).filterMap rowOf).map fun r => (r.mask, r.value) := rfl

theorem mem_opcodeMap_iff {row : CommandWord × CommandWord} :
    row ∈ Safety.opcodeMap ↔ ∃ r, (∃ n < 64, rowOf n = some r) ∧ (r.mask, r.value) = row := by
  simp [opcodeMap_eq]

/-- A word matches some row exactly when it fits the row of its opcode. -/
theorem exists_opcodeMap_iff (w : CommandWord) : (∃ row ∈ Safety.opcodeMap, w &&& row.1 = row.2) ↔
    ∃ r, rowOf (opField w).toNat = some r ∧ r.Fits w := by
  constructor
  · rintro ⟨_, hmem, hmask⟩
    obtain ⟨r, ⟨n, _, hrow⟩, rfl⟩ := mem_opcodeMap_iff.mp hmem
    have hfits := (r.and_mask_eq_value_iff w).mp hmask
    rw [hfits.op, toNat_op_of_rowOf hrow]
    exact ⟨r, hrow, hfits⟩
  · rintro ⟨r, hrow, hfits⟩
    exact ⟨_, mem_opcodeMap_iff.mpr ⟨r, ⟨_, (opField w).isLt, hrow⟩, rfl⟩, (r.and_mask_eq_value_iff w).mpr hfits⟩

/-! ## The obligations -/

/-- Settles O14: the word of a command fits the row of its opcode, and that row builds the command again. -/
theorem encodedCommandDecodesToItself : Obligations.EncodedCommandDecodesToItself := by
  intro i hwf
  obtain ⟨r, hrow, hbuild⟩ := exists_row i
  rw [← opField_encode] at hrow
  exact decode_eq_ok_iff.mpr ⟨r, hrow, Row.fits_encode hbuild, hbuild, hwf⟩

/-- Settles O15: a word that fits a row is the encoding of the command that the row builds. -/
theorem decodedWordIsTheEncoding : Obligations.DecodedWordIsTheEncoding := by
  intro w i hd
  obtain ⟨r, _, hfits, rfl, hwf⟩ := decode_eq_ok_iff.mp hd
  exact ⟨hwf, ((r.fits_iff_eq_encode w).mp hfits).symm⟩

/-- Settles O16: both sides say that the word fits the row of its opcode, and the command of that row is well formed
exactly when the word is not BUDG with PREF = 3. -/
theorem legalWordsMatchTheOpcodeMap : Obligations.LegalWordsMatchTheOpcodeMap := by
  intro w
  rw [exists_opcodeMap_iff]
  constructor
  · rintro ⟨i, hd⟩
    obtain ⟨r, hrow, hfits, rfl, hwf⟩ := decode_eq_ok_iff.mp hd
    rw [wellFormed_iff_encode, ← (r.fits_iff_eq_encode w).mp hfits] at hwf
    exact ⟨⟨r, hrow, hfits⟩, hwf⟩
  · rintro ⟨⟨r, hrow, hfits⟩, hpref⟩
    refine ⟨r.build w, decode_eq_ok_iff.mpr ⟨r, hrow, hfits, rfl, ?_⟩⟩
    rw [wellFormed_iff_encode, ← (r.fits_iff_eq_encode w).mp hfits]
    exact hpref

end Sys2Proof
end

section
/-! The errors that come before any operand is read (60_exceptions.md R242, steps 1 and 2): IllegalError of a word that
is no command (30_encoding.md R76, R77) and UnsupportedError of a family-1-only command in family 2 (R88). -/

namespace Sys2Proof.Safety

open Sys2Proof.Machine

/-! ## Family 2 refuses the commands of family 1 -/

theorem addressAndPrefix_unsupported {s : State} {rs1 rs2 : Reg} (hf : s.fam = .family2) :
    s.addressAndPrefix rs1 rs2 = .error .unsupported :=
  bind_eq_error (State.familyOneOnly_error hf)

/-- BUDG's PREF is checked before the family, so it has to be a legal one. -/
theorem budg_raises_unsupported {s : State} {rd rs1 rs2 rs3 : Reg} {sub hst : Bool} {pref : BitVec 2}
    (hf : s.fam = .family2) (hp : pref ≠ 3#2) : Raises (.budg rd rs1 rs2 rs3 sub hst pref) s .unsupported := by
  obtain ⟨_, hq⟩ := preferenceOf_ok hp
  exact raises_of rfl (bind_eq_error_of_ok hq (bind_eq_error (State.familyOneOnly_error hf)))

/-- The family check comes before every operand (60_exceptions.md R242). -/
theorem raises_unsupported {i : Instr} {s : State} (hwf : i.wellFormed = true) (hi : familyOneOnlyCommand i = true)
    (hf : s.fam = .family2) : Raises i s .unsupported := by
  cases i with
  | m2p | hcnt | scn | subn => exact raises_of_first rfl (State.familyOneOnly_error hf)
  | net | bcast | first | last | isnet | isbc | cont => exact raises_of_first rfl (addressAndPrefix_unsupported hf)
  | subcfg => exact subcfg_raises (bind_eq_error (addressAndPrefix_unsupported hf))
  | budg => exact budg_raises_unsupported hf (bne_iff_ne.mp hwf)
  | _ => cases hi

/-! ## Nothing else raises UnsupportedError -/

theorem eq_unsupported_of_number {e : ErrorCode} (h : e.number = 5) : e = .unsupported := by
  cases e with
  | unsupported => rfl
  | range | format | usage | illegal | sequence => exact absurd h (by decide)

/-- A command that answers with status 5 has raised an error, and it was UnsupportedError. -/
theorem ends_of_status_five {i : Instr} {s t : State} {r : Response} (he : Ends i s t) (hr : t.rsp = some r)
    (h5 : r.status = 5) : familyOneOnlyCommand i = true ∧ s.fam = .family2 := by
  have hne : (0 : BitVec 4) ≠ 5 := by decide
  cases he with
  | wrote | answered | wroteCfg | wroteStatus | configured => cases hr; exact absurd h5 hne
  | raised e hmay =>
    cases hr
    obtain ⟨_, hunsupported⟩ := hmay
    exact hunsupported (eq_unsupported_of_number h5)

/-! ## The obligations -/

/-- Settles O24: the family check precedes every operand, and of the ways a command ends only an error has status 5. -/
theorem familySupport : Obligations.FamilySupport :=
  ⟨fun _ _ hwf hi hf => raises_unsupported hwf hi hf, fun _ _ _ _ hex hr h5 => ends_of_status_five (exec_inv hex) hr h5⟩

/-- Settles O5: the edge that would execute the word raises IllegalError instead. -/
theorem illegalWordRaisesIllegalError : Obligations.IllegalWordRaisesIllegalError := by
  intro s hn hb hr hw hill
  refine ⟨s.afterSample.raise .illegal, ?_, State.raised_raise _ _⟩
  rw [step_busy hn hr hb, advance_zero (s := s.afterSample) hw, runCommand_illegal (s := s.afterSample) hill]

end Sys2Proof.Safety
end

section
/-! Control and data movement (40_control.md): the example words (R101, R107 and the like), the commands that only move a
value (R100 to R104), and the fields of the control registers as CSRR reads them (R105; 10_state.md R26 to R36). -/

namespace Sys2Proof.Safety

open Sys2Proof.Machine

/-! ## Example words -/

theorem decode_of_encode_eq {w : CommandWord} {i : Instr} (h : encode i = w) (hwf : i.wellFormed = true) :
    decode w = .ok i :=
  h ▸ encodedCommandDecodesToItself i hwf

theorem toOption_decode_of_error {w : CommandWord} {e : DecodeError} (h : decode w = .error e) :
    (decode w).toOption = none :=
  congrArg Except.toOption h

/-! ## The control registers as read -/

/-- CFG: FAM in bit 0 (10_state.md R31). -/
theorem readCsr_cfg (s : State) :
    ∃ v : Word, s.readCsr 0 = .ok v ∧ v.toNat = if s.fam = .family2 then 1 else 0 := by
  refine ⟨_, rfl, ?_⟩
  cases s.fam <;> rfl

/-- STATUS: ERR in bit 0, ENUMV in bit 1, CODE in bits 7:4, EOP in bits 13:8 (10_state.md R32). -/
theorem toNat_statusWord (s : State) :
    s.statusWord.toNat = s.err.toNat + 2 * s.enumValid.toNat + 16 * s.code.toNat + 256 * s.eop.toNat := by
  simp only [State.statusWord, toNat_append_add, BitVec.toNat_ofBool, BitVec.toNat_ofNat]
  omega

/-- PARAMS: M in bits 7:0, BB in bits 15:8, NB in bits 19:16 (10_state.md R36). -/
theorem readCsr_params (s : State) :
    ∃ v : Word, s.readCsr 2 = .ok v ∧ v.toNat = if s.fam = .family2 then 0x81080 else 0x40820 := by
  refine ⟨_, rfl, ?_⟩
  cases s.fam <;> rfl

/-- ENUMCFG: ENUM_P in bits 7:0, ENUM_T in bits 15:8, ENUM_VALID in bit 16 (10_state.md R35). -/
theorem readCsr_enumcfg (s : State) :
    ∃ v : Word, s.readCsr 3 = .ok v ∧
      v.toNat = s.enumP.toNat + 256 * s.enumT.toNat + 65536 * s.enumValid.toNat := by
  refine ⟨_, rfl, ?_⟩
  simp only [toNat_append_add, BitVec.toNat_ofBool, BitVec.toNat_ofNat]
  omega

/-! ## The obligations -/

/-- Settles O17: each legal word is the encoding of its command, and each illegal one has the error that the decode error
table gives as its cause. -/
theorem wordsOfTheExamplesDecode : Obligations.WordsOfTheExamplesDecode :=
  ⟨decode_of_encode_eq rfl rfl, decode_of_encode_eq rfl rfl, decode_of_encode_eq rfl rfl, decode_of_encode_eq rfl rfl,
    decode_of_encode_eq rfl rfl, decode_of_encode_eq rfl rfl, decode_of_encode_eq rfl rfl, decode_of_encode_eq rfl rfl,
    decode_of_encode_eq rfl rfl, decode_of_encode_eq rfl rfl, decode_of_encode_eq rfl rfl,
    toOption_decode_of_error (e := .requiredZero) rfl, toOption_decode_of_error (e := .reservedOpcode) rfl,
    toOption_decode_of_error (e := .requiredZero) rfl, toOption_decode_of_error (e := .reservedPref) rfl⟩

/-- Settles O27: both commands only respond. -/
theorem nopAndRdChangeNoRegister : Obligations.NopAndRdChangeNoRegister := by
  intro s
  exact ⟨⟨_, rfl, s.answersOnly_respond 0⟩, fun rs1 => ⟨_, rfl, s.answersOnly_respond (s.reg rs1)⟩⟩

/-- Settles O28: each command succeeds with its value; LDI's zero extension is the immediate as a number. -/
theorem loadsAndMovesWriteTheirValue : Obligations.LoadsAndMovesWriteTheirValue := by
  intro s rd rs1
  refine ⟨fun imm => ?ldi, ⟨_, rfl, s.writesOnly_succeed rd s.cmdData⟩, ⟨_, rfl, s.writesOnly_succeed rd (s.reg rs1)⟩⟩
  rw [BitVec.ofNat_toNat]
  exact ⟨_, rfl, s.writesOnly_succeed rd (imm.zeroExtend 128)⟩

/-- Settles O29: CSRR ends as its read of the control register does, and the read succeeds with the word whose
fields the lemmas above give. -/
theorem csrrReadsTheControlRegisters : Obligations.CsrrReadsTheControlRegisters := by
  intro s rd
  obtain ⟨cfg, hcfg, hcfgFields⟩ := readCsr_cfg s
  obtain ⟨params, hparams, hparamsFields⟩ := readCsr_params s
  obtain ⟨enumcfg, henumcfg, henumcfgFields⟩ := readCsr_enumcfg s
  exact ⟨cfg, s.statusWord, params, enumcfg, yields_of rfl hcfg, hcfgFields,
    yields_of rfl rfl, toNat_statusWord s, yields_of rfl hparams, hparamsFields,
    yields_of rfl henumcfg, henumcfgFields, yields_of rfl rfl⟩

end Sys2Proof.Safety
end

section
/-! Netmasks (41_mask.md R120 to R122): MASK and WILD give complementary vectors, and M2P accepts exactly the netmasks. -/

namespace Sys2Proof.Safety

open Sys2Proof.Machine

/-! ## The netmask and the wildcard of one prefix -/

/-- The bits below M - p are the wildcard's, those from M - p to M - 1 the netmask's. -/
theorem netmask_xor_wildcard (f : Family) {p : Nat} (h : p ≤ maxBits f) :
    netmask f p ^^^ wildcard f p = ones (maxBits f) := by
  apply BitVec.eq_of_getLsbD_eq
  intro i _
  rw [BitVec.getLsbD_xor, getLsbD_netmask f h, getLsbD_wildcard, getLsbD_ones (maxBits_le f)]
  by_cases hhost : i < maxBits f - p
  · simp [hhost, Nat.not_le.mpr hhost, hhost.trans_le (Nat.sub_le _ _)]
  · simp [hhost, Nat.not_lt.mp hhost]

theorem netmask_and_wildcard (f : Family) {p : Nat} (h : p ≤ maxBits f) : netmask f p &&& wildcard f p = 0#128 := by
  apply BitVec.eq_of_getLsbD_eq
  intro i _
  rw [BitVec.getLsbD_and, getLsbD_netmask f h, getLsbD_wildcard, BitVec.getLsbD_zero]
  by_cases hhost : i < maxBits f - p
  · simp [Nat.not_le.mpr hhost]
  · simp [hhost]

/-- A well-formed vector is the netmask of p exactly when its bit string is p ones and then zeros. -/
theorem bitString_eq_replicate_iff {f : Family} {v : Word} {p : Nat} (hv : v.toNat < 2 ^ maxBits f)
    (hp : p ≤ maxBits f) :
    bitString f v = List.replicate p true ++ List.replicate (maxBits f - p) false ↔ v = netmask f p := by
  rw [← bitString_netmask f hp]
  exact ⟨eq_of_bitString hv (netmask_lt f hp), congrArg (bitString f)⟩

/-! ## What the commands answer -/

theorem mask_yields {s : State} {rs1 : Reg} {p : Nat} (h : HoldsPrefix s rs1 p) (rd : Reg) :
    Yields (.mask rd rs1) s rd (netmask s.fam p) :=
  yields_of rfl (by rw [h.pfx, except_bind_ok, except_pure])

theorem wild_yields {s : State} {rs1 : Reg} {p : Nat} (h : HoldsPrefix s rs1 p) (rd : Reg) :
    Yields (.wild rd rs1) s rd (wildcard s.fam p) :=
  yields_of rfl (by rw [h.pfx, except_bind_ok, except_pure])

theorem m2p_yields {s : State} {rs1 : Reg} {p : Nat} (hf : s.fam = .family1) (hp : p ≤ maxBits s.fam)
    (h : s.reg rs1 = netmask s.fam p) (rd : Reg) : Yields (.m2p rd rs1) s rd (BitVec.ofNat 128 p) := by
  have hvec : s.vec rs1 = .ok (netmask s.fam p) := h ▸ vecOf_ok (h ▸ netmask_lt s.fam hp)
  exact yields_of rfl (by
    rw [State.familyOneOnly_ok hf, except_bind_ok, hvec, except_bind_ok, netmaskPrefix_netmask hp, except_bind_ok,
      except_pure])

/-- The validator's candidate, the count of leading ones, is at most M, so no other prefix needs to be tried. -/
theorem netmaskPrefix_error {f : Family} {v : Word} (h : ∀ p, p ≤ maxBits f → v ≠ netmask f p) :
    netmaskPrefix f v = .error .format :=
  if_neg (h (clo f v) (clo_le f v))

theorem m2p_raises {s : State} {rs1 : Reg} {v : Nat} (hf : s.fam = .family1) (hv : HoldsVector s rs1 v)
    (h : ∀ p, p ≤ maxBits s.fam → s.reg rs1 ≠ netmask s.fam p) (rd : Reg) : Raises (.m2p rd rs1) s .format :=
  raises_of rfl (bind_eq_error_of_ok (State.familyOneOnly_ok hf)
    (bind_eq_error_of_ok hv.vec (bind_eq_error (netmaskPrefix_error h))))

/-- A command that yields a value leaves the state that its execution answers with. -/
theorem Yields.writesOnly {i : Instr} {s t : State} {rd : Reg} {v : Word} (h : Yields i s rd v)
    (ht : exec i s = .next t) : WritesOnly rd v s t := by
  obtain ⟨u, hu, hw⟩ := h
  cases ht.symm.trans hu
  exact hw

/-! ## The obligations -/

/-- Settles O33: the two values are the netmask and the wildcard of p, whose bits complement each other. -/
theorem maskAndWildSpellTheirBits : Obligations.MaskAndWildSpellTheirBits := by
  intro s rd rs1 p h
  have hxor : (netmask s.fam p ^^^ wildcard s.fam p).toNat = 2 ^ maxBits s.fam - 1 := by
    rw [netmask_xor_wildcard s.fam h.1, toNat_ones (maxBits_le s.fam)]
  exact ⟨netmask s.fam p, wildcard s.fam p,
    mask_yields h rd, netmask_lt s.fam h.1, bitString_netmask s.fam h.1,
    wild_yields h rd, wildcard_lt s.fam p, bitString_wildcard s.fam h.1,
    hxor, netmask_and_wildcard s.fam h.1⟩

/-- Settles O34: the bit strings of the statement are those of the netmasks, and M2P accepts exactly these. -/
theorem m2pValidatesTheNetmask : Obligations.M2pValidatesTheNetmask := by
  intro s rd rs1 v hf hv
  have hM : maxBits s.fam = 32 := by rw [hf, maxBits]
  rw [← hf, ← hM]
  refine ⟨fun p hp hbits => ?netmask, fun hbits => ?other⟩
  case netmask => exact m2p_yields hf hp ((bitString_eq_replicate_iff hv.lt hp).1 hbits) rd
  case other => exact m2p_raises hf hv (fun p hp h => hbits p hp ((bitString_eq_replicate_iff hv.lt hp).2 h)) rd

/-- Settles O35: the state after MASK holds the netmask of p in rd and is still in family 1. -/
theorem m2pUndoesMask : Obligations.M2pUndoesMask := by
  intro s t rd rs1 rd' p hf h ht
  have hmask := (mask_yields h rd).writesOnly ht
  have hreg : t.reg rd = netmask t.fam p := by rw [hmask.result, hmask.fam]
  exact m2p_yields (hmask.fam.trans hf) (hmask.fam ▸ h.1) hreg rd'

end Sys2Proof.Safety
end

section
/-! The block codec, block shifts and block rotates (42_codec.md R140 to R149): B2V and V2B undo each other, a shift is a
multiplication or a division, and a rotate turns the bit string. -/

namespace Sys2Proof.Safety

open Sys2Proof.Machine

/-! ## B2V and V2B -/

/-- A command that computes g of its one vector operand yields it. -/
theorem yields_of_vector {i : Instr} {s : State} {rd rs1 : Reg} {v : Nat} (g : Word → Word)
    (hexec : exec i s = s.finish rd (s.vec rs1 >>= fun x => pure (g x))) (h : HoldsVector s rs1 v) :
    Yields i s rd (g (s.reg rs1)) :=
  yields_of hexec (by rw [h.vec, except_bind_ok, except_pure])

theorem blocksToBits_wrongCount {f : Family} {nb : Nat} (h : nb ≠ blockCount f) (lanes : Word) :
    blocksToBits f nb lanes = .error .format :=
  if_pos h

theorem b2v_yields {s : State} {rs1 : Reg} {nb : BitVec 4} {v : Word}
    (h : blocksToBits s.fam nb.toNat (s.reg rs1) = .ok v) (rd : Reg) : Yields (.b2v rd rs1 nb) s rd v :=
  yields_of rfl h

theorem b2v_raises {s : State} {rs1 : Reg} {nb : BitVec 4} {e : ErrorCode}
    (h : blocksToBits s.fam nb.toNat (s.reg rs1) = .error e) (rd : Reg) : Raises (.b2v rd rs1 nb) s e :=
  raises_of rfl h

/-- B2V checks the block count first (R143). -/
theorem b2v_raises_wrongCount {s : State} {nb : BitVec 4} (h : nb.toNat ≠ blockCount s.fam) (rd rs1 : Reg) :
    Raises (.b2v rd rs1 nb) s .format :=
  b2v_raises (blocksToBits_wrongCount h _) rd

theorem v2b_yields {s : State} {rs1 : Reg} {v : Nat} (h : HoldsVector s rs1 v) (rd : Reg) :
    Yields (.v2b rd rs1) s rd (bitsToBlocks s.fam (s.reg rs1)) :=
  yields_of_vector (bitsToBlocks s.fam) rfl h

/-- In family 2 every register value is an M-bit vector. -/
theorem holdsVector_family2 {s : State} (hf : s.fam = .family2) (r : Reg) : HoldsVector s r (s.reg r).toNat :=
  ⟨by rw [hf]; exact (s.reg r).isLt, rfl⟩

/-! ## The codec undoes itself (R149) -/

/-- Joining the lanes that a vector was split into gives the vector. -/
theorem blocksToBits_bitsToBlocks {f : Family} {v : Word} (hv : v.toNat < 2 ^ maxBits f) :
    blocksToBits f (blockCount f) (bitsToBlocks f v) = .ok v := by
  cases f with
  | family1 =>
    obtain ⟨a, b, c, d, ha, hb, hc, hd, hblocks⟩ := exists_blocks hv
    have hlanes : (bitsToBlocks .family1 v).toNat = decimalLanes a b c d := by
      have := decimalLanes_lt ha hb hc hd
      rw [bitsToBlocks_decimal ha hb hc hd hblocks, BitVec.toNat_ofNat, Nat.mod_eq_of_lt (by omega)]
    rw [blockCount, blocksToBits_decimal ha hb hc hd hlanes, ← eq_ofNat hblocks]
  | family2 => rw [blockCount, bitsToBlocks_hexadecimal, blocksToBits_hexadecimal]

/-- The lane vectors of family 1 that join are the four decimal lanes. -/
theorem exists_decimalLanes {lanes v : Word} (h : blocksToBits .family1 4 lanes = .ok v) :
    ∃ a b c d, a < 256 ∧ b < 256 ∧ c < 256 ∧ d < 256 ∧ lanes.toNat = decimalLanes a b c d := by
  by_contra hnone
  rw [blocksToBits_decimal_error fun a b c d ha hb hc hd e => hnone ⟨a, b, c, d, ha, hb, hc, hd, e⟩] at h
  cases h

/-- Lanes that join give a well-formed vector, and splitting it gives the lanes back. -/
theorem bitsToBlocks_of_blocksToBits {f : Family} {lanes v : Word}
    (h : blocksToBits f (blockCount f) lanes = .ok v) : v.toNat < 2 ^ maxBits f ∧ bitsToBlocks f v = lanes := by
  cases f with
  | family1 =>
    obtain ⟨a, b, c, d, ha, hb, hc, hd, hlanes⟩ := exists_decimalLanes h
    cases h.symm.trans (blocksToBits_decimal ha hb hc hd hlanes)
    have hv : (BitVec.ofNat 128 (a * 2 ^ 24 + b * 2 ^ 16 + c * 2 ^ 8 + d)).toNat =
        a * 2 ^ 24 + b * 2 ^ 16 + c * 2 ^ 8 + d := by
      rw [BitVec.toNat_ofNat, Nat.mod_eq_of_lt (by omega)]
    exact ⟨by rw [hv, maxBits]; omega, by rw [bitsToBlocks_decimal ha hb hc hd hv, ← eq_ofNat hlanes]⟩
  | family2 =>
    cases h.symm.trans (blocksToBits_hexadecimal lanes)
    exact ⟨lanes.isLt, bitsToBlocks_hexadecimal lanes⟩

/-- A computing command that answers with status 0 has computed a value. -/
theorem ok_of_status_zero {s t : State} {rd : Reg} {x : Except ErrorCode Word} {r : Response}
    (ht : s.finish rd x = .next t) (hr : t.rsp = some r) (h0 : r.status = 0) : ∃ v, x = .ok v := by
  obtain ⟨v, hx, _⟩ | ⟨e, _, hraise⟩ := s.finish_cases rd x
  · exact ⟨v, hx⟩
  · cases ht.symm.trans hraise
    exact absurd h0 (raise_rsp_status_ne_zero hr)

/-! ## Shifts as arithmetic (R145, R146) -/

theorem toNat_blockShiftLeft (f : Family) (k : Nat) (v : Word) :
    (blockShiftLeft f k v).toNat = v.toNat * 2 ^ (k * blockBits f) % 2 ^ maxBits f := by
  rw [blockShiftLeft, toNat_and_ones, BitVec.toNat_shiftLeft, Nat.shiftLeft_eq,
    Nat.mod_mod_of_dvd _ (Nat.pow_dvd_pow 2 (maxBits_le f))]

theorem toNat_blockShiftRight (f : Family) (k : Nat) (v : Word) :
    (blockShiftRight f k v).toNat = v.toNat / 2 ^ (k * blockBits f) := by
  rw [blockShiftRight, BitVec.toNat_ushiftRight, Nat.shiftRight_eq_div_pow]

theorem maxBits_le_of_blockCount_le {f : Family} {k : Nat} (h : blockCount f ≤ k) : maxBits f ≤ k * blockBits f :=
  blockCount_mul_blockBits f ▸ Nat.mul_le_mul_right _ h

/-- NB blocks to the left, 2^M divides the product. -/
theorem blockShiftLeft_eq_zero {f : Family} {k : Nat} (h : blockCount f ≤ k) (v : Word) : blockShiftLeft f k v = 0 := by
  apply BitVec.eq_of_toNat_eq
  rw [toNat_blockShiftLeft]
  exact Nat.mod_eq_zero_of_dvd ((Nat.pow_dvd_pow 2 (maxBits_le_of_blockCount_le h)).mul_left _)

/-- NB blocks to the right, the divisor exceeds every M-bit vector. -/
theorem blockShiftRight_eq_zero {f : Family} {k : Nat} (h : blockCount f ≤ k) {v : Word}
    (hv : v.toNat < 2 ^ maxBits f) : blockShiftRight f k v = 0 := by
  apply BitVec.eq_of_toNat_eq
  rw [toNat_blockShiftRight]
  exact Nat.div_eq_of_lt (hv.trans_le (Nat.pow_le_pow_right (by decide) (maxBits_le_of_blockCount_le h)))

/-! ## Rotates as turns of the bit string (R147, R148) -/

/-- Turning by k blocks is turning by the amount of the rotate: the string has NB blocks. -/
theorem rotate_bitString_rotateBits (f : Family) (v : Word) (k : Nat) :
    (bitString f v).rotate (rotateBits f k) = (bitString f v).rotate (k * blockBits f) := by
  rw [rotateBits_eq, ← length_bitString f v, List.rotate_mod]

/-- One bit string is another turned left by n places when each bit comes from the one n places below it, or from the
top n bits. -/
theorem bitString_eq_rotate {f : Family} {v w : Word} {n : Nat} (hn : n < maxBits f)
    (h : ∀ i < maxBits f, w.getLsbD i = v.getLsbD (if i < n then maxBits f + i - n else i - n)) :
    bitString f w = (bitString f v).rotate n := by
  apply List.ext_getElem
  · simp
  intro i hi _
  rw [length_bitString] at hi
  rw [List.getElem_rotate, getElem_bitString, getElem_bitString, length_bitString, h _ (by omega)]
  congr 1
  by_cases hwrap : i + n < maxBits f
  · rw [Nat.mod_eq_of_lt hwrap, if_neg (by omega)]
    omega
  · rw [Nat.mod_eq_sub_mod (Nat.not_lt.mp hwrap), Nat.mod_eq_of_lt (by omega), if_pos (by omega)]
    omega

theorem bitString_blockRotateLeft {f : Family} {v : Word} (hv : v.toNat < 2 ^ maxBits f) (k : Nat) :
    bitString f (blockRotateLeft f k v) = (bitString f v).rotate (k * blockBits f) := by
  rw [← rotate_bitString_rotateBits]
  exact bitString_eq_rotate (rotateBits_lt f k) fun _ hi => getLsbD_blockRotateLeft hv hi

/-- A rotate right is undone by turning the bit string left. -/
theorem rotate_bitString_blockRotateRight {f : Family} {v : Word} (hv : v.toNat < 2 ^ maxBits f) (k : Nat) :
    (bitString f (blockRotateRight f k v)).rotate (k * blockBits f) = bitString f v := by
  have hs := rotateBits_lt f k
  rw [← rotate_bitString_rotateBits]
  refine (bitString_eq_rotate hs fun i hi => ?_).symm
  by_cases hwrap : i < rotateBits f k
  · rw [if_pos hwrap, getLsbD_blockRotateRight hv (by omega), if_neg (by omega)]
    congr 1
    omega
  · rw [if_neg hwrap, getLsbD_blockRotateRight hv (by omega), if_pos (by omega)]
    congr 1
    omega

theorem and_ones_lt (f : Family) (v : Word) : (v &&& ones (maxBits f)).toNat < 2 ^ maxBits f := by
  rw [toNat_and_ones]
  exact Nat.mod_lt _ (Nat.two_pow_pos _)

theorem blockRotateLeft_lt (f : Family) (k : Nat) (v : Word) : (blockRotateLeft f k v).toNat < 2 ^ maxBits f :=
  and_ones_lt f _

theorem blockRotateRight_lt (f : Family) (k : Nat) (v : Word) : (blockRotateRight f k v).toNat < 2 ^ maxBits f :=
  and_ones_lt f _

/-! ## The obligations -/

/-- Settles O36: with the block count of the family B2V joins the lanes, which succeeds exactly on four decimal ones. -/
theorem b2vJoinsDecimalBlocks : Obligations.B2vJoinsDecimalBlocks := by
  intro s rd rs1 nb hf
  refine ⟨fun hnb a b c d ha hb hc hd hlanes => ?decimal, fun hbad => ?refused⟩
  case decimal =>
    subst hnb
    exact b2v_yields (hf ▸ blocksToBits_decimal ha hb hc hd hlanes) rd
  case refused =>
    by_cases hnb : nb = 4
    · subst hnb
      exact b2v_raises (hf ▸ blocksToBits_decimal_error (hbad.resolve_left (not_not_intro rfl))) rd
    · exact b2v_raises_wrongCount (hf ▸ fun h => hnb (BitVec.eq_of_toNat_eq h)) rd rs1

/-- Settles O37: hexadecimal lanes join to the number they spell. -/
theorem b2vJoinsHexadecimalBlocks : Obligations.B2vJoinsHexadecimalBlocks := by
  intro s rd rs1 nb hf
  refine ⟨fun hnb => ?joined, fun hnb => ?refused⟩
  case joined =>
    subst hnb
    exact b2v_yields (hf ▸ blocksToBits_hexadecimal (s.reg rs1)) rd
  case refused => exact b2v_raises_wrongCount (hf ▸ fun h => hnb (BitVec.eq_of_toNat_eq h)) rd rs1

/-- Settles O38: V2B yields the lanes of its vector, which are known in each family. -/
theorem v2bSplitsIntoLanes : Obligations.V2bSplitsIntoLanes := by
  intro s rd rs1
  refine ⟨fun hf a b c d ha hb hc hd hv => ?decimal, fun hf => ?hexadecimal⟩
  case decimal =>
    have h : HoldsVector s rs1 (a * 2 ^ 24 + b * 2 ^ 16 + c * 2 ^ 8 + d) := ⟨by rw [hf, maxBits]; omega, hv⟩
    rw [← bitsToBlocks_decimal ha hb hc hd hv, ← hf]
    exact v2b_yields h rd
  case hexadecimal =>
    have h := v2b_yields (holdsVector_family2 hf rs1) rd
    rwa [hf, bitsToBlocks_hexadecimal] at h

/-- Settles O39: the state after the first command is in the same family and holds its result in rd, and the two
conversions undo each other. -/
theorem codecRoundTrips : Obligations.CodecRoundTrips := by
  intro s t rd rs1 rd' nb hnb
  refine ⟨fun v hv ht => ?splitThenJoin, fun r ht hr h0 => ?joinThenSplit⟩
  case splitThenJoin =>
    have hw := (v2b_yields hv rd).writesOnly ht
    exact b2v_yields (by rw [hw.fam, hw.result, hnb, blocksToBits_bitsToBlocks hv.lt]) rd'
  case joinThenSplit =>
    obtain ⟨v, hjoin⟩ := ok_of_status_zero ht hr h0
    have hw := (b2v_yields hjoin rd).writesOnly ht
    obtain ⟨hlt, hsplit⟩ := bitsToBlocks_of_blocksToBits (hnb ▸ hjoin)
    have hsplits := v2b_yields (s := t) (rs1 := rd) ⟨by rw [hw.fam]; exact hlt, congrArg BitVec.toNat hw.result⟩ rd'
    rwa [hw.fam, hw.result, hsplit] at hsplits

/-- Settles O40: the two shifts as arithmetic. -/
theorem blockShiftsMoveWholeBlocks : Obligations.BlockShiftsMoveWholeBlocks := by
  intro s rd rs1 k v h
  rw [← h.2]
  exact ⟨_, _, yields_of_vector (blockShiftLeft s.fam k.toNat) rfl h, toNat_blockShiftLeft s.fam k.toNat _,
    yields_of_vector (blockShiftRight s.fam k.toNat) rfl h, toNat_blockShiftRight s.fam k.toNat _,
    fun hk => ⟨blockShiftLeft_eq_zero hk _, blockShiftRight_eq_zero hk h.lt⟩⟩

/-- Settles O41: the two rotates as turns of the bit string. -/
theorem blockRotatesTurnTheBitString : Obligations.BlockRotatesTurnTheBitString := by
  intro s rd rs1 k v h
  exact ⟨_, _, yields_of_vector (blockRotateLeft s.fam k.toNat) rfl h, blockRotateLeft_lt s.fam k.toNat _,
    bitString_blockRotateLeft h.lt k.toNat,
    yields_of_vector (blockRotateRight s.fam k.toNat) rfl h, blockRotateRight_lt s.fam k.toNat _,
    rotate_bitString_blockRotateRight h.lt k.toNat⟩

end Sys2Proof.Safety
end

section
/-! The bit-counting scanner (43_scan.md R160 to R162): CLZ, CLO and LCP answer with the model's leading-bit counts, which
are counts of leading places of bit strings. -/

namespace Sys2Proof.Safety

open Sys2Proof.Machine

/-! ## What the commands answer -/

theorem clz_yields {s : State} {rs1 : Reg} {v : Nat} (h : HoldsVector s rs1 v) (rd : Reg) :
    Yields (.clz rd rs1) s rd (BitVec.ofNat 128 (clz s.fam (s.reg rs1))) :=
  yields_of_vector (fun x => BitVec.ofNat 128 (clz s.fam x)) rfl h

theorem clo_yields {s : State} {rs1 : Reg} {v : Nat} (h : HoldsVector s rs1 v) (rd : Reg) :
    Yields (.clo rd rs1) s rd (BitVec.ofNat 128 (clo s.fam (s.reg rs1))) :=
  yields_of_vector (fun x => BitVec.ofNat 128 (clo s.fam x)) rfl h

theorem lcp_yields {s : State} {rs1 rs2 : Reg} {v w : Nat} (hv : HoldsVector s rs1 v) (hw : HoldsVector s rs2 w)
    (rd : Reg) : Yields (.lcp rd rs1 rs2) s rd (BitVec.ofNat 128 (clz s.fam (s.reg rs1 ^^^ s.reg rs2))) :=
  yields_of rfl (by rw [hv.vec, except_bind_ok, hw.vec, except_bind_ok, except_pure])

/-! ## The obligation -/

/-- Settles O42: the counts that the commands answer with are those of the bit strings; two strings agree where their
exclusive or has a zero. -/
theorem scansCountLeadingPlaces : Obligations.ScansCountLeadingPlaces := by
  intro s rd rs1 rs2 v hv
  rw [← clz_eq, ← clo_eq, ← clz_xor]
  exact ⟨clz_yields hv rd, clo_yields hv rd, fun _ hw => lcp_yields hv hw rd⟩

end Sys2Proof.Safety
end

section
/-! The network calculator (44_network.md R180 to R189): the commands answer with the boundaries of the address as
numbers, and everything else they say follows from where the address lies between these. -/

namespace Sys2Proof.Safety

open Sys2Proof.Machine

/-! ## The two boundaries as numbers -/

/-- The network address has the network bits of the address and cleared host bits. -/
theorem networkOf_div_mod (a p : Nat) :
    networkOf a p / 2 ^ (32 - p) = a / 2 ^ (32 - p) ∧ networkOf a p % 2 ^ (32 - p) = 0 :=
  ⟨Nat.mul_div_cancel _ (Nat.two_pow_pos _), Nat.mul_mod_left _ _⟩

/-- The broadcast address has the network bits of the address and set host bits. -/
theorem broadcastOf_div_mod (a p : Nat) :
    broadcastOf a p / 2 ^ (32 - p) = a / 2 ^ (32 - p) ∧ broadcastOf a p % 2 ^ (32 - p) = 2 ^ (32 - p) - 1 := by
  have hz := Nat.two_pow_pos (32 - p)
  rw [Nat.div_mod_unique hz]
  exact ⟨by rw [Nat.add_comm, Nat.mul_comm]; rfl, by omega⟩

theorem eq_networkOf_iff (a p : Nat) : a = networkOf a p ↔ a % 2 ^ (32 - p) = 0 := by
  have := networkOf_add_mod a p
  omega

theorem eq_broadcastOf_iff (a p : Nat) : a = broadcastOf a p ↔ a % 2 ^ (32 - p) = 2 ^ (32 - p) - 1 := by
  have := networkOf_add_mod a p
  unfold broadcastOf
  omega

/-- At /32 there are no host bits. -/
theorem networkOf_32 (a : Nat) : networkOf a 32 = a := by simp [networkOf]

theorem broadcastOf_32 (a : Nat) : broadcastOf a 32 = a := by simp [broadcastOf, networkOf_32]

/-- The two boundaries meet at /32 only. -/
theorem eq_32_of_broadcastOf_le_networkOf {a p : Nat} (hp : p ≤ 32) (h : broadcastOf a p ≤ networkOf a p) : p = 32 := by
  by_contra hne
  have : 1 < 2 ^ (32 - p) := Nat.one_lt_two_pow (by omega)
  unfold broadcastOf at h
  omega

/-- No address follows the network address only when that is the last one and has no host bits (R182). -/
theorem networkOf_last_iff {a p : Nat} (ha : a < 2 ^ 32) (hp : p ≤ 32) :
    2 ^ 32 ≤ networkOf a p + 1 ↔ a = 2 ^ 32 - 1 ∧ p = 32 := by
  constructor
  · intro h
    have hle := networkOf_le a p
    have hlt := broadcastOf_lt ha hp
    exact ⟨by omega, eq_32_of_broadcastOf_le_networkOf (a := a) hp (by omega)⟩
  · rintro ⟨rfl, rfl⟩
    rw [networkOf_32]
    decide

/-- No address precedes the broadcast address only when that is the first one and has no host bits (R183). -/
theorem broadcastOf_eq_zero_iff {a p : Nat} (hp : p ≤ 32) : broadcastOf a p = 0 ↔ a = 0 ∧ p = 32 := by
  constructor
  · intro h
    have hle := le_broadcastOf a p
    exact ⟨by omega, eq_32_of_broadcastOf_le_networkOf (a := a) hp (by omega)⟩
  · rintro ⟨rfl, rfl⟩
    exact broadcastOf_32 0

/-! ## The model's functions in family 1 -/

theorem firstHost_eq {a : Word} {p : Nat} (ha : a.toNat < 2 ^ 32) (hp : p ≤ 32) :
    firstHost .family1 a p =
      if networkOf a.toNat p + 1 < 2 ^ 32 then .ok (BitVec.ofNat 128 (networkOf a.toNat p + 1))
      else .error .range := by
  rw [firstHost, toNat_networkAddress ha hp, toNat_ones (maxBits_le _), maxBits]
  split
  · rw [if_neg (by omega)]
  · rw [if_pos (by omega)]

theorem lastHost_eq (a : Word) (p : Nat) :
    lastHost .family1 a p =
      if 0 < broadcastOf a.toNat p then .ok (BitVec.ofNat 128 (broadcastOf a.toNat p - 1)) else .error .range := by
  have hb := toNat_broadcastAddress a p
  have hzero : broadcastAddress .family1 a p = 0#128 ↔ broadcastOf a.toNat p = 0 := by
    rw [← BitVec.toNat_inj, hb, BitVec.toNat_zero]
  simp only [lastHost, hzero]
  split
  · rw [if_neg (by omega)]
  · next hne =>
    have hle : (1#128 : Word) ≤ broadcastAddress .family1 a p := by
      rw [BitVec.le_def, hb, BitVec.toNat_one (by decide)]
      omega
    have hpred : (broadcastAddress .family1 a p - 1#128).toNat = broadcastOf a.toNat p - 1 := by
      rw [BitVec.toNat_sub_of_le hle, hb, BitVec.toNat_one (by decide)]
    rw [if_pos (by omega), ← eq_ofNat hpred]

theorem toInt_hostCount (p : Nat) : (hostCount .family1 p).toInt = 2 ^ (32 - p) - 2 := by
  have hpos := Nat.two_pow_pos (32 - p)
  have hle : 2 ^ (32 - p) ≤ 2 ^ 32 := Nat.pow_le_pow_right (by decide) (Nat.sub_le _ _)
  rw [hostCount, maxBits, BitVec.toInt_ofInt_eq_self (by decide) (by omega) (by omega)]
  push_cast
  rfl

theorem isNetwork_eq {a : Word} {p : Nat} (ha : a.toNat < 2 ^ 32) (hp : p ≤ 32) :
    isNetwork .family1 a p = decide (a.toNat % 2 ^ (32 - p) = 0) := by
  rw [isNetwork, Bool.eq_iff_iff, beq_iff_eq, decide_eq_true_iff, ← BitVec.toNat_inj, toNat_networkAddress ha hp,
    eq_networkOf_iff]

theorem isBroadcast_eq (a : Word) (p : Nat) :
    isBroadcast .family1 a p = decide (a.toNat % 2 ^ (32 - p) = 2 ^ (32 - p) - 1) := by
  rw [isBroadcast, Bool.eq_iff_iff, beq_iff_eq, decide_eq_true_iff, ← BitVec.toNat_inj, toNat_broadcastAddress,
    eq_broadcastOf_iff]

/-- CONT compares network addresses, which are equal exactly when the candidate lies between the boundaries. -/
theorem networkAddress_beq {a b : Word} {p : Nat} (ha : a.toNat < 2 ^ 32) (hb : b.toNat < 2 ^ 32) (hp : p ≤ 32) :
    (networkAddress .family1 a p == networkAddress .family1 b p) =
      decide (networkOf a.toNat p ≤ b.toNat ∧ b.toNat ≤ broadcastOf a.toNat p) := by
  rw [Bool.eq_iff_iff, beq_iff_eq, decide_eq_true_iff, ← BitVec.toNat_inj, toNat_networkAddress ha hp,
    toNat_networkAddress hb hp, networkOf_eq_iff]

/-- One of the two addresses is its network or broadcast address at /c. -/
theorem edge_or_edge_iff {a b : Word} (ha : a.toNat < 2 ^ 32) (hb : b.toNat < 2 ^ 32) {c : Nat} (hc : c ≤ 32) :
    (edge .family1 a c || edge .family1 b c) = true ↔
      ∃ x, (x = a.toNat ∨ x = b.toNat) ∧ (x = networkOf x c ∨ x = broadcastOf x c) := by
  rw [Bool.or_eq_true, edge_iff ha hc, edge_iff hb hc]
  constructor
  · rintro (h | h)
    · exact ⟨_, .inl rfl, h⟩
    · exact ⟨_, .inr rfl, h⟩
  · rintro ⟨x, rfl | rfl, h⟩
    · exact .inl h
    · exact .inr h

/-! ## What the commands answer -/

section

variable {s : State} {rs1 rs2 : Reg} {a p : Nat}

/-- A command that computes g of its address and its prefix ends with that result. -/
theorem exec_of_addressAndPrefix {i : Instr} {rd : Reg} (g : Word → Nat → Except ErrorCode Word)
    (hexec : exec i s = s.finish rd (s.addressAndPrefix rs1 rs2 >>= fun x => g x.1 x.2)) (hf : s.fam = .family1)
    (ha : HoldsVector s rs1 a) (hp : HoldsPrefix s rs2 p) : exec i s = s.finish rd (g (s.reg rs1) p) := by
  rw [hexec, addressAndPrefix_ok hf ha hp, except_bind_ok]

variable (hf : s.fam = .family1) (ha : HoldsVector s rs1 a) (hp : HoldsPrefix s rs2 p)
include hf ha hp

theorem net_yields (rd : Reg) : Yields (.net rd rs1 rs2) s rd (BitVec.ofNat 128 (networkOf a p)) :=
  yields_of (exec_of_addressAndPrefix (fun a p => .ok (networkAddress s.fam a p)) rfl hf ha hp) (by
    rw [hf, eq_ofNat (toNat_networkAddress (HoldsVector.lt32 hf ha) (HoldsPrefix.le32 hf hp)), ha.2])

theorem bcast_yields (rd : Reg) : Yields (.bcast rd rs1 rs2) s rd (BitVec.ofNat 128 (broadcastOf a p)) :=
  yields_of (exec_of_addressAndPrefix (fun a p => .ok (broadcastAddress s.fam a p)) rfl hf ha hp) (by
    rw [hf, eq_ofNat (toNat_broadcastAddress (s.reg rs1) p), ha.2])

theorem exec_first (rd : Reg) : exec (.first rd rs1 rs2) s = s.finish rd
    (if networkOf a p + 1 < 2 ^ 32 then .ok (BitVec.ofNat 128 (networkOf a p + 1)) else .error .range) := by
  rw [exec_of_addressAndPrefix (firstHost s.fam) rfl hf ha hp, hf,
    firstHost_eq (HoldsVector.lt32 hf ha) (HoldsPrefix.le32 hf hp), ha.2]

theorem exec_last (rd : Reg) : exec (.last rd rs1 rs2) s = s.finish rd
    (if 0 < broadcastOf a p then .ok (BitVec.ofNat 128 (broadcastOf a p - 1)) else .error .range) := by
  rw [exec_of_addressAndPrefix (lastHost s.fam) rfl hf ha hp, hf, lastHost_eq, ha.2]

theorem isnet_yields (rd : Reg) :
    Yields (.isnet rd rs1 rs2) s rd (if a % 2 ^ (32 - p) = 0 then 1 else 0) :=
  yields_of (exec_of_addressAndPrefix (fun a p => .ok (boolWord (isNetwork s.fam a p))) rfl hf ha hp) (by
    rw [hf, isNetwork_eq (HoldsVector.lt32 hf ha) (HoldsPrefix.le32 hf hp), boolWord_decide, ha.2])

theorem isbc_yields (rd : Reg) :
    Yields (.isbc rd rs1 rs2) s rd (if a % 2 ^ (32 - p) = 2 ^ (32 - p) - 1 then 1 else 0) :=
  yields_of (exec_of_addressAndPrefix (fun a p => .ok (boolWord (isBroadcast s.fam a p))) rfl hf ha hp) (by
    rw [hf, isBroadcast_eq, boolWord_decide, ha.2])

theorem cont_yields {rs3 : Reg} {b : Nat} (hb : HoldsVector s rs3 b) (rd : Reg) :
    Yields (.cont rd rs1 rs2 rs3) s rd (if networkOf a p ≤ b ∧ b ≤ broadcastOf a p then 1 else 0) :=
  yields_of (exec_of_addressAndPrefix
    (fun a p => s.vec rs3 >>= fun b => .ok (boolWord (networkAddress s.fam a p == networkAddress s.fam b p)))
    rfl hf ha hp) (by
    rw [hb.vec, except_bind_ok, hf, networkAddress_beq (HoldsVector.lt32 hf ha) (HoldsVector.lt32 hf hb)
      (HoldsPrefix.le32 hf hp), boolWord_decide, ha.2, hb.2])

end

theorem hcnt_yields {s : State} {rs2 : Reg} {p : Nat} (hf : s.fam = .family1) (hp : HoldsPrefix s rs2 p) (rd : Reg) :
    Yields (.hcnt rd rs2) s rd (hostCount .family1 p) :=
  yields_of rfl (by rw [State.familyOneOnly_ok hf, except_bind_ok, hp.pfx, except_bind_ok, hf, except_pure])

theorem scn_yields {s : State} {rs1 rs2 : Reg} {a b : Nat} (hf : s.fam = .family1) (ha : HoldsVector s rs1 a)
    (hb : HoldsVector s rs2 b) (rd : Reg) (hostsOnly : Bool) :
    Yields (.scn rd rs1 rs2 hostsOnly) s rd
      (BitVec.ofNat 128 (commonPrefix .family1 (s.reg rs1) (s.reg rs2) hostsOnly)) :=
  yields_of rfl (by
    rw [State.familyOneOnly_ok hf, except_bind_ok, ha.vec, except_bind_ok, hb.vec, except_bind_ok, hf, except_pure])

/-! ## The obligations -/

/-- Settles O43: the masks clear and set the host bits. -/
theorem netAndBcastGiveTheBoundaries : Obligations.NetAndBcastGiveTheBoundaries :=
  fun _ rd _ _ _ _ hf ha hp => ⟨net_yields hf ha hp rd, bcast_yields hf ha hp rd⟩

/-- Settles O44: FIRST and LAST branch on the neighbour of a boundary, which is missing only where the two boundaries
meet at an end of the address space. -/
theorem firstAndLastStayInTheAddressSpace : Obligations.FirstAndLastStayInTheAddressSpace := by
  intro s rd rs1 rs2 a p hf ha hp
  have ha32 : a < 2 ^ 32 := ha.2 ▸ HoldsVector.lt32 hf ha
  have hfirst := exec_first hf ha hp rd
  have hlast := exec_last hf ha hp rd
  exact ⟨fun h => yields_of hfirst (if_pos h), fun h => raises_of hfirst (if_neg (Nat.not_lt.mpr h)),
    fun h => yields_of hlast (if_pos h), fun h => raises_of hlast (if_neg (Nat.not_lt.mpr h.le)),
    networkOf_last_iff ha32 (HoldsPrefix.le32 hf hp), broadcastOf_eq_zero_iff (HoldsPrefix.le32 hf hp)⟩

/-- Settles O45: the count is far inside the signed 128-bit range, so its two's complement reads back as itself. -/
theorem hcntIsNotClamped : Obligations.HcntIsNotClamped :=
  fun _ rd _ p hf hp => ⟨hostCount .family1 p, hcnt_yields hf hp rd, toInt_hostCount p⟩

/-- Settles O46: an address is a boundary of its network exactly when its host bits are those of the boundary. -/
theorem predicatesTestTheHostBits : Obligations.PredicatesTestTheHostBits :=
  fun _ rd _ _ _ _ hf ha hp => ⟨isnet_yields hf ha hp rd, isbc_yields hf ha hp rd⟩

/-- Settles O47: two addresses share their network address exactly when one lies between the other's boundaries. -/
theorem contComparesWithTheBoundaries : Obligations.ContComparesWithTheBoundaries :=
  fun _ rd _ _ _ _ _ _ hf ha hp hb => cont_yields hf ha hp hb rd

/-- Settles O48: the common prefix is counted in the exclusive or, and the back-off from it stops at the first candidate
at which neither address is an edge. -/
theorem scnBacksOffFromEdges : Obligations.ScnBacksOffFromEdges := by
  intro s rd rs1 rs2 a b c0 hf ha hb hc0
  rw [← clz_xor] at hc0
  subst hc0
  obtain ⟨hle, hstop, hpassed⟩ := backOff_spec (s.reg rs1) (s.reg rs2) (clz .family1 (s.reg rs1 ^^^ s.reg rs2))
  have hedge {c : Nat} (hc : c ≤ clz .family1 (s.reg rs1 ^^^ s.reg rs2)) :=
    edge_or_edge_iff (HoldsVector.lt32 hf ha) (HoldsVector.lt32 hf hb) (hc.trans (clz_le .family1 _))
  rw [ha.2, hb.2] at hedge
  refine ⟨scn_yields hf ha hb rd false, _, hle, scn_yields hf ha hb rd true,
    fun hpos x hx => ?noEdge, fun c' hlt hle' => ?allEdges⟩
  case noEdge =>
    rw [← not_or]
    exact fun hx_edge => Bool.eq_false_iff.mp (hstop hpos) ((hedge hle).mpr ⟨x, hx, hx_edge⟩)
  case allEdges => exact (hedge hle').mp (hpassed c' hlt hle')

/-- Settles O49: the results are the two boundaries of the address, whose network and host bits are known. -/
theorem containmentLaw : Obligations.ContainmentLaw := by
  intro s rd rs1 rs2 a p n b hf ha hp hnet hbcast
  have hlow := networkOf_le a p
  have hhigh := le_broadcastOf a p
  have hlt := broadcastOf_lt (ha.2 ▸ HoldsVector.lt32 hf ha : a < 2 ^ 32) (HoldsPrefix.le32 hf hp)
  have hn : n.toNat = networkOf a p := by
    rw [hnet.inj (net_yields hf ha hp rd), BitVec.toNat_ofNat, Nat.mod_eq_of_lt (by omega)]
  have hb : b.toNat = broadcastOf a p := by
    rw [hbcast.inj (bcast_yields hf ha hp rd), BitVec.toNat_ofNat, Nat.mod_eq_of_lt (by omega)]
  obtain ⟨hnet_div, hnet_mod⟩ := networkOf_div_mod a p
  obtain ⟨hbc_div, hbc_mod⟩ := broadcastOf_div_mod a p
  rw [hn, hb]
  exact ⟨hlow, hhigh, hnet_mod, hbc_mod, hnet_div, hbc_div⟩

end Sys2Proof.Safety
end

section
/-! The subnet enumerator (45_subnet.md R210 to R213): SUBCFG stores a configuration that the enumerator's invariant
allows, and the elements that SUBN answers with are the networks that tile the base network. -/

namespace Sys2Proof.Safety

open Sys2Proof.Machine

/-! ## SUBCFG (R210) -/

section

variable {s : State} {rs1 rs2 rs3 : Reg} {a p t : Nat}

/-- SUBCFG's operands read, its own check is left. -/
theorem enumerationOf_eq (hf : s.fam = .family1) (ha : HoldsVector s rs1 a) (hp : HoldsPrefix s rs2 p)
    (ht : HoldsPrefix s rs3 t) : s.enumerationOf rs1 rs2 rs3 =
      if p < t then .ok ⟨p, t, networkAddress s.fam (s.reg rs1) p⟩ else .error .range := by
  rw [State.enumerationOf, addressAndPrefix_ok hf ha hp, ht.pfx]
  by_cases hpt : p < t <;> simp [hpt]

theorem subcfg_configures (hf : s.fam = .family1) (ha : HoldsVector s rs1 a) (hp : HoldsPrefix s rs2 p)
    (ht : HoldsPrefix s rs3 t) (hpt : p < t) (rd : Reg) :
    ∃ u, exec (.subcfg rd rs1 rs2 rs3) s = .next u ∧ Configured rd (networkOf a p) p t (2 ^ (t - p)) s u := by
  have hp32 := HoldsPrefix.le32 hf hp
  have ht32 := HoldsPrefix.le32 hf ht
  have hbase : (networkAddress s.fam (s.reg rs1) p).toNat = networkOf a p := by
    rw [hf, toNat_networkAddress (HoldsVector.lt32 hf ha) hp32, ha.2]
  have hcount : (BitVec.ofNat 128 (2 ^ (t - p))).toNat = 2 ^ (t - p) := by
    rw [BitVec.toNat_ofNat, Nat.mod_eq_of_lt (Nat.pow_lt_pow_right (by decide) (by omega))]
  have hconf := s.setEnumeration_succeed_configured rd ⟨p, t, networkAddress s.fam (s.reg rs1) p⟩
    (BitVec.ofNat 128 (2 ^ (t - p))) (by show p < 256; omega) (by show t < 256; omega)
  rw [hbase, hcount] at hconf
  refine ⟨_, ?_, hconf⟩
  rw [exec, execSubcfg, enumerationOf_eq hf ha hp ht, if_pos hpt]

/-- What SUBCFG stored meets the enumerator's part of the invariant, whatever state it started from. -/
theorem enumeratorSound_of_configured {u : State} {rd : Reg} {count : Nat}
    (h : Configured rd (networkOf a p) p t count s u) (ha : a < 2 ^ 32) (hpt : p < t) (ht : t ≤ 32) :
    EnumeratorSound u := by
  refine .inr ?_
  rw [h.enumP, h.enumT, h.enumBase]
  exact ⟨hpt, ht, (networkOf_le a p).trans_lt ha, Dvd.intro_left _ rfl⟩

end

/-! ## SUBN (R213) -/

section

variable {s : State} {rs1 : Reg}

/-- The reset state with the enumerator of s: it meets the whole invariant as soon as that enumerator does. -/
def enumeratorAlone (s : State) : State :=
  { State.reset with
    fam := s.fam, enumValid := s.enumValid, enumP := s.enumP, enumT := s.enumT, enumBase := s.enumBase }

theorem inv_enumeratorAlone (hf : s.fam = .family1) (hs : EnumeratorSound s) : Inv (enumeratorAlone s) :=
  { inv_reset with
    enumFamily := fun _ => hf
    enumerator := hs }

/-- An element is a matter of the enumerator alone. -/
theorem toNat_element_of_sound (hf : s.fam = .family1) (hs : EnumeratorSound s) (hv : s.enumValid = true) {i : Word}
    (h : i.toNat < s.elementCount) :
    (s.element i).toNat = s.enumBase.toNat + i.toNat * 2 ^ (32 - s.enumT.toNat) :=
  (toNat_element (s := enumeratorAlone s) (inv_enumeratorAlone hf hs) hv h).1

/-- SUBN, in family 1: the two checks and the element. -/
theorem exec_subn (hf : s.fam = .family1) (rd : Reg) : exec (.subn rd rs1) s = s.finish rd
    (check s.enumValid .sequence >>= fun _ =>
      if (s.reg rs1).toNat < s.elementCount then .ok (s.element (s.reg rs1)) else .error .range) := by
  rw [exec, execSubn, State.familyOneOnly_ok hf, except_bind_ok]
  by_cases hlt : (s.reg rs1).toNat < s.elementCount <;> simp [hlt]

theorem subn_yields (hf : s.fam = .family1) (hs : EnumeratorSound s) (hv : s.enumValid = true)
    (h : (s.reg rs1).toNat < s.elementCount) (rd : Reg) : Yields (.subn rd rs1) s rd
      (BitVec.ofNat 128 (s.enumBase.toNat + (s.reg rs1).toNat * 2 ^ (32 - s.enumT.toNat))) := by
  refine yields_of (exec_subn hf rd) ?_
  rw [hv, check_true, except_bind_ok, if_pos h, eq_ofNat (toNat_element_of_sound hf hs hv h)]

theorem subn_raises_range (hf : s.fam = .family1) (hv : s.enumValid = true)
    (h : s.elementCount ≤ (s.reg rs1).toNat) (rd : Reg) : Raises (.subn rd rs1) s .range := by
  refine raises_of (exec_subn hf rd) ?_
  rw [hv, check_true, except_bind_ok, if_neg (Nat.not_lt.mpr h)]

theorem subn_raises_sequence (hf : s.fam = .family1) (hv : s.enumValid = false) (rd : Reg) :
    Raises (.subn rd rs1) s .sequence := by
  refine raises_of (exec_subn hf rd) ?_
  rw [hv, check_false, except_bind_error]

end

/-! ## The elements (R211) -/

theorem networkOf_eq_self {a p : Nat} (h : 2 ^ (32 - p) ∣ a) : networkOf a p = a := Nat.div_mul_cancel h

/-- An address between the boundaries of a network is in it. -/
theorem networkOf_eq_of_mem {a b p : Nat} (h : 2 ^ (32 - p) ∣ b) (hle : b ≤ a) (hlt : a < b + 2 ^ (32 - p)) :
    networkOf a p = b := by
  have hb := networkOf_eq_self h
  refine .trans ((networkOf_eq_iff b a p).mpr ⟨hb.trans_le hle, ?_⟩).symm hb
  rw [broadcastOf, hb]
  omega

section

variable {s : State} (hi : Inv s) (hv : s.enumValid = true)
include hi hv

/-- The configuration of a valid enumeration is one that SUBCFG accepts. -/
theorem enumeration_of_valid : s.enumP.toNat < s.enumT.toNat ∧ s.enumT.toNat ≤ 32 ∧
    2 ^ (32 - s.enumP.toNat) ∣ s.enumBase.toNat := by
  obtain ⟨hinvalid, _⟩ | ⟨hpt, ht, _, hdvd⟩ := hi.enumerator
  · cases hinvalid.symm.trans hv
  · exact ⟨hpt, ht, hdvd⟩

/-- The subnets together have the size of the base network. -/
theorem elementCount_mul_size :
    s.elementCount * 2 ^ (32 - s.enumT.toNat) = 2 ^ (32 - s.enumP.toNat) := by
  obtain ⟨hpt, ht, _⟩ := enumeration_of_valid hi hv
  rw [State.elementCount, ← Nat.pow_add]
  congr 1
  omega

/-- The base is a network address at the target's length too, since that one is longer. -/
theorem size_dvd_enumBase : 2 ^ (32 - s.enumT.toNat) ∣ s.enumBase.toNat := by
  obtain ⟨hpt, ht, hdvd⟩ := enumeration_of_valid hi hv
  exact (Nat.pow_dvd_pow 2 (by omega)).trans hdvd

theorem toNat_element_zero : (s.element 0).toNat = s.enumBase.toNat := by
  rw [(toNat_element hi hv (i := 0) (Nat.two_pow_pos _)).1]
  simp

/-- R211's other form: the i-th multiple of the subnet size after the base. -/
theorem toNat_element_eq_mul {i : Word} (h : i.toNat < s.elementCount) : (s.element i).toNat =
    (s.enumBase.toNat / 2 ^ (32 - s.enumT.toNat) + i.toNat) * 2 ^ (32 - s.enumT.toNat) := by
  rw [(toNat_element hi hv h).1, Nat.add_mul, Nat.div_mul_cancel (size_dvd_enumBase hi hv)]

theorem networkOf_element_target {i : Word} (h : i.toNat < s.elementCount) :
    networkOf (s.element i).toNat s.enumT.toNat = (s.element i).toNat :=
  networkOf_eq_self (Dvd.intro_left _ (toNat_element_eq_mul hi hv h).symm)

theorem networkOf_element_base {i : Word} (h : i.toNat < s.elementCount) :
    networkOf (s.element i).toNat s.enumP.toNat = s.enumBase.toNat := by
  obtain ⟨_, _, hdvd⟩ := enumeration_of_valid hi hv
  obtain ⟨helem, hend, _⟩ := toNat_element hi hv h
  have hpos := Nat.two_pow_pos (32 - s.enumT.toNat)
  exact networkOf_eq_of_mem hdvd (by omega) (by omega)

theorem element_lt_element {i j : Word} (hij : i.toNat < j.toNat) (hj : j.toNat < s.elementCount) :
    (s.element i).toNat < (s.element j).toNat := by
  rw [(toNat_element hi hv (hij.trans hj)).1, (toNat_element hi hv hj).1]
  exact Nat.add_lt_add_left (Nat.mul_lt_mul_of_pos_right hij (Nat.two_pow_pos _)) _

/-- The last subnet ends where the base network ends. -/
theorem broadcastOf_last_element {i : Word} (h : i.toNat + 1 = s.elementCount) :
    broadcastOf (s.element i).toNat s.enumT.toNat = broadcastOf s.enumBase.toNat s.enumP.toNat := by
  have hlt : i.toNat < s.elementCount := by omega
  obtain ⟨_, _, hdvd⟩ := enumeration_of_valid hi hv
  have hsize := elementCount_mul_size hi hv
  rw [← h, Nat.add_mul, Nat.one_mul] at hsize
  have hpos := Nat.two_pow_pos (32 - s.enumT.toNat)
  rw [broadcastOf, broadcastOf, networkOf_element_target hi hv hlt, networkOf_eq_self hdvd, (toNat_element hi hv hlt).1]
  omega

end

/-! ## The obligations -/

/-- Settles O50: the operands read, so SUBCFG's own check decides. -/
theorem subcfgStoresTheConfiguration : Obligations.SubcfgStoresTheConfiguration := by
  intro s rd rs1 rs2 rs3 a p t hf ha hp ht
  refine ⟨fun hpt => subcfg_configures hf ha hp ht hpt rd, fun htp => subcfg_raises ?_⟩
  rw [enumerationOf_eq hf ha hp ht, if_neg (Nat.not_lt.mpr htp)]

/-- Settles O51, a check of SUBN at a time. -/
theorem subnGivesTheElement : Obligations.SubnGivesTheElement :=
  fun _ rd _ hi hf => ⟨fun hv h => subn_yields hf hi.enumerator hv h rd, fun hv h => subn_raises_range hf hv h rd,
    fun hv => subn_raises_sequence hf hv rd⟩

/-- Settles O52: the base is a multiple of the subnet size, and the subnets fill the base network. -/
theorem elementsTileTheBaseNetwork : Obligations.ElementsTileTheBaseNetwork :=
  fun _ hi hv => ⟨toNat_element_zero hi hv,
    fun _ h => ⟨toNat_element_eq_mul hi hv h, networkOf_element_target hi hv h, networkOf_element_base hi hv h⟩,
    fun _ _ hij hj => element_lt_element hi hv hij hj, fun _ h => broadcastOf_last_element hi hv h⟩

/-- Settles O53: SUBN reads back what SUBCFG stored, which meets the enumerator's invariant. -/
theorem subcfgThenSubnEnumerates : Obligations.SubcfgThenSubnEnumerates := by
  intro s u rd rs1 rs2 rs3 rd' r a p t hf ha hp ht hpt hex hr
  obtain ⟨u', hex', hconf⟩ := subcfg_configures hf ha hp ht hpt rd
  cases hex'.symm.trans hex
  have hs := enumeratorSound_of_configured hconf (ha.2 ▸ HoldsVector.lt32 hf ha) hpt (HoldsPrefix.le32 hf ht)
  have hcount : u.elementCount = 2 ^ (t - p) := by rw [State.elementCount, hconf.enumP, hconf.enumT]
  have hyields := subn_yields (hconf.fam.trans hf) hs hconf.enumValid (hcount ▸ hr) rd'
  rwa [hconf.enumBase, hconf.enumT] at hyields

end Sys2Proof.Safety
end

section
/-! The subnet budget (45_subnet.md R214 to R219): which bits BUDG wants, what becomes of a surplus and of a deficit,
and the target prefix that results. -/

namespace Sys2Proof.Safety

open Sys2Proof.Machine

/-! ## The reconciled budget (R217, R218) -/

theorem pos_shrink {n : Nat} (h : 1 ≤ n) (d : Nat) : 1 ≤ shrink n d := by
  unfold shrink
  split <;> omega

theorem sub_le_shrink (n d : Nat) : n - d ≤ shrink n d := by
  unfold shrink
  split <;> omega

theorem host_le_addSurplus (b : BitBudget) (x : Nat) (pref : Preference) : b.host ≤ (b.addSurplus x pref).host := by
  cases pref with
  | hosts | unset => exact Nat.le_add_right _ _
  | subnets => exact Nat.le_refl _

/-- A surplus is given away whole. -/
theorem addSurplus_sum (b : BitBudget) (x : Nat) (pref : Preference) :
    (b.addSurplus x pref).net + (b.addSurplus x pref).host = b.net + b.host + x := by
  cases pref <;> simp only [BitBudget.addSurplus] <;> omega

theorem pos_host_shrinkDeficit {b : BitBudget} (h : 1 ≤ b.host) (d : Nat) (pref : Preference) :
    1 ≤ (b.shrinkDeficit d pref).host := by
  cases pref with
  | hosts => exact h
  | subnets | unset => exact pos_shrink h _

/-- What reconciling keeps: the budget fits, and hosts that want a bit still get one. -/
theorem reconcile_eq_ok {n h avail : Nat} {r : BitBudget} {single : Bool} {pref : Preference}
    (hr : BitBudget.reconcile ⟨n, h⟩ avail single pref = .ok r) (hpos : 1 ≤ h) :
    r.net + r.host ≤ avail ∧ 1 ≤ r.host := by
  by_cases hfit : n + h ≤ avail
  · obtain ⟨x, hx⟩ := Nat.exists_eq_add_of_le hfit
    rw [reconcile_surplus hx.symm] at hr
    cases hr
    exact ⟨((addSurplus_sum _ _ _).trans hx.symm).le, hpos.trans (host_le_addSurplus ⟨n, h⟩ x pref)⟩
  · cases single with
    | true => rw [reconcile_single_deficit (by omega)] at hr; cases hr
    | false =>
      rw [reconcile_deficit (d := n + h - avail) (by omega) (by omega)] at hr
      split at hr
      · cases hr
      · next hle =>
        cases hr
        exact ⟨Nat.not_lt.mp hle, pos_host_shrinkDeficit (b := ⟨n, h⟩) hpos _ _⟩

/-! ## The target (R216, R219) -/

/-- The target of a reconciled budget, RangeError without a subnet bit. -/
theorem check_net_bind (b : BitBudget) (p : Nat) :
    (do check (decide (0 < b.net)) .range; return p + b.net : Except ErrorCode Nat) =
      if 0 < b.net then .ok (p + b.net) else .error .range := by
  split
  · next h => exact target_of_pos h
  · next h => exact target_of_zero (Nat.eq_zero_of_not_pos h)

/-- Once the subnet count reads, the target is that of the reconciled budget. -/
theorem budgetTarget_reconciled {f : Family} {p nb : Nat} {subnets hosts : Option Nat} {pref : Preference}
    (hn : requestedNetBits subnets = .ok nb) : budgetTarget f p subnets hosts pref =
      (BitBudget.reconcile ⟨nb, requestedHostBits hosts⟩ (maxBits f - p) (subnets.isSome ^^ hosts.isSome)
        (preferenceInForce subnets.isSome hosts.isSome pref) >>= fun b =>
          if 0 < b.net then .ok (p + b.net) else .error .range) := by
  rw [budgetTarget, hn, except_bind_ok]
  simp only [check_net_bind]

/-- A target leaves a bit for subnets and one for hosts. -/
theorem budgetTarget_eq_ok {f : Family} {p t : Nat} {subnets hosts : Option Nat} {pref : Preference}
    (hp : p ≤ maxBits f) (h : budgetTarget f p subnets hosts pref = .ok t) : p + 1 ≤ t ∧ t + 1 ≤ maxBits f := by
  obtain ⟨n, hn, _⟩ := exists_of_bind_eq_ok h
  rw [budgetTarget_reconciled hn] at h
  obtain ⟨b, hb, h⟩ := exists_of_bind_eq_ok h
  obtain ⟨hfit, hhost⟩ := reconcile_eq_ok hb (requestedHostBits_pos hosts)
  split at h
  · cases h
    omega
  · cases h

/-- A host count alone (conflict C7): whatever the hosts leave over goes to subnets. -/
theorem budgetTarget_hosts {p : Nat} (hp : p ≤ 32) (n : Nat) (pref : Preference) :
    budgetTarget .family1 p none (some n) pref =
      if p + 1 + clog2 (n + 2) ≤ 32 then .ok (32 - clog2 (n + 2)) else .error .range := by
  have heq : budgetTarget .family1 p none (some n) pref =
      (BitBudget.reconcile ⟨1, clog2 (n + 2)⟩ (32 - p) true .subnets >>= _) := budgetTarget_reconciled rfl
  rw [heq]
  split
  · next hfit =>
    obtain ⟨x, hx⟩ := Nat.exists_eq_add_of_le hfit
    rw [reconcile_surplus (x := x) (by omega), except_bind_ok, if_pos (by simp [BitBudget.addSurplus])]
    congr 1
    simp only [BitBudget.addSurplus]
    omega
  · next hfit => rw [reconcile_single_deficit (by omega), except_bind_error]

/-- A count of at least one subnet alone (conflict C7): whatever the subnets leave over goes to hosts. -/
theorem budgetTarget_subnets {p n : Nat} (hp : p ≤ 32) (hn : n ≠ 0) (pref : Preference) :
    budgetTarget .family1 p (some n) none pref =
      if 0 < clog2 n ∧ p + clog2 n + 1 ≤ 32 then .ok (p + clog2 n) else .error .range := by
  have heq : budgetTarget .family1 p (some n) none pref =
      (BitBudget.reconcile ⟨clog2 n, 1⟩ (32 - p) true .hosts >>= _) := budgetTarget_reconciled (if_neg hn)
  rw [heq]
  by_cases hfit : p + clog2 n + 1 ≤ 32
  · obtain ⟨x, hx⟩ := Nat.exists_eq_add_of_le hfit
    rw [reconcile_surplus (x := x) (by omega), except_bind_ok]
    exact if_congr (and_iff_left hfit).symm rfl rfl
  · rw [reconcile_single_deficit (by omega), except_bind_error, if_neg fun h => hfit h.2]

/-! ## The command -/

section

variable {s : State} {rs1 rs2 rs3 : Reg} {pref : BitVec 2} {q : Preference} {p : Nat}

/-- BUDG with operands that read is its target. -/
theorem exec_budg (hf : s.fam = .family1) (hp : HoldsPrefix s rs1 p) (hq : preferenceOf pref = .ok q) (rd : Reg)
    (sub hst : Bool) : exec (.budg rd rs1 rs2 rs3 sub hst pref) s = s.finish rd
      (budgetTarget .family1 p (s.optionalCount sub rs2) (s.optionalCount hst rs3) q >>= fun t =>
        .ok (BitVec.ofNat 128 t)) := by
  rw [exec, execBudg, hq, except_bind_ok, State.familyOneOnly_ok hf, except_bind_ok, hp.pfx, except_bind_ok, hf]
  rfl

theorem budg_yields (hf : s.fam = .family1) (hp : HoldsPrefix s rs1 p) (hq : preferenceOf pref = .ok q) {sub hst : Bool}
    {t : Nat} (h : budgetTarget .family1 p (s.optionalCount sub rs2) (s.optionalCount hst rs3) q = .ok t) (rd : Reg) :
    Yields (.budg rd rs1 rs2 rs3 sub hst pref) s rd (BitVec.ofNat 128 t) :=
  yields_of (exec_budg hf hp hq rd sub hst) (by rw [h, except_bind_ok])

theorem budg_raises (hf : s.fam = .family1) (hp : HoldsPrefix s rs1 p) (hq : preferenceOf pref = .ok q) {sub hst : Bool}
    {e : ErrorCode} (h : budgetTarget .family1 p (s.optionalCount sub rs2) (s.optionalCount hst rs3) q = .error e)
    (rd : Reg) : Raises (.budg rd rs1 rs2 rs3 sub hst pref) s e :=
  raises_of_first (exec_budg hf hp hq rd sub hst) h

/-- A count of no subnets is refused whatever the hosts want. -/
theorem budgetTarget_zero_subnets (h : (s.reg rs2).toNat = 0) (p : Nat) (hosts : Option Nat) (q : Preference) :
    budgetTarget .family1 p (s.optionalCount true rs2) hosts q = .error .range :=
  bind_eq_error (if_pos h)

/-- PREF is looked at first. -/
theorem budg_raises_of_pref {rd : Reg} {sub hst : Bool} {e : ErrorCode} (h : preferenceOf pref = .error e) :
    Raises (.budg rd rs1 rs2 rs3 sub hst pref) s e := raises_of_first rfl h

/-- A BUDG that succeeds has a target, in family 1. -/
theorem budg_succeeds {t : State} {rd : Reg} {sub hst : Bool} {r : Response} (hp : HoldsPrefix s rs1 p)
    (hex : exec (.budg rd rs1 rs2 rs3 sub hst pref) s = .next t) (hr : t.rsp = some r) (hok : r.status = 0) :
    ∃ q n, budgetTarget .family1 p (s.optionalCount sub rs2) (s.optionalCount hst rs3) q = .ok n ∧ p ≤ 32 ∧
      t.reg rd = BitVec.ofNat 128 n := by
  rw [exec, execBudg] at hex
  obtain ⟨v, hv, hfin⟩ | ⟨e, _, hfin⟩ := State.finish_cases s rd _
  · cases hfin.symm.trans hex
    obtain ⟨q, _, hv⟩ := exists_of_bind_eq_ok hv
    obtain ⟨_, hfam, hv⟩ := exists_of_bind_eq_ok hv
    obtain ⟨_, hpfx, hv⟩ := exists_of_bind_eq_ok hv
    cases hp.pfx.symm.trans hpfx
    obtain ⟨n, hn, hv⟩ := exists_of_bind_eq_ok hv
    cases hv
    have hf := family1_of_familyOneOnly_ok hfam
    exact ⟨q, n, hf ▸ hn, HoldsPrefix.le32 hf hp, State.reg_succeed_self _ _ _⟩
  · cases hfin.symm.trans hex
    exact absurd hok (raise_rsp_status_ne_zero hr)

end

/-! ## Both counts or neither -/

section

variable {s : State} {rs1 rs2 rs3 : Reg} {both : Bool} {p nb hb : Nat} {q : Preference}

/-- The bits that a request for both counts or neither wants. -/
structure Wants (s : State) (rs2 rs3 : Reg) (both : Bool) (nb hb : Nat) : Prop where
  net : requestedNetBits (s.optionalCount both rs2) = .ok nb
  host : requestedHostBits (s.optionalCount both rs3) = hb

theorem wants_of (hpos : both = true → 1 ≤ (s.reg rs2).toNat) (hn : nb = if both then clog2 (s.reg rs2).toNat else 1)
    (hh : hb = if both then clog2 ((s.reg rs3).toNat + 2) else 1) : Wants s rs2 rs3 both nb hb := by
  subst hn hh
  cases both with
  | true => exact ⟨if_neg (Nat.ne_of_gt (hpos rfl)), rfl⟩
  | false => exact ⟨rfl, rfl⟩

theorem Wants.pos_host (w : Wants s rs2 rs3 both nb hb) : 1 ≤ hb := w.host ▸ requestedHostBits_pos _

/-- The target of such a request is that of its reconciled bits. -/
theorem Wants.budgetTarget_eq (w : Wants s rs2 rs3 both nb hb) (p : Nat) (q : Preference) :
    budgetTarget .family1 p (s.optionalCount both rs2) (s.optionalCount both rs3) q =
      (BitBudget.reconcile ⟨nb, hb⟩ (32 - p) false q >>= fun b =>
        if 0 < b.net then .ok (p + b.net) else .error .range) := by
  have hsome : (s.optionalCount both rs2).isSome = (s.optionalCount both rs3).isSome := by cases both <;> rfl
  rw [budgetTarget_both q hsome w.net w.host]
  simp only [check_net_bind]
  rfl

/-- With x bits to spare, n of the bits go to subnets. -/
theorem Wants.budgetTarget_surplus (w : Wants s rs2 rs3 both nb hb) {x n : Nat} (hx : p + nb + hb + x = 32)
    (hn : (BitBudget.addSurplus ⟨nb, hb⟩ x q).net = n) :
    budgetTarget .family1 p (s.optionalCount both rs2) (s.optionalCount both rs3) q =
      if 0 < n then .ok (p + n) else .error .range := by
  rw [w.budgetTarget_eq, reconcile_surplus (x := x) (by omega), except_bind_ok, hn]

/-- Short of d bits, the request shrinks to n bits for subnets and h for hosts. -/
theorem Wants.budgetTarget_deficit (w : Wants s rs2 rs3 both nb hb) {d n h : Nat} (hp : p ≤ 32)
    (hd : p + nb + hb = 32 + d) (hpos : 1 ≤ d) (hr : BitBudget.shrinkDeficit ⟨nb, hb⟩ d q = ⟨n, h⟩) :
    budgetTarget .family1 p (s.optionalCount both rs2) (s.optionalCount both rs3) q =
      if p + n + h ≤ 32 ∧ 0 < n then .ok (p + n) else .error .range := by
  rw [w.budgetTarget_eq, reconcile_deficit (d := d) (by omega) hpos, hr]
  by_cases hfit : p + n + h ≤ 32
  · rw [if_neg (by show ¬ 32 - p < n + h; omega), except_bind_ok]
    exact if_congr (and_iff_right hfit).symm rfl rfl
  · rw [if_pos (by show 32 - p < n + h; omega), except_bind_error, if_neg fun hc => hfit hc.1]

end

/-! ## The obligations -/

/-- Settles O54: clog2 n is at most k exactly when n is at most 2^k, read at clog2 n itself and at any other k. -/
theorem clog2IsTheLeastExponent : Obligations.Clog2IsTheLeastExponent :=
  fun n _ => ⟨(clog2_le_iff n _).mp (Nat.le_refl _), fun k => (clog2_le_iff n k).mpr⟩

/-- Settles O55: with one count the other dimension wants one bit and takes every bit to spare, whatever PREF says. -/
theorem budgWithOneCount : Obligations.BudgWithOneCount := by
  intro s rd rs1 rs2 rs3 pref p hb nb hf hpref hp hhb hnb
  subst hhb hnb
  obtain ⟨q, hq⟩ := preferenceOf_ok hpref
  have hp32 := HoldsPrefix.le32 hf hp
  have hhosts : budgetTarget .family1 p (s.optionalCount false rs2) (s.optionalCount true rs3) q = _ :=
    budgetTarget_hosts hp32 (s.reg rs3).toNat q
  have hsubnets (h : (s.reg rs2).toNat ≠ 0) :
      budgetTarget .family1 p (s.optionalCount true rs2) (s.optionalCount false rs3) q = _ :=
    budgetTarget_subnets hp32 h q
  have hzero := clog2_eq_zero_iff (s.reg rs2).toNat
  refine ⟨fun h => budg_yields hf hp hq (hhosts.trans (if_pos h)) rd,
    fun h => budg_raises hf hp hq (hhosts.trans (if_neg (Nat.not_le.mpr h))) rd,
    fun h2 hfit => ?subnetsFit, fun h => ?subnetsRefused⟩
  case subnetsFit => exact budg_yields hf hp hq ((hsubnets (by omega)).trans (if_pos ⟨by omega, hfit⟩)) rd
  case subnetsRefused =>
    refine budg_raises hf hp hq ?_ rd
    by_cases hcount : (s.reg rs2).toNat = 0
    · exact budgetTarget_zero_subnets hcount p _ q
    · exact (hsubnets hcount).trans (if_neg (by omega))

/-- Settles O56, a preference at a time. -/
theorem budgDistributesTheSurplus : Obligations.BudgDistributesTheSurplus := by
  intro s rd rs1 rs2 rs3 both p nb hb x hf hp hpos hnb hhb hx
  have w := wants_of hpos hnb hhb
  have hosts := w.budgetTarget_surplus (q := .hosts) (n := nb) hx rfl
  have subnets := w.budgetTarget_surplus (q := .subnets) (n := nb + x) hx rfl
  have unset := w.budgetTarget_surplus (q := .unset) (n := nb + (x + 1) / 2) hx (by
    simp only [BitBudget.addSurplus]; omega)
  refine ⟨fun h => budg_yields hf hp rfl (hosts.trans (if_pos h)) rd,
    fun h => budg_raises hf hp rfl (hosts.trans (if_neg (by omega))) rd, fun h => ?subnets, fun h => ?unset,
    fun h => ⟨budg_raises hf hp rfl (subnets.trans (if_neg (by omega))) rd,
      budg_raises hf hp rfl (unset.trans (if_neg (by omega))) rd⟩⟩
  case subnets =>
    rw [Nat.add_assoc]
    exact budg_yields hf hp rfl (subnets.trans (if_pos h)) rd
  case unset =>
    rw [Nat.add_assoc]
    exact budg_yields hf hp rfl (unset.trans (if_pos (by omega))) rd

/-- Settles O57, a preference at a time: a dimension that cannot give its share gives nothing, and then the sum does not
fit. -/
theorem budgShrinksInADeficit : Obligations.BudgShrinksInADeficit := by
  intro s rd rs1 rs2 rs3 both p nb hb d hf hp hpos hnb hhb hd hd1
  have w := wants_of hpos hnb hhb
  have hhost := w.pos_host
  have hp32 := HoldsPrefix.le32 hf hp
  have hosts := w.budgetTarget_deficit (q := .hosts) (n := shrink nb d) (h := hb) hp32 hd hd1 rfl
  have subnets := w.budgetTarget_deficit (q := .subnets) (n := nb) (h := shrink hb d) hp32 hd hd1 rfl
  have unset := w.budgetTarget_deficit (q := .unset) (n := shrink nb (d - d / 2)) (h := shrink hb (d / 2)) hp32 hd hd1
    rfl
  refine ⟨fun h => ?hostsFit, fun h => ?hostsRefused, fun ⟨h, hnet⟩ => ?subnetsFit, fun h => ?subnetsRefused,
    fun ⟨hn, hh⟩ => ?unsetFit, fun h => ?unsetRefused⟩
  case hostsFit =>
    rw [shrink_of_lt h, if_pos (by omega), ← Nat.add_sub_assoc h.le] at hosts
    exact budg_yields hf hp rfl hosts rd
  case hostsRefused =>
    rw [shrink_of_le h, if_neg (by omega)] at hosts
    exact budg_raises hf hp rfl hosts rd
  case subnetsFit =>
    rw [shrink_of_lt h, if_pos (by omega)] at subnets
    exact budg_yields hf hp rfl subnets rd
  case subnetsRefused =>
    refine budg_raises hf hp rfl (subnets.trans (if_neg fun hfit => ?_)) rd
    obtain h | h := h
    · rw [shrink_of_le h] at hfit
      omega
    · omega
  case unsetFit =>
    rw [shrink_of_lt hn, shrink_of_lt hh, if_pos (by omega), ← Nat.add_sub_assoc hn.le] at unset
    exact budg_yields hf hp rfl unset rd
  case unsetRefused =>
    refine budg_raises hf hp rfl (unset.trans (if_neg fun hfit => ?_)) rd
    have hnet_given := sub_le_shrink nb (d - d / 2)
    have hhost_given := sub_le_shrink hb (d / 2)
    obtain h | h := h <;>
    · rw [shrink_of_le h] at hfit
      omega

/-- Settles O59: in a budget that fits, the hosts keep the bit they want. -/
theorem budgTargetLeavesRoom : Obligations.BudgTargetLeavesRoom := by
  intro s t rd rs1 rs2 rs3 sub hst pref p r hp hex hr hok
  obtain ⟨q, n, hn, hp32, hreg⟩ := budg_succeeds hp hex hr hok
  obtain ⟨hlow, hhigh⟩ := budgetTarget_eq_ok (f := .family1) hp32 hn
  replace hhigh : n + 1 ≤ 32 := hhigh
  rw [hreg, BitVec.toNat_ofNat, Nat.mod_eq_of_lt (by omega)]
  omega

/-- Settles O58: PREF 3 is refused first, and a count of no subnets before anything is reconciled. -/
theorem budgRefusesZeroSubnetsAndPref3 : Obligations.BudgRefusesZeroSubnetsAndPref3 := by
  intro s rd rs1 rs2 rs3 sub hst pref
  refine ⟨fun hf hpref p hp hcount => ?_, budg_raises_of_pref preferenceOf_three⟩
  obtain ⟨q, hq⟩ := preferenceOf_ok hpref
  exact budg_raises hf hp hq (budgetTarget_zero_subnets hcount p _ q) rd

end Sys2Proof.Safety
end

section
/-! Errors and their absence (60_exceptions.md): what a command that raises one leaves unchanged and which codes it can
answer with (R240, R241, R244), and an idle unit that is offered nothing (R253). -/

namespace Sys2Proof.Safety

open Sys2Proof.Machine

/-! ## The status of a response -/

/-- A response is that of a success or that of one error, which is never UsageError (60_exceptions.md R240, R241). -/
theorem ends_status {i : Instr} {s t : State} (he : Ends i s t) {r : Response} (hr : t.rsp = some r) :
    r.status = 0 ∨ ∃ e : ErrorCode, e ≠ .usage ∧ r.status = e.number ∧ Raised e s t := by
  cases he with
  | wrote | answered | wroteCfg | wroteStatus | configured => cases hr; exact .inl rfl
  | raised e hmay =>
    cases hr
    obtain ⟨husage, _⟩ := hmay
    exact .inr ⟨e, husage, rfl, State.raised_raise s e⟩

/-- `legalStatus` as the list of the codes that 60_exceptions.md R240 says are produced. -/
theorem legalStatus_iff (c : BitVec 4) :
    legalStatus c = true ↔ c = 0 ∨ c = 1 ∨ c = 2 ∨ c = 4 ∨ c = 5 ∨ c = 6 := by
  simp [legalStatus, or_assoc]

theorem legalStatus_of_ends {i : Instr} {s t : State} (he : Ends i s t) {r : Response} (hr : t.rsp = some r) :
    legalStatus r.status = true := by
  obtain hok | ⟨e, husage, hstatus, _⟩ := ends_status he hr
  · rw [hok]; decide
  · rw [hstatus]; exact legalStatus_number husage

/-! ## Edges without an offer -/

/-- With neither reset nor an offer in the samples to come, the next sample has neither, an ended list included. -/
theorem nextSample_of_noOffer {n : Nat} {s : State}
    (h : ∀ p ∈ s.inputs.take (n + 1), p.rstN = true ∧ p.cmdValid = false) :
    s.nextSample.rstN = true ∧ s.nextSample.cmdValid = false := by
  cases hi : s.inputs with
  | nil => rw [State.nextSample, hi]; exact ⟨rfl, rfl⟩
  | cons p rest => rw [s.nextSample_cons hi]; exact h p (by simp [hi])

/-- Each such edge only takes its sample off the host's list. -/
theorem core_run_noOffer (n : Nat) : ∀ {s : State}, s.busy = false → s.rsp = none →
    (∀ p ∈ s.inputs.take n, p.rstN = true ∧ p.cmdValid = false) →
    Host.Core.run core n s = .next { s with inputs := s.inputs.drop n } := by
  induction n with
  | zero => exact fun {s} _ _ _ => core_run_zero s
  | succ n ih =>
    intro s hb hr h
    obtain ⟨hrst, hoffer⟩ := nextSample_of_noOffer h
    have htail : ∀ p ∈ s.afterSample.inputs.take n, p.rstN = true ∧ p.cmdValid = false := by
      intro p hp
      rw [State.afterSample_inputs, ← List.drop_one, List.take_drop, Nat.add_comm] at hp
      exact h p (List.mem_of_mem_drop hp)
    rw [core_run_succ (step_idle hrst hoffer hr hb), ih (s := s.afterSample) hb hr htail, State.afterSample_inputs,
      List.drop_tail]
    rfl

/-! ## The obligations -/

/-- Settles O8, by induction on the edges; cmd_ready needs only that the unit is idle. -/
theorem idleUnitHoldsItsState : Obligations.IdleUnitHoldsItsState :=
  fun n s hb hr h => ⟨core_run_noOffer n hb hr h, (cmdReady_iff s).mpr ⟨hb, hr⟩⟩

/-- Settles O19: a status other than 0 comes only from a raised error, whose frame `Raised` states. -/
theorem failingCommandChangesOnlyStatus : Obligations.FailingCommandChangesOnlyStatus := by
  intro i s t r hex hr hne
  obtain hok | ⟨e, _, hstatus, hraised⟩ := ends_status (exec_inv hex) hr
  · exact absurd hok hne
  · exact ⟨hraised.regs, hraised.fam, hraised.enumerator, hraised.ports, hraised.err,
      fun hclear => ⟨(hraised.firstCode hclear).trans hstatus.symm, hraised.firstEop hclear⟩,
      fun hset => ⟨hraised.keptCode hset, hraised.keptEop hset⟩⟩

/-- Settles O23: a success has status 0, and no command raises UsageError. -/
theorem usageErrorIsNeverRaised : Obligations.UsageErrorIsNeverRaised :=
  fun _ _ _ r hex hr => (legalStatus_iff r.status).mp (legalStatus_of_ends (exec_inv hex) hr)

end Sys2Proof.Safety
end

section
/-! Reset and latency (70_reset_and_hazards.md R270, R276, R277): a reset edge discards whatever the unit was doing, and
every other edge of a busy unit counts down or answers. -/

namespace Sys2Proof.Safety

open Sys2Proof.Machine

/-! ## The edges of a busy unit -/

/-- An edge of a latency that has not run out. -/
theorem step_busy_counts {s : State} {n : Nat} (hn : NoResetNext s) (hb : s.busy = true) (hr : s.rsp = none)
    (hw : s.wait = n + 1) : step s = .next { s.afterSample with wait := n } := by
  rw [step_busy hn hr hb, advance_succ (s := s.afterSample) hw]

/-- The edge after the latency has run out, the word legal or not. -/
theorem step_busy_answers {s : State} (hn : NoResetNext s) (hb : s.busy = true) (hr : s.rsp = none)
    (hw : s.wait = 0) : ∃ t, step s = .next t ∧ t.busy = false ∧ ∃ r, t.rsp = some r := by
  obtain ⟨t, r, ht, htb, htr, _⟩ := runCommand_answers s.afterSample
  refine ⟨t, ?_, htb, r, htr⟩
  rw [step_busy hn hr hb, advance_zero (s := s.afterSample) hw, ht]

/-! ## Samples without a reset -/

theorem noResetNext_of_take {n : Nat} {s : State} (h : ∀ p ∈ s.inputs.take (n + 1), p.rstN = true) :
    NoResetNext s := by
  intro p hp
  obtain ⟨rest, hi⟩ := List.head?_eq_some_iff.mp hp
  exact h p (by simp [hi])

theorem take_afterSample_noReset {n : Nat} {s : State} (h : ∀ p ∈ s.inputs.take (n + 1), p.rstN = true) :
    ∀ p ∈ s.afterSample.inputs.take n, p.rstN = true := by
  intro p hp
  rw [State.afterSample_inputs, ← List.drop_one, List.take_drop, Nat.add_comm] at hp
  exact h p (List.mem_of_mem_drop hp)

/-! ## The obligations -/

/-- Settles O2: reset is the first case of an edge, and the ports are gated by rst_n. -/
theorem resetEdgeDiscardsEverything : Obligations.ResetEdgeDiscardsEverything :=
  fun s _ rest hi hrst =>
    ⟨⟨{ s with inputs := rest }.resetEdge, step_reset hi hrst, rfl, rfl, rfl, rfl, rfl⟩, rfl, rfl⟩

/-- Settles O4, for the accepting edge and for those after it. -/
theorem latencyOnlyCountsDown : Obligations.LatencyOnlyCountsDown := by
  refine ⟨fun s p rest n hi hrst hv hw hb hr => ?accepting, fun s n hn hb hr hw => step_busy_counts hn hb hr hw⟩
  case accepting =>
    rw [step_offered hi hrst hr hb hv]
    exact advance_succ (s := { s with inputs := rest }.accept p) hw

/-- Settles O9, by induction on the count: an edge lowers it by one, and the edge at 0 answers. -/
theorem acceptedCommandIsAnswered : Obligations.AcceptedCommandIsAnswered := by
  intro n
  induction n with
  | zero =>
    intro s hb hr hw h
    obtain ⟨t, ht, hanswered⟩ := step_busy_answers (noResetNext_of_take h) hb hr hw
    exact ⟨t, by rw [core_run_succ ht, core_run_zero], hanswered⟩
  | succ n ih =>
    intro s hb hr hw h
    rw [core_run_succ (step_busy_counts (noResetNext_of_take h) hb hr hw)]
    exact ih { s.afterSample with wait := n } hb hr rfl (take_afterSample_noReset h)

end Sys2Proof.Safety
end
